-- ==== Sys2Proof/Word.lean ====
section
/-! DEFINITION. Sys2Proof/Word.lean: the word, immediate and register-name types (00_scope.md R9, R11, R12). The widths
`XLEN` and `IMM_W` are parameters of the machine (R9), so a word and an immediate are held by value, and a width says which
values there are. -/

namespace Sys2Proof

/-- A `Word` (R11: a bit vector of `XLEN` bits), held as its `toInt`, the "signed integer value" 10_state.md R21 reads a
register as. `XLEN` is data of the state, so it cannot be the width of a type; which integers are words is
`inWidth xlen`, and `toWord` is `wrap xlen`. DESIGN CHOICE, assumption log 5. -/
abbrev Word := Int

/-- An immediate or byte offset before sign extension: "a signed integer in `[-2^(IMM_W-1), 2^(IMM_W-1))`"
(30_encoding.md R70). Its range is `inWidth immW`. -/
abbrev Imm := Int

/-- A register name `x0` .. `x31`: what a 5-bit register field names (10_state.md R21, 30_encoding.md R76).
A configuration with fewer registers refuses the higher names at decode. -/
abbrev Reg := Fin 32

/-- `v` is the two's-complement value of some `w`-bit vector: `-2^(w-1) <= v < 2^(w-1)` (R11, 30_encoding.md R70). -/
def inWidth (w : Nat) (v : Int) : Bool := decide (-((2 ^ w : Nat) : Int) ≤ 2 * v ∧ 2 * v < ((2 ^ w : Nat) : Int))

end Sys2Proof
end

