-- ==== Sys2Proof/Syntax.lean ====
section
/-! DEFINITION. Sys2Proof/Syntax.lean: the decoded instructions of BPS-5 (30_encoding.md R70), one constructor per row
of spec/opcode_table.json, each carrying exactly its operand set (R71). -/

namespace Sys2Proof

/-- The five decoded forms of R70, operands in the order R70 writes them (SW: data register first). -/
inductive Instr where
  | add  (rd rs1 rs2 : Reg)
  | sub  (rd rs1 rs2 : Reg)
  | addi (rd rs1 : Reg) (imm : Imm)
  | lw   (rd rs1 : Reg) (imm : Imm)
  | sw   (rs2 rs1 : Reg) (imm : Imm)
  deriving DecidableEq, Repr

/-- Every register an instruction names (R70), for the check that each is below `NREG` (R76). -/
def Instr.named : Instr → List Reg
  | .add rd rs1 rs2 => [rd, rs1, rs2]
  | .sub rd rs1 rs2 => [rd, rs1, rs2]
  | .addi rd rs1 _ => [rd, rs1]
  | .lw rd rs1 _ => [rd, rs1]
  | .sw rs2 rs1 _ => [rs2, rs1]

/-- `imm`: defined for ADDI, LW and SW (10_state.md R30). -/
def Instr.imm? : Instr → Option Imm
  | .add _ _ _ => none
  | .sub _ _ _ => none
  | .addi _ _ imm => some imm
  | .lw _ _ imm => some imm
  | .sw _ _ imm => some imm

end Sys2Proof
end

