-- ==== Sys2Proof/WellFormed.lean ====
section
/-! DEFINITION. Sys2Proof/WellFormed.lean: which terms of `Instr` are decoded instructions of a machine with `NREG`
registers and `IMM_W`-bit immediates (30_encoding.md R70, R71, R76). -/

namespace Sys2Proof

/-- Every register the instruction names is one of `x0` .. `x(NREG-1)` (R71, R76). -/
def Instr.registersExist (nreg : Nat) (i : Instr) : Bool := i.named.all fun r => decide (r.val < nreg)

/-- The instruction's immediate, if it has one, is in the `IMM_W`-bit range (R70, R71). -/
def Instr.immFits (immW : Nat) (i : Instr) : Bool := i.imm?.all (inWidth immW)

/-- The instruction is a decoded instruction of the machine (R71). -/
def Instr.wellFormed (nreg immW : Nat) (i : Instr) : Bool := i.registersExist nreg && i.immFits immW

end Sys2Proof
end

