-- ==== Sys2Proof/Decode.lean ====
section
/-! DEFINITION. Sys2Proof/Decode.lean: the decoder of 30_encoding.md R80, total on 32-bit words and rejecting by name,
and after it the encoder, R73 to R78 read backwards (R82). -/

namespace Sys2Proof

/-- Why a word is `Illegal` (R80). -/
inductive DecodeError where
  /-- the word matches none of the five patterns of R79 -/
  | illegalWord
  /-- the word matches a pattern and names a register at or above `NREG` (R76) -/
  | noSuchRegister
  /-- the word matches a pattern and its immediate is outside the `IMM_W`-bit range (R71) -/
  | immediateRange
  deriving DecidableEq, Repr

/-- The register a 5-bit field starting at bit `lo` names (R76). -/
def regField (w : BitVec 32) (lo : Nat) : Reg := (w.extractLsb' lo 5).toFin

/-- `toInt_12(w[31:20])`, the format-I immediate (R74, R77). -/
def immI (w : BitVec 32) : Imm := (w.extractLsb' 20 12).toInt

/-- `toInt_12(w[31:25] : w[11:7])`, the format-S immediate (R75, R78). -/
def immS (w : BitVec 32) : Imm := BitVec.toInt (w.extractLsb' 25 7 ++ w.extractLsb' 7 5)

/-- The last clause of R80, Illegal if any named register index is at or above `NREG`, and the range clause of R71, which
refuses nothing when `IMM_W` is at least the 12 bits of the encoding's field. -/
def checkOperands (nreg immW : Nat) (i : Instr) : Except DecodeError Instr :=
  if i.registersExist nreg then
    if i.immFits immW then .ok i else .error .immediateRange
  else .error .noSuchRegister

/-- `decode(w)` of R80, for a machine of `nreg` registers and `immW`-bit immediates: the five mask and match tests in the
rule's order. -/
def decode (nreg immW : Nat) (w : BitVec 32) : Except DecodeError Instr :=
  if w &&& 0xFE00707F#32 = 0x00000033#32 then
    checkOperands nreg immW (.add (regField w 7) (regField w 15) (regField w 20))
  else if w &&& 0xFE00707F#32 = 0x40000033#32 then
    checkOperands nreg immW (.sub (regField w 7) (regField w 15) (regField w 20))
  else if w &&& 0x0000707F#32 = 0x00000013#32 then
    checkOperands nreg immW (.addi (regField w 7) (regField w 15) (immI w))
  else if w &&& 0x0000707F#32 = 0x00002003#32 then
    checkOperands nreg immW (.lw (regField w 7) (regField w 15) (immI w))
  else if w &&& 0x0000707F#32 = 0x00002023#32 then
    checkOperands nreg immW (.sw (regField w 20) (regField w 15) (immS w))
  else .error .illegalWord

/-- The instruction word whose bits are `w` and whose table row gives it `nbits` bits, every higher bit 0. An
instruction is one whole 32-bit word and the port takes it whole (R59, R72), so no byte order comes in
(assumption log 16). -/
def tableWord (nbits w : Nat) : BitVec 32 := BitVec.ofNat 32 (w % 2 ^ nbits)

/-- What the decoder of the reference machine (`NREG` = 32, `IMM_W` = 12) reads from the word of a row of spec/opcode_table.json. -/
def decodeTableWord (nbits w : Nat) : Option Instr :=
  (decode 32 12 (tableWord nbits w)).toOption

/-- The 5-bit field that names a register (R76). -/
def regBits (r : Reg) : BitVec 5 := BitVec.ofNat 5 r.val

/-- The 12-bit immediate field of the encoding (R74, R75); it holds every immediate in the 12-bit range. -/
def immBits (imm : Imm) : BitVec 12 := BitVec.ofInt 12 imm

/-- Format R (R73): `funct7 rs2 rs1 funct3 rd opcode`. -/
def formatR (funct7 : BitVec 7) (rs2 rs1 : Reg) (funct3 : BitVec 3) (rd : Reg) (opcode : BitVec 7) : BitVec 32 :=
  funct7 ++ regBits rs2 ++ regBits rs1 ++ funct3 ++ regBits rd ++ opcode

/-- Format I (R74): `imm[11:0] rs1 funct3 rd opcode`. -/
def formatI (imm : BitVec 12) (rs1 : Reg) (funct3 : BitVec 3) (rd : Reg) (opcode : BitVec 7) : BitVec 32 :=
  imm ++ regBits rs1 ++ funct3 ++ regBits rd ++ opcode

/-- Format S (R75): `imm[11:5] rs2 rs1 funct3 imm[4:0] opcode`. -/
def formatS (imm : BitVec 12) (rs2 rs1 : Reg) (funct3 : BitVec 3) (opcode : BitVec 7) : BitVec 32 :=
  imm.extractLsb' 5 7 ++ regBits rs2 ++ regBits rs1 ++ funct3 ++ imm.extractLsb' 0 5 ++ opcode

/-- The word of an instruction: the rows of R79 in the formats of R73 to R75. -/
def encode : Instr → BitVec 32
  | .add rd rs1 rs2 => formatR 0b0000000#7 rs2 rs1 0b000#3 rd 0b0110011#7
  | .sub rd rs1 rs2 => formatR 0b0100000#7 rs2 rs1 0b000#3 rd 0b0110011#7
  | .addi rd rs1 imm => formatI (immBits imm) rs1 0b000#3 rd 0b0010011#7
  | .lw rd rs1 imm => formatI (immBits imm) rs1 0b010#3 rd 0b0000011#7
  | .sw rs2 rs1 imm => formatS (immBits imm) rs2 rs1 0b010#3 0b0100011#7

end Sys2Proof
end

