-- ==== Sys2Proof/Config.lean ====
section
/-! DEFINITION. Sys2Proof/Config.lean: the implementation parameters of 00_scope.md R9, their constraints (R10) and the
reference configuration. State carries its configuration and no command changes it (assumption log 2), so what is stated
of every state holds for every admissible value of a parameter that the spec calls OPEN. -/

namespace Sys2Proof

/-- `FWD_SCOPE` (40_pipeline.md R116): which stage occupants the forwarding unit may forward from. -/
inductive FwdScope where
  /-- every occupant of EX, MEM and WB, the consumer itself and younger records included -/
  | literal
  /-- only records older than the consumer -/
  | olderOnly
  deriving DecidableEq, Repr

/-- The parameters of R9. -/
structure Config where
  /-- `XLEN`, the width of a `Word` -/
  xlen : Nat
  /-- `NREG` -/
  nreg : Nat
  /-- `ZERO`, the hardwired-zero register (D1: "every rule refers to `ZERO`") -/
  zero : Reg
  /-- `MEM_WORDS` -/
  memWords : Nat
  /-- `MAX_DEPTH` -/
  maxDepth : Nat
  /-- `FWD_SCOPE` -/
  fwdScope : FwdScope
  /-- `IMM_W`, the width of an immediate before sign extension -/
  immW : Nat
  /-- `QDEPTH`; `none` is an unbounded queue, which R34 allows -/
  qdepth : Option Nat
  /-- `RESET_REGS`, `x0` first -/
  resetRegs : List Word
  /-- `RESET_MEM`, word 0 first -/
  resetMem : List Word
  /-- `DEFAULT_PROG` -/
  defaultProg : List Instr
  deriving DecidableEq, Repr

/-- The capacity test of the intake queue as a bound: `n` records are within `QDEPTH` (R9, R34). -/
def Config.fits (c : Config) (n : Nat) : Bool :=
  match c.qdepth with
  | none => true
  | some d => decide (n ≤ d)

/-- `RESET_MEM[k]`. -/
def Config.resetWord (c : Config) (k : Nat) : Word := c.resetMem.getD k 0

/-- The constraints of R10, with what R9 says of the reset values (one word for each register and each memory word, and
`RESET_REGS[ZERO] = 0`) and a default program of decoded instructions of this machine (R71). Outside them see assumption
log 18. -/
abbrev Config.Valid (c : Config) : Prop :=
  16 ≤ c.xlen ∧ c.immW ≤ c.xlen ∧
  2 ≤ c.nreg ∧ c.nreg ≤ 32 ∧ c.zero.val < c.nreg ∧
  1 ≤ c.memWords ∧ c.memWords ≤ 2 ^ (c.xlen - 4) ∧
  1 ≤ c.maxDepth ∧
  c.fits c.defaultProg.length = true ∧
  c.resetRegs.length = c.nreg ∧ c.resetRegs.all (inWidth c.xlen) = true ∧ c.resetRegs.getD c.zero.val 0 = 0 ∧
  c.resetMem.length = c.memWords ∧ c.resetMem.all (inWidth c.xlen) = true ∧
  c.defaultProg.all (Instr.wellFormed c.nreg c.immW) = true

/-- `DEFAULT_PROG` of the reference configuration (70_reset_and_hazards.md R232). -/
def defaultProgram : List Instr :=
  [.add 10 5 6, .lw 3 2 0, .sub 4 3 1, .sw 4 2 4, .addi 7 5 10]

/-- The reference `RESET_REGS` (10_state.md R39): x1=15, x2=200, x5=25, x6=30, x0=0. Every other entry is OPEN in the
spec; 0 is the model's DESIGN CHOICE (assumption log 3, unsafe). -/
def referenceRegs : List Word := [0, 15, 200, 0, 0, 25, 30] ++ List.replicate 25 0

/-- The reference configuration: the "value" column of R9. `RESET_MEM` is 100 at word 0; words 1 to 7 are OPEN in the
spec and 0 is the model's DESIGN CHOICE (assumption log 4, unsafe). `QDEPTH` is taken unbounded (assumption log 6). -/
def Config.reference : Config where
  xlen := 32
  nreg := 32
  zero := 0
  memWords := 8
  maxDepth := 3
  fwdScope := .literal
  immW := 12
  qdepth := none
  resetRegs := referenceRegs
  resetMem := [100, 0, 0, 0, 0, 0, 0, 0]
  defaultProg := defaultProgram

end Sys2Proof
end

