-- ==== Sys2Proof/Machine/State.lean ====
section
/-! DEFINITION. Sys2Proof/Machine/State.lean: the state of the block (10_state.md), as plain data, with the spec's own
names for its parts, the reasons a step can stop, and the state after RESET. -/

namespace Sys2Proof.Machine

/-- The five pipeline stages (10_state.md R32); an older record is nearer WB. -/
inductive Stage where
  | IF
  | ID
  | EX
  | MEM
  | WB
  deriving DecidableEq, Repr

/-- The in-flight instruction record of R30. `op`, `rd`, `rs1`, `rs2` and `imm` are the tagged union `instr`, so a field
an opcode does not define is absent by construction; an absent computed field (`⊥`) is `none`. -/
structure Record where
  /-- the sequence id -/
  id : Nat
  /-- the opcode with exactly its operand fields -/
  instr : Instr
  /-- the `stall` flag -/
  stall : Bool
  /-- set in EX by ADD, SUB and ADDI, in MEM by LW -/
  result : Option Word
  /-- the effective byte address, set in EX by LW and SW -/
  ea : Option Word
  /-- the word index, set in EX by LW and SW -/
  idx : Option Int
  deriving DecidableEq, Repr

/-- `S`, the five stage holders, each empty or holding one record (R32). -/
structure Stages where
  IF : Option Record
  ID : Option Record
  EX : Option Record
  MEM : Option Record
  WB : Option Record
  deriving DecidableEq, Repr

/-- All five holders empty. -/
def Stages.empty : Stages := ⟨none, none, none, none, none⟩

/-- The kind of an InvalidMemoryAccess (R38). -/
inductive AccessKind where
  | read
  | write
  deriving DecidableEq, Repr

/-- An entry of the fault log (R38). -/
structure FaultEntry where
  /-- the value `cyc` takes at the end of the step that made the access -/
  cycle : Nat
  kind : AccessKind
  /-- the out-of-range word index -/
  index : Int
  /-- the sequence id of the LW or SW -/
  id : Nat
  deriving DecidableEq, Repr

/-- The values of the `sub_resp` output (40_pipeline.md R101). -/
inductive SubResp where
  | none
  | accepted
  | malformed
  | queueFull
  deriving DecidableEq, Repr

/-- The output signals of the command port (R101, R131). `none` in `retired` or `fault` is the signal `retire_valid` or
`fault_valid` at 0, when its companion signals mean nothing. That State holds them is assumption log 9. -/
structure Outputs where
  /-- `sub_resp` -/
  subResp : SubResp
  /-- `retire_valid` with `retire_id` -/
  retired : Option Nat
  /-- `fault_valid` with `fault_kind` and `fault_index` -/
  fault : Option (AccessKind × Word)
  deriving DecidableEq, Repr

/-- No response, nothing retired, no fault: the outputs after RESET (70_reset_and_hazards.md R230). -/
def Outputs.idle : Outputs := ⟨.none, Option.none, Option.none⟩

/-- A command of the host port (R101). -/
inductive Command where
  | none
  | submit (w : BitVec 32)
  | step
  | reset
  deriving DecidableEq, Repr

/-- A data-memory cell: a word index and the word there. The spec's smallest addressable unit is the word (R29, R59;
assumption log 14). -/
abbrev Cell := Nat × Word

/-- The state of the block: the tuple of R20, the outputs of its port, and three fields of the model's own (`cfg`, `sub`,
`host`). -/
structure State where
  /-- the parameters; no command changes them (assumption log 2) -/
  cfg : Config
  /-- the register file, `x0` first, one word for each of the `NREG` registers (R21) -/
  RF : List Word
  /-- the data memory (R29), in canonical form: word indices strictly rising, no entry equal to `RESET_MEM` at its
  index, which is what an unlisted index reads as -/
  DM : List Cell
  /-- the stage holders (R32) -/
  S : Stages
  /-- the intake queue, head first (R34) -/
  Q : List Record
  /-- the completed log, oldest first (R35) -/
  L : List Record
  /-- the cycle counter (R36) -/
  cyc : Nat
  /-- the sequence-id counter (R37) -/
  nextId : Nat
  /-- the fault log, oldest first (R38) -/
  F : List FaultEntry
  /-- the outputs of the command port (40_pipeline.md R101) -/
  out : Outputs
  /-- the stage whose sub-step is being run; IF between commands (assumption log 8) -/
  sub : Stage
  /-- the commands the host is going to issue, oldest first; after them it issues STEP (assumption log 1) -/
  host : List Command
  deriving DecidableEq, Repr

/-- Why the machine stops. The hardware itself has no traps (60_exceptions.md R200); no reachable state stops. -/
inductive Fault where
  /-- Raised by the WB sub-step of ADD, SUB, ADDI and LW when the retiring record must write `rd` and has no `result`:
  the internal fault `Unreachable` of 40_pipeline.md R133, "that stops the run (never as a value)". Safe. -/
  | unreachable
  /-- Raised by the MEM sub-step of LW and SW when the record has no word index: the spec gives it no effect and no run
  reaches it (assumption log 11). Safe. -/
  | noIndex
  deriving DecidableEq, Repr

/-- Why an instruction has no meaning. -/
inductive Refusal where
  /-- Raised by an arm of `exec` whose instruction has no meaning yet; no arm of this model raises it. Safe. -/
  | notModelled (mnemonic : String)
  deriving DecidableEq, Repr

/-- A record of instruction `i` with id `id` as it enters the queue or the pipeline: no computed field, not stalled
(R31; `fresh` of 40_pipeline.md R102). -/
def Record.fresh (id : Nat) (i : Instr) : Record := ⟨id, i, false, none, none, none⟩

/-- The records of a program numbered from `n` on (R37). -/
def numbered (n : Nat) : List Instr → List Record
  | [] => []
  | i :: p => Record.fresh n i :: numbered (n + 1) p

/-- The state RESET leaves in a machine of configuration `c` (70_reset_and_hazards.md R230, 10_state.md R39).
`RF[ZERO]` is 0 whatever `RESET_REGS` lists there (D7 "x0 = 0 always"; assumption log 7). -/
def State.initial (c : Config) : State where
  cfg := c
  RF := c.resetRegs.set c.zero.val 0
  DM := []
  S := .empty
  Q := numbered 0 c.defaultProg
  L := []
  cyc := 0
  nextId := c.defaultProg.length
  F := []
  out := .idle
  sub := .IF
  host := []

/-- Power-on is RESET (R234), in the reference configuration. -/
def State.reset : State := State.initial Config.reference

end Sys2Proof.Machine
end

