-- ==== Sys2Proof/Machine/Ops.lean ====
section
/-! DEFINITION. Sys2Proof/Machine/Ops.lean: the named operations over the register file, the data memory, the stage
holders, the logs and the outputs. The hardware has no exception to take and none to return from (60_exceptions.md R200,
R206, R207): its one error record is `State.logFault`, and the pipeline goes on. -/

namespace Sys2Proof.Machine

/-- The outcome of a step or of a part of one. -/
abbrev Result := Host.Outcome State Fault Refusal

/-- Go on with `f` after a next state; a stop stays. -/
def andThen (o : Result) (f : State → Result) : Result :=
  match o with
  | .next s => f s
  | .fault r => .fault r
  | .refused r => .refused r

/-- The next state, where there is one. -/
def next? : Result → Option State
  | .next s => some s
  | .fault _ => none
  | .refused _ => none

/-- `n` steps of `f`, stopping at the first fault or refusal. -/
def iterate (f : State → Result) : Nat → State → Result
  | 0, s => .next s
  | n + 1, s => andThen (f s) (iterate f n)

/-! ### Words (00_scope.md R11) -/

/-- `toInt(toWord(i))`: the word of `xlen` bits that `i` wraps to, by its value. -/
def wrap (xlen : Nat) (i : Int) : Int := (BitVec.ofInt xlen i).toInt

/-! ### Register file (10_state.md R22, R23) -/

/-- The register of name `r` in a register file: none at or above `NREG`, where no accepted instruction names one
(assumption log 15). -/
def regGet (zero : Reg) (rf : List Word) (r : Reg) : Word := if r = zero then 0 else rf.getD r.val 0

/-- A register file with `r` set to `v`, the hardwired zero left alone. -/
def regSet (zero : Reg) (rf : List Word) (r : Reg) (v : Word) : List Word := if r = zero then rf else rf.set r.val v

/-- `x[r]`: the committed value, 0 for `ZERO`. -/
def State.reg (s : State) (r : Reg) : Word := regGet s.cfg.zero s.RF r

/-- `x[r] <- v`: dropped for `ZERO`. -/
def State.setReg (s : State) (r : Reg) (v : Word) : State := { s with RF := regSet s.cfg.zero s.RF r v }

/-! ### Data memory (20_memory.md R53 to R55, R67) -/

/-- Whether word index `k` is valid (R53). -/
def validIndex (c : Config) (k : Int) : Bool := decide (0 ≤ k ∧ k < (c.memWords : Int))

/-- The word at index `k` of a memory of configuration `c`: an unlisted index reads as `RESET_MEM`. -/
def memGet (c : Config) (m : List Cell) (k : Nat) : Word := (m.lookup k).getD (c.resetWord k)

/-- `m` with the entry of index `k` set to `v`, in rising order. -/
def cellsSet (k : Nat) (v : Word) : List Cell → List Cell
  | [] => [(k, v)]
  | e :: m => if k < e.1 then (k, v) :: e :: m else if k = e.1 then (k, v) :: m else e :: cellsSet k v m

/-- `m` without an entry for index `k`. -/
def cellsErase (k : Nat) (m : List Cell) : List Cell := m.filter fun e => decide (e.1 ≠ k)

/-- `DM[k] <- v` on the canonical form: the value `RESET_MEM[k]` is stored as no entry. -/
def memSet (c : Config) (m : List Cell) (k : Nat) (v : Word) : List Cell :=
  if v = c.resetWord k then cellsErase k m else cellsSet k v m

/-- The canonical form: indices strictly rising and in range, no entry equal to what an unlisted index reads as. -/
def Memory.wf (c : Config) (m : List Cell) : Bool :=
  decide ((m.map Prod.fst).Pairwise (· < ·)) &&
  m.all fun e => decide (e.1 < c.memWords) && decide (e.2 ≠ c.resetWord e.1)

/-- `DM[k]`, for a valid `k`. -/
def State.dm (s : State) (k : Nat) : Word := memGet s.cfg s.DM k

/-- `DM[k] <- v`, for a valid `k`. -/
def State.setDm (s : State) (k : Nat) (v : Word) : State := { s with DM := memSet s.cfg s.DM k v }

/-- `logFault(kind, k)` for the record `id` (00_scope.md R14, 10_state.md R38): the entry carries the value `cyc` takes
at the end of this step, and the `fault_*` outputs report it (40_pipeline.md R131). -/
def State.logFault (s : State) (kind : AccessKind) (k : Int) (id : Nat) : State :=
  { s with
    F := s.F ++ [⟨s.cyc + 1, kind, k, id⟩]
    out := { s.out with fault := some (kind, wrap s.cfg.xlen k) } }

/-- `MemReadAt(k, id)` (R54): the word read, and the state after. -/
def memReadAt (s : State) (k : Int) (id : Nat) : Word × State :=
  if validIndex s.cfg k then (s.dm k.toNat, s) else (0, s.logFault .read k id)

/-- `MemWriteAt(k, v, id)` (R55). -/
def memWriteAt (s : State) (k : Int) (v : Word) (id : Nat) : State :=
  if validIndex s.cfg k then s.setDm k.toNat v else s.logFault .write k id

/-- `peek(k)`, the forwarding unit's own read (40_pipeline.md R115, 20_memory.md R67): 0 for an index that is not valid,
and nothing logged. An absent index is not valid; no run reaches it (assumption log 10). -/
def peek (s : State) (k : Option Int) : Word :=
  match k with
  | some k => if validIndex s.cfg k then s.dm k.toNat else 0
  | none => 0

/-! ### Stage holders and logs (40_pipeline.md R105 to R107) -/

/-- The occupant of a stage. -/
def Stages.get (S : Stages) : Stage → Option Record
  | .IF => S.IF
  | .ID => S.ID
  | .EX => S.EX
  | .MEM => S.MEM
  | .WB => S.WB

/-- `S.MEM <- i; S.EX <- empty`, the end of the EX sub-step (R107). -/
def State.exToMem (s : State) (r : Record) : State := { s with S := { s.S with MEM := some r, EX := none } }

/-- `S.WB <- i; S.MEM <- empty`, the end of the MEM sub-step (R106). -/
def State.memToWb (s : State) (r : Record) : State := { s with S := { s.S with WB := some r, MEM := none } }

/-- The WB sub-step but for the register write (R105): append to the completed log, empty WB, report the retirement. -/
def State.retire (s : State) (r : Record) : State :=
  { s with L := s.L ++ [r], S := { s.S with WB := none }, out := { s.out with retired := some r.id } }

/-- Begin the sub-step of stage `st` (assumption log 8). -/
def State.enter (s : State) (st : Stage) : State := { s with sub := st }

/-- The outputs at the start of a STEP: `sub_resp` is 00 after any command but SUBMIT, and nothing is yet retired or
logged in this step (R101). -/
def State.clearOut (s : State) : State := { s with out := .idle }

/-- Drive `sub_resp`. -/
def State.respond (s : State) (r : SubResp) : State := { s with out := { s.out with subResp := r } }

/-! ### Codes of the port (40_pipeline.md R101, 60_exceptions.md R201) -/

/-- `sub_resp`. -/
def SubResp.code : SubResp → BitVec 2
  | .none => 0b00#2
  | .accepted => 0b01#2
  | .malformed => 0b10#2
  | .queueFull => 0b11#2

/-- `fault_kind`. -/
def AccessKind.code : AccessKind → BitVec 1
  | .read => 0b0#1
  | .write => 0b1#1

/-- `retire_valid`. -/
def Outputs.retireValid (o : Outputs) : BitVec 1 := if o.retired.isSome then 1#1 else 0#1

/-- `fault_valid`. -/
def Outputs.faultValid (o : Outputs) : BitVec 1 := if o.fault.isSome then 1#1 else 0#1

/-- The command on the pins `cmd` and `sub_word`. -/
def Command.ofPins (cmd : BitVec 2) (subWord : BitVec 32) : Command :=
  if cmd = 0b00#2 then .none
  else if cmd = 0b01#2 then .submit subWord
  else if cmd = 0b10#2 then .step
  else .reset

/-- The error kinds of R201. -/
inductive ErrorKind where
  | invalidRead
  | invalidWrite
  | malformedInstruction
  | queueFull
  deriving DecidableEq, Repr

/-- The codes of R201 (0 is no error). -/
def ErrorKind.code : ErrorKind → Nat
  | .invalidRead => 1
  | .invalidWrite => 2
  | .malformedInstruction => 3
  | .queueFull => 4

/-- The error kind shown on the outputs, if any (R201): at most one, since one command is taken per edge and a SUBMIT and
a STEP never coincide (R205). -/
def Outputs.error (o : Outputs) : Option ErrorKind :=
  match o.subResp, o.fault with
  | .accepted, _ => Option.none
  | .malformed, _ => some .malformedInstruction
  | .queueFull, _ => some .queueFull
  | _, some (.read, _) => some .invalidRead
  | _, some (.write, _) => some .invalidWrite
  | _, Option.none => Option.none

end Sys2Proof.Machine
end

