-- ==== Sys2Proof/Machine/Operands.lean ====
section
/-! DEFINITION. Sys2Proof/Machine/Operands.lean: the operand fields of an instruction as the pipeline asks for them
(10_state.md R30), the immediate's extension, and the one addressing mode, base plus byte offset (42_loadstore.md R172). -/

namespace Sys2Proof

/-- `rd`: defined for ADD, SUB, ADDI and LW (R30). -/
def Instr.rd? : Instr → Option Reg
  | .add rd _ _ => some rd
  | .sub rd _ _ => some rd
  | .addi rd _ _ => some rd
  | .lw rd _ _ => some rd
  | .sw _ _ _ => none

/-- `rs1`: defined for all five; the base register of LW and SW (R30). -/
def Instr.rs1 : Instr → Reg
  | .add _ rs1 _ => rs1
  | .sub _ rs1 _ => rs1
  | .addi _ rs1 _ => rs1
  | .lw _ rs1 _ => rs1
  | .sw _ rs1 _ => rs1

/-- `rs2`: defined for ADD, SUB and SW (R30). -/
def Instr.rs2? : Instr → Option Reg
  | .add _ _ rs2 => some rs2
  | .sub _ _ rs2 => some rs2
  | .addi _ _ _ => none
  | .lw _ _ _ => none
  | .sw rs2 _ _ => some rs2

/-- `op = LW`. -/
def Instr.isLw : Instr → Bool
  | .lw _ _ _ => true
  | _ => false

/-- `op = SW`. -/
def Instr.isSw : Instr → Bool
  | .sw _ _ _ => true
  | _ => false

/-- `op in {ADD, SUB, ADDI}`. -/
def Instr.isAlu : Instr → Bool
  | .add _ _ _ => true
  | .sub _ _ _ => true
  | .addi _ _ _ => true
  | _ => false

namespace Machine

/-- `sext_XLEN(imm)` (00_scope.md R11, 30_encoding.md R77, R78): the word of the same value, since `IMM_W <= XLEN` (R10). -/
def sext (xlen : Nat) (imm : Int) : Int := wrap xlen imm

/-- `ea = base + sext_XLEN(imm)`, modulo `2^XLEN` (20_memory.md R51). -/
def effectiveAddress (xlen : Nat) (base imm : Int) : Int := wrap xlen (base + sext xlen imm)

/-- `idx = floor(toInt(ea) / 4)` (R52). Lean's `/` on integers rounds toward minus infinity for a positive divisor. -/
def wordIndex (ea : Int) : Int := ea / 4

end Machine

end Sys2Proof
end

