-- ==== Sys2Proof/Machine/Flags.lean ====
section
/-! DEFINITION. Sys2Proof/Machine/Flags.lean: the arithmetic of the family, which computes a result and no flag: the
machine has no status flags, and overflow is not detected, recorded or trapped (10_state.md R26, 41_arith.md R150). No
rounding is modelled, since no fractional value exists (R151). -/

namespace Sys2Proof.Machine

/-- The sum modulo `2^XLEN`, `toWord(toInt(a) + toInt(b))` (00_scope.md R12, 41_arith.md R150). -/
def aluAdd (xlen : Nat) (a b : Int) : Int := wrap xlen (a + b)

/-- The difference modulo `2^XLEN`, `toWord(toInt(a) - toInt(b))` (00_scope.md R12, 41_arith.md R150). -/
def aluSub (xlen : Nat) (a b : Int) : Int := wrap xlen (a - b)

end Sys2Proof.Machine
end

