-- ==== Sys2Proof/Machine/Forwarding.lean ====
section
/-! DEFINITION. Sys2Proof/Machine/Forwarding.lean: the forwarding unit (40_pipeline.md R114 to R121) and the hazard unit
(R122, R123). Both are pure functions of the state and write nothing. -/

namespace Sys2Proof.Machine

/-- The age rank of a stage (R116); `IF` is the youngest. -/
def Stage.rank : Stage → Nat
  | .IF => 0
  | .ID => 1
  | .EX => 2
  | .MEM => 3
  | .WB => 4

/-- `candidate(s, c)` of R116: may the occupant of stage `st` be forwarded to a consumer in stage `c`. -/
def candidate (f : FwdScope) (st c : Stage) : Bool :=
  match f with
  | .literal => true
  | .olderOnly => decide (c.rank < st.rank)

/-- The occupant `p` of stage `st` is a usable producer of `r` (R115): its `rd` is `r` (an SW has none), and it is not an
LW in EX. -/
def usable (st : Stage) (p : Record) (r : Reg) : Bool :=
  decide (p.instr.rd? = some r) && !(p.instr.isLw && decide (st = .EX))

/-- The producer stage `st` offers a consumer of `r` in stage `c`. -/
def producerAt (s : State) (r : Reg) (c st : Stage) : Option (Stage × Record) :=
  match s.S.get st with
  | none => none
  | some p => if candidate s.cfg.fwdScope st c && usable st p r then some (st, p) else none

/-- The first usable producer in the search order EX, MEM, WB (R115). -/
def producer (s : State) (r : Reg) (c : Stage) : Option (Stage × Record) :=
  [Stage.EX, Stage.MEM, Stage.WB].findSome? (producerAt s r c)

/-- `resolve` and `aluValue` of R115, with `n` levels of recursion left, that is `n = MAX_DEPTH - d`. The producer's
stage becomes the consumer stage of the recursion. -/
def resolveWithin : Nat → State → Reg → Stage → Word
  | 0, s, r, _ => if r = s.cfg.zero then 0 else s.reg r
  | n + 1, s, r, c =>
    if r = s.cfg.zero then 0
    else
      match producer s r c with
      | none => s.reg r
      | some (st, p) =>
        match p.result with
        | some v => v
        | none =>
          match p.instr with
          | .add _ a b => aluAdd s.cfg.xlen (resolveWithin n s a st) (resolveWithin n s b st)
          | .sub _ a b => aluSub s.cfg.xlen (resolveWithin n s a st) (resolveWithin n s b st)
          | .addi _ a imm => aluAdd s.cfg.xlen (resolveWithin n s a st) (sext s.cfg.xlen imm)
          | .lw _ _ _ => peek s p.idx
          | .sw _ _ _ => s.reg r

/-- `resolve(r, c, d)` (R115): the effective value of register `r` for a consumer in stage `c` at depth `d`. -/
def resolve (s : State) (r : Reg) (c : Stage) (d : Nat) : Word := resolveWithin (s.cfg.maxDepth - d) s r c

/-- `detect(id, x)` (R122): the load-use hazard of the ID occupant against the EX-stage record `x`. Register names are
compared as names, `ZERO` included (R123). -/
def detect (id x : Option Record) : Bool :=
  match id, x with
  | some i, some l =>
    match l.instr with
    | .lw rd _ _ =>
      match i.instr with
      | .sw rs2 rs1 _ => decide (rd = rs1) || decide (rd = rs2)
      | j => decide (rd = j.rs1)
    | _ => false
  | _, _ => false

end Sys2Proof.Machine
end

