-- ==== Sys2Proof/Machine/SubStep.lean ====
section
/-! DEFINITION. Sys2Proof/Machine/SubStep.lean: the shape every instruction's meaning has. The spec gives each instruction
its part in three sub-steps of a STEP, EX, MEM and WB, one clock cycle apart (41_arith.md, 42_loadstore.md); IF and ID
compute nothing (40_pipeline.md R113). `State.sub` says which sub-step is being run (assumption log 8). -/

namespace Sys2Proof.Machine

/-- The part of an instruction that belongs to the sub-step being run, given the occupant of that stage. An empty stage
does nothing ("if S.EX != empty", R105 to R107; assumption log 17). -/
def bySubStep (s : State) (ex mem wb : Record → State → Result) : Result :=
  match s.sub with
  | .EX => match s.S.EX with
    | some r => ex r s
    | none => .next s
  | .MEM => match s.S.MEM with
    | some r => mem r s
    | none => .next s
  | .WB => match s.S.WB with
    | some r => wb r s
    | none => .next s
  | .ID => .next s
  | .IF => .next s

/-- EX of ADD, SUB and ADDI (R107): cache `v` as the result and move to MEM. -/
def exResult (v : Word) (r : Record) (s : State) : Result := .next (s.exToMem { r with result := some v })

/-- EX of LW and SW (R107): record `ea` and its word index and move to MEM. -/
def exAddress (ea : Word) (r : Record) (s : State) : Result :=
  .next (s.exToMem { r with ea := some ea, idx := some (wordIndex ea) })

/-- MEM of ADD, SUB and ADDI (R106): nothing but the move to WB. -/
def memPass (r : Record) (s : State) : Result := .next (s.memToWb r)

/-- MEM of LW (R106): `i.result <- MemReadAt(i.idx, i.id)`, then the move to WB. -/
def memLoad (r : Record) (s : State) : Result :=
  match r.idx with
  | none => .fault .noIndex
  | some k => .next ((memReadAt s k r.id).2.memToWb { r with result := some (memReadAt s k r.id).1 })

/-- MEM of SW (R106): `MemWriteAt(i.idx, v, i.id)`, then the move to WB. -/
def memStore (v : Word) (r : Record) (s : State) : Result :=
  match r.idx with
  | none => .fault .noIndex
  | some k => .next ((memWriteAt s k v r.id).memToWb r)

/-- WB of ADD, SUB, ADDI and LW (R105): append to the log, write `rd` unless it is `ZERO`. A missing result that would have
to be written is the internal fault of R133 (assumption log 12). -/
def wbCommit (rd : Reg) (r : Record) (s : State) : Result :=
  if rd = s.cfg.zero then .next (s.retire r)
  else
    match r.result with
    | some v => .next ((s.retire r).setReg rd v)
    | none => .fault .unreachable

/-- WB of SW (R105): nothing but the append to the log. -/
def wbPlain (r : Record) (s : State) : Result := .next (s.retire r)

end Sys2Proof.Machine
end

