-- ==== Sys2Proof/Machine/Arith.lean ====
section
/-! DEFINITION. Sys2Proof/Machine/Arith.lean: the meanings of ADD, SUB and ADDI (41_arith.md R152 to R155). -/

namespace Sys2Proof.Machine

/-- ADD (R152): `rd <- rs1 + rs2`, modulo `2^XLEN`. -/
def execAdd (rd rs1 rs2 : Reg) (s : State) : Host.Outcome State Fault Refusal :=
  bySubStep s
    (exResult (aluAdd s.cfg.xlen (resolve s rs1 .EX 0) (resolve s rs2 .EX 0)))
    memPass
    (wbCommit rd)

/-- SUB (R153): `rd <- rs1 - rs2`, modulo `2^XLEN`. -/
def execSub (rd rs1 rs2 : Reg) (s : State) : Host.Outcome State Fault Refusal :=
  bySubStep s
    (exResult (aluSub s.cfg.xlen (resolve s rs1 .EX 0) (resolve s rs2 .EX 0)))
    memPass
    (wbCommit rd)

/-- ADDI (R154): `rd <- rs1 + sext(imm)`, modulo `2^XLEN`. -/
def execAddi (rd rs1 : Reg) (imm : Imm) (s : State) : Host.Outcome State Fault Refusal :=
  bySubStep s
    (exResult (aluAdd s.cfg.xlen (resolve s rs1 .EX 0) (sext s.cfg.xlen imm)))
    memPass
    (wbCommit rd)

end Sys2Proof.Machine
end

