-- ==== Sys2Proof/Machine/LoadStore.lean ====
section
/-! DEFINITION. Sys2Proof/Machine/LoadStore.lean: the meanings of LW and SW (42_loadstore.md R170, R171). -/

namespace Sys2Proof.Machine

/-- LW (R170): the address in EX, the read in MEM, the register write in WB. -/
def execLw (rd rs1 : Reg) (imm : Imm) (s : State) : Host.Outcome State Fault Refusal :=
  bySubStep s
    (exAddress (effectiveAddress s.cfg.xlen (resolve s rs1 .EX 0) imm))
    memLoad
    (wbCommit rd)

/-- SW (R171): the address in EX; in MEM the data register is resolved and the word written (R174). -/
def execSw (rs2 rs1 : Reg) (imm : Imm) (s : State) : Host.Outcome State Fault Refusal :=
  bySubStep s
    (exAddress (effectiveAddress s.cfg.xlen (resolve s rs1 .EX 0) imm))
    (memStore (resolve s rs2 .MEM 0))
    wbPlain

end Sys2Proof.Machine
end

