-- ==== Sys2Proof/Machine/Pipeline.lean ====
section
/-! DEFINITION. Sys2Proof/Machine/Pipeline.lean: the commands of the host port (40_pipeline.md R101, R102, R103 and
70_reset_and_hazards.md R230) and the sub-steps of STEP that no instruction has a part in (R108 to R112). -/

namespace Sys2Proof.Machine

/-- The sub-step of a stage in which instructions have a part, WB, MEM or EX (R105 to R107): the occupant's instruction is
run; an empty stage does nothing. -/
def stageSubStep (st : Stage) (s : State) : Result :=
  match s.S.get st with
  | none => .next (s.enter st)
  | some r => exec r.instr (s.enter st)

/-- The ID-to-EX sub-step (R109), `h` being the verdict of the hazard sub-step (R108). -/
def idToEx (h : Bool) (s : State) : State :=
  match s.S.ID with
  | none => s
  | some r =>
    if h then { s with S := { s.S with ID := some { r with stall := true } } }
    else { s with S := { s.S with EX := some { r with stall := false }, ID := none } }

/-- "ID is empty or ID's resident instruction is not stalled" (R110). -/
def Stages.idFree (S : Stages) : Bool :=
  match S.ID with
  | none => true
  | some r => !r.stall

/-- The IF-to-ID sub-step (R110). -/
def ifToId (s : State) : State :=
  match s.S.IF with
  | none => s
  | some r => if s.S.idFree then { s with S := { s.S with ID := some r, IF := none } } else s

/-- The fetch sub-step (R111): the head of the queue enters IF as a fresh value. -/
def fetch (s : State) : State :=
  match s.Q, s.S.IF with
  | r :: q, none => { s with S := { s.S with IF := some (Record.fresh r.id r.instr) }, Q := q }
  | _, _ => s

/-- The counter sub-step (R112). -/
def count (s : State) : State := { s with cyc := s.cyc + 1 }

/-- The sub-steps after EX (R108 to R112), `exPrev` being the EX occupant at the start of the step (R104). -/
def advance (exPrev : Option Record) (s : State) : State :=
  count (fetch (ifToId ((idToEx (detect s.S.ID exPrev) s).enter .IF)))

/-- STEP (R103): one clock cycle, the stages in reverse pipeline order on one working copy. -/
def clock (s : State) : Result :=
  andThen (stageSubStep .WB s.clearOut) fun s1 =>
  andThen (stageSubStep .MEM s1) fun s2 =>
  andThen (stageSubStep .EX s2) fun s3 =>
  .next (advance s.S.EX s3)

/-- `length(Q) = QDEPTH` (R102). -/
def State.queueFull (s : State) : Bool :=
  match s.cfg.qdepth with
  | none => false
  | some d => decide (s.Q.length = d)

/-- SUBMIT(w) (R102): the decode check first (60_exceptions.md R205), then the queue check. -/
def submit (w : BitVec 32) (s : State) : State :=
  match decode s.cfg.nreg s.cfg.immW w with
  | .error _ => s.respond .malformed
  | .ok i =>
    if s.queueFull then s.respond .queueFull
    else { s.respond .accepted with Q := s.Q ++ [Record.fresh s.nextId i], nextId := s.nextId + 1 }

/-- RESET (R230): every element gets a value that depends only on the parameters; the host's own commands to come are no
state of the block. -/
def reset (s : State) : State := { State.initial s.cfg with host := s.host }

/-- A command of the port takes effect at a clock edge (R101). NONE changes nothing; `sub_resp` is 00 after it
(assumption log 9). -/
def command (c : Command) (s : State) : Result :=
  match c with
  | .none => .next (s.respond .none)
  | .submit w => .next (submit w s)
  | .step => clock s
  | .reset => .next (reset s)

/-- One clock edge of the port: the host's next command, or STEP when none is listed (assumption log 1). -/
def edge (s : State) : Result :=
  match s.host with
  | [] => command .step s
  | c :: cs => command c { s with host := cs }

/-- `s` with the instruction of word `w` standing in EX as a newly submitted record, no command pending, so that the next
STEP executes it (assumption log 13). A word that is no instruction is submitted instead, and the port refuses it. -/
def State.placeWord (s : State) (w : BitVec 32) : State :=
  match decode s.cfg.nreg s.cfg.immW w with
  | .ok i =>
    { s with S := { s.S with EX := some (Record.fresh s.nextId i) }, nextId := s.nextId + 1, host := [] }
  | .error _ => { s with host := .submit w :: s.host }

end Sys2Proof.Machine
end

