-- ==== Sys2Proof/Machine/Step.lean ====
section
/-! DEFINITION. Sys2Proof/Machine/Step.lean: one step of the machine is one clock edge of its command port
(40_pipeline.md R101, R103). -/

namespace Sys2Proof.Machine

/-- One clock edge: the host's next command, or STEP when none is listed (assumption logs 1 and 19). -/
def step (s : State) : Host.Outcome State Fault Refusal := edge s

/-- `s` with the instruction whose bits are `w` standing where the next STEP executes one (assumption log 13). -/
def State.withFetchWord (s : State) (nbits w : Nat) : State := s.placeWord (tableWord nbits w)

end Sys2Proof.Machine
end

