-- ==== Sys2Proof/Machine/Accessors.lean ====
section
/-! DEFINITION. Sys2Proof/Machine/Accessors.lean: the read-only accessors of the host (40_pipeline.md R129, R130). Each is a
function of the state and changes nothing. -/

namespace Sys2Proof.Machine

/-- Where a forwarded value comes from (R130): a stage, or the register file. -/
inductive FwdSource where
  | stage (st : Stage)
  | RF
  deriving DecidableEq, Repr

/-- `fwdValue` and `fwdSource` of one source operand (R130). -/
structure OperandView where
  value : Word
  source : FwdSource
  deriving DecidableEq, Repr

/-- The hazard and forwarding status summary (R130). -/
structure StatusSummary where
  hazardPending : Bool
  /-- the ID occupant's `rs1`, when ID is occupied -/
  rs1 : Option OperandView
  /-- the ID occupant's `rs2`, when it is ADD, SUB or SW -/
  rs2 : Option OperandView
  deriving DecidableEq, Repr

/-- `fwdSource(r)`: the stage of the producer R115 returns from at depth 0, `RF` for `ZERO` and where there is none. -/
def fwdSource (s : State) (r : Reg) : FwdSource :=
  if r = s.cfg.zero then .RF
  else if s.cfg.maxDepth = 0 then .RF
  else
    match producer s r .ID with
    | none => .RF
    | some (st, _) => .stage st

/-- What the summary shows of source operand `r` (R130). -/
def operandView (s : State) (r : Reg) : OperandView := ⟨resolve s r .ID 0, fwdSource s r⟩

/-- The status summary, "derived purely from current PipelineState" (R129, R130). -/
def summary (s : State) : StatusSummary where
  hazardPending := detect s.S.ID s.S.EX
  rs1 := s.S.ID.map fun i => operandView s i.instr.rs1
  rs2 := s.S.ID.bind fun i => i.instr.rs2?.map (operandView s)

/-- The full register map (R129): the `NREG` registers, `x0` first. -/
def registerMap (s : State) : List Word := ((List.finRange 32).take s.cfg.nreg).map s.reg

/-- The full memory array (R129). -/
def memoryArray (s : State) : List Word := (List.range s.cfg.memWords).map s.dm

/-- Everything the host observes after a command (R129): the occupant of every stage, the register map, the memory array,
the counter, the completed log, the status summary, and this spec's additions, the queue and the fault log. -/
structure Observation where
  occupants : Stages
  registers : List Word
  memory : List Word
  cycleCounter : Nat
  completedLog : List Record
  status : StatusSummary
  intakeQueue : List Record
  faultLog : List FaultEntry
  outputs : Outputs
  deriving DecidableEq, Repr

/-- The accessors together. -/
def observe (s : State) : Observation where
  occupants := s.S
  registers := registerMap s
  memory := memoryArray s
  cycleCounter := s.cyc
  completedLog := s.L
  status := summary s
  intakeQueue := s.Q
  faultLog := s.F
  outputs := s.out

/-- The core is quiescent when the intake queue and all five stages are empty (R127). -/
abbrev State.Quiescent (s : State) : Prop := s.Q = [] ∧ s.S = Stages.empty

end Sys2Proof.Machine
end

