-- ==== Sys2Proof/Machine/Sequential.lean ====
section
/-! DEFINITION. Sys2Proof/Machine/Sequential.lean: the sequential reading of a program, one instruction at a time in program
order, that 70_reset_and_hazards.md R239 compares the pipeline with; the patterns of R237 and R238; and the count of
load-use stalls of R242. The machine itself uses none of it. -/

namespace Sys2Proof.Machine

/-- What R239 compares: the register file, the data memory, and the fault-log entries without their `cycle`. -/
structure Arch where
  RF : List Word
  DM : List Cell
  F : List (AccessKind × Int × Nat)
  deriving DecidableEq, Repr

/-- A fault-log entry without its `cycle` field. -/
def FaultEntry.timeless (e : FaultEntry) : AccessKind × Int × Nat := (e.kind, e.index, e.id)

/-- The compared part of a state. -/
def State.arch (s : State) : Arch := ⟨s.RF, s.DM, s.F.map FaultEntry.timeless⟩

/-- LW at word index `k` into `rd` (R239: "LW writing MemReadAt(idx)"). -/
def Arch.load (c : Config) (a : Arch) (id : Nat) (rd : Reg) (k : Int) : Arch :=
  if validIndex c k then { a with RF := regSet c.zero a.RF rd (memGet c a.DM k.toNat) }
  else { a with RF := regSet c.zero a.RF rd 0, F := a.F ++ [(AccessKind.read, k, id)] }

/-- SW of `v` at word index `k` (R239: "SW calling MemWriteAt(idx, x[rs2])"). -/
def Arch.store (c : Config) (a : Arch) (id : Nat) (k : Int) (v : Word) : Arch :=
  if validIndex c k then { a with DM := memSet c a.DM k.toNat v }
  else { a with F := a.F ++ [(AccessKind.write, k, id)] }

/-- One instruction, alone and whole (R239). -/
def seqExec (c : Config) (a : Arch) (id : Nat) (i : Instr) : Arch :=
  let x := regGet c.zero a.RF
  match i with
  | .add rd rs1 rs2 => { a with RF := regSet c.zero a.RF rd (aluAdd c.xlen (x rs1) (x rs2)) }
  | .sub rd rs1 rs2 => { a with RF := regSet c.zero a.RF rd (aluSub c.xlen (x rs1) (x rs2)) }
  | .addi rd rs1 imm => { a with RF := regSet c.zero a.RF rd (aluAdd c.xlen (x rs1) (sext c.xlen imm)) }
  | .lw rd rs1 imm => a.load c id rd (wordIndex (effectiveAddress c.xlen (x rs1) imm))
  | .sw rs2 rs1 imm => a.store c id (wordIndex (effectiveAddress c.xlen (x rs1) imm)) (x rs2)

/-- A program's records, one at a time in program order. -/
def seqRun (c : Config) (a : Arch) : List Record → Arch
  | [] => a
  | r :: p => seqRun c (seqExec c a r.id r.instr) p

/-- The self-dependency pattern of R237: an ADD, SUB or ADDI whose `rd` is not `ZERO` names its own `rd` as a source. -/
def selfDep (zero : Reg) : Instr → Bool
  | .add rd rs1 rs2 => decide (rd ≠ zero) && (decide (rd = rs1) || decide (rd = rs2))
  | .sub rd rs1 rs2 => decide (rd ≠ zero) && (decide (rd = rs1) || decide (rd = rs2))
  | .addi rd rs1 _ => decide (rd ≠ zero) && decide (rd = rs1)
  | .lw _ _ _ => false
  | .sw _ _ _ => false

/-- The store-data pattern of R238: an SW with `rs2` not `ZERO` and right behind it an ADD, SUB or ADDI with `rd = rs2`. -/
def storeDataPair (zero : Reg) (i j : Instr) : Bool :=
  match i with
  | .sw rs2 _ _ => decide (rs2 ≠ zero) && j.isAlu && decide (j.rd? = some rs2)
  | _ => false

/-- A program that contains neither pattern (R239). -/
def anomalyFree (zero : Reg) : List Instr → Bool
  | [] => true
  | [i] => !selfDep zero i
  | i :: j :: p => !selfDep zero i && !storeDataPair zero i j && anomalyFree zero (j :: p)

/-- `j` right behind `i` stalls one step (40_pipeline.md R122). -/
def loadUse (i j : Instr) : Bool := detect (some (Record.fresh 0 j)) (some (Record.fresh 0 i))

/-- The number of load-use stalls of a program that is in the queue whole (R242). -/
def stalls : List Instr → Nat
  | [] => 0
  | [_] => 0
  | i :: j :: p => (if loadUse i j then 1 else 0) + stalls (j :: p)

end Sys2Proof.Machine
end

