-- ==== Sys2Proof/Safety.lean ====
section
/-! DEFINITION. Sys2Proof/Safety.lean: the terms of the claims: the invariant of the states that the commands reach from
reset (40_pipeline.md R125, R126, R132; 10_state.md R21, R22, R30, R31, R33, R34, R37, R38), and the runs of the machine. -/

namespace Sys2Proof.Machine

/-- No computed field is present (R31). -/
def Record.blank (r : Record) : Bool := r.result.isNone && r.ea.isNone && r.idx.isNone

/-- A record in MEM: not stalled, and with exactly the fields its EX sub-step computes (R30, R31, R125). -/
def Record.executed (r : Record) : Bool :=
  !r.stall &&
  if r.instr.isAlu then r.result.isSome && r.ea.isNone && r.idx.isNone
  else r.result.isNone && r.ea.isSome && decide (r.idx = r.ea.map wordIndex)

/-- A record in WB or in the completed log: as in MEM, and an LW has its result (R132). -/
def Record.complete (r : Record) : Bool :=
  !r.stall &&
  if r.instr.isAlu then r.result.isSome && r.ea.isNone && r.idx.isNone
  else decide (r.result.isSome = r.instr.isLw) && r.ea.isSome && decide (r.idx = r.ea.map wordIndex)

/-- Every stage's occupant is as far as that stage has brought it, and a stalled ID has the bubble behind its LW in EX
(R31, R125). -/
abbrev Stages.Staged (S : Stages) : Prop :=
  (∀ r ∈ S.IF, r.blank = true ∧ r.stall = false) ∧
  (∀ r ∈ S.ID, r.blank = true ∧ (r.stall = true → S.EX = none)) ∧
  (∀ r ∈ S.EX, r.blank = true ∧ r.stall = false) ∧
  (∀ r ∈ S.MEM, r.executed = true) ∧
  (∀ r ∈ S.WB, r.complete = true)

/-- The computed fields of a record that are words hold words (10_state.md R30). -/
def Record.sized (xlen : Nat) (r : Record) : Bool := r.result.all (inWidth xlen) && r.ea.all (inWidth xlen)

/-- The records the block has accepted, oldest first: the completed log, then WB, MEM, EX, ID, IF, then the queue (R126). -/
def State.accepted (s : State) : List Record :=
  s.L ++ s.S.WB.toList ++ s.S.MEM.toList ++ s.S.EX.toList ++ s.S.ID.toList ++ s.S.IF.toList ++ s.Q

/-- Every accepted instruction is in exactly one place, in order of sequence id (R33, R37, R126). -/
abbrev State.InOrder (s : State) : Prop := s.accepted.map Record.id = List.range s.nextId

/-- Every accepted instruction is a decoded instruction of this machine (30_encoding.md R71). -/
abbrev State.Named (s : State) : Prop := ∀ r ∈ s.accepted, r.instr.wellFormed s.cfg.nreg s.cfg.immW = true

/-- Every register, every memory word and every computed word of an accepted instruction is a word of `XLEN` bits (R21,
R29, R30). -/
abbrev State.Sized (s : State) : Prop :=
  s.RF.all (inWidth s.cfg.xlen) = true ∧
  (∀ e ∈ s.DM, inWidth s.cfg.xlen e.2 = true) ∧
  (∀ r ∈ s.accepted, r.sized s.cfg.xlen = true)

/-- The fault log holds invalid indices only, at most one a step, none of a step to come (R38, 60_exceptions.md R205). -/
abbrev State.Logged (s : State) : Prop :=
  (∀ e ∈ s.F, validIndex s.cfg e.index = false ∧ e.cycle ≤ s.cyc) ∧
  (s.F.map FaultEntry.cycle).Pairwise (· < ·)

/-- The invariant of the states between commands. -/
abbrev State.Inv (s : State) : Prop :=
  s.cfg.Valid ∧
  s.sub = .IF ∧
  s.RF.length = s.cfg.nreg ∧ s.RF.getD s.cfg.zero.val 0 = 0 ∧
  Memory.wf s.cfg s.DM = true ∧
  s.S.Staged ∧
  (∀ r ∈ s.Q, r.blank = true ∧ r.stall = false) ∧
  s.cfg.fits s.Q.length = true ∧
  (∀ r ∈ s.L, r.complete = true) ∧
  s.InOrder ∧
  s.Named ∧
  s.Sized ∧
  s.Logged

/-- A run of `n` clock edges. -/
def run (n : Nat) (s : State) : Result := iterate step n s

/-- A safe run of `n` clock edges: it neither faults nor is refused. -/
abbrev SafeRun (n : Nat) (s : State) : Prop := ∃ t, run n s = .next t

end Sys2Proof.Machine
end

