-- ==== Sys2Proof/Certificates/Slice0/Obligations.lean ====
section
/-! DEFINITION. Sys2Proof/Certificates/Slice0/Obligations.lean: the statements about the BPS CORE pipeline, for the provers.
Each docstring names the rule of spec/ it formalises, or says what it is derived from. `s.host = []` says that the host has
no other command listed, so that the next clock edge is a STEP (assumption log 1). -/

open Sys2Proof Sys2Proof.Machine

/-! ### Encoding and decoding (30_encoding.md) -/

/-- Words written out from the formats of R73 to R75 and from 95_test_vectors.md section 2.6 decode to the instructions
they stand for, and words outside the five patterns to none. -/
def Obligations.SampleWordsDecode : Prop :=
  decode 32 12 0x00628533#32 = .ok (.add 10 5 6) ∧
  decode 32 12 0x40118233#32 = .ok (.sub 4 3 1) ∧
  decode 32 12 0x00A28393#32 = .ok (.addi 7 5 10) ∧
  decode 32 12 0xFFF00093#32 = .ok (.addi 1 0 (-1)) ∧
  decode 32 12 0xFFF0AF83#32 = .ok (.lw 31 1 (-1)) ∧
  decode 32 12 0x81FFA023#32 = .ok (.sw 31 31 (-2048)) ∧
  decode 32 12 0x00412223#32 = .ok (.sw 4 2 4) ∧
  decode 32 12 0x00000000#32 = .error .illegalWord ∧
  decode 32 12 0x00000073#32 = .error .illegalWord ∧
  decode 32 12 0x20000033#32 = .error .illegalWord ∧
  decode 8 12 0x00628533#32 = .error .noSuchRegister ∧
  decode 32 4 0x00A28393#32 = .error .immediateRange

/-- Decoding an encoded well-formed instruction gives it back, with every operand at every value the encoding admits: its
immediate field has 12 bits (R74, R75), whatever `IMM_W` is (R82). -/
def Obligations.DecodeOfEncode : Prop :=
  ∀ (nreg immW : Nat) (i : Instr), i.wellFormed nreg immW = true → i.immFits 12 = true →
    decode nreg immW (encode i) = .ok i

/-- Encoding a decoded instruction gives back the word, so decoding is injective on legal words (R82). -/
def Obligations.EncodeOfDecode : Prop :=
  ∀ (nreg immW : Nat) (w : BitVec 32) (i : Instr), decode nreg immW w = .ok i → encode i = w

/-- R80: a word decodes to an instruction exactly when it matches that instruction's own pattern and the named fields hold
its operands, each register below `NREG` (and, R71, the immediate in the `IMM_W`-bit range), whatever the other four patterns say; a word that decodes to none is refused at
SUBMIT and never enters the core; the all-zero and the all-ones word are such words. -/
def Obligations.DecodeIsTheFivePatterns : Prop :=
  (∀ (nreg immW : Nat) (w : BitVec 32),
    (∀ rd rs1 rs2, decode nreg immW w = .ok (.add rd rs1 rs2) ↔
      w &&& 0xFE00707F#32 = 0x00000033#32 ∧ rd.val = (w.extractLsb 11 7).toNat ∧
      rs1.val = (w.extractLsb 19 15).toNat ∧ rs2.val = (w.extractLsb 24 20).toNat ∧
      rd.val < nreg ∧ rs1.val < nreg ∧ rs2.val < nreg) ∧
    (∀ rd rs1 rs2, decode nreg immW w = .ok (.sub rd rs1 rs2) ↔
      w &&& 0xFE00707F#32 = 0x40000033#32 ∧ rd.val = (w.extractLsb 11 7).toNat ∧
      rs1.val = (w.extractLsb 19 15).toNat ∧ rs2.val = (w.extractLsb 24 20).toNat ∧
      rd.val < nreg ∧ rs1.val < nreg ∧ rs2.val < nreg) ∧
    (∀ rd rs1 imm, decode nreg immW w = .ok (.addi rd rs1 imm) ↔
      w &&& 0x0000707F#32 = 0x00000013#32 ∧ rd.val = (w.extractLsb 11 7).toNat ∧
      rs1.val = (w.extractLsb 19 15).toNat ∧ imm = (w.extractLsb 31 20).toInt ∧
      rd.val < nreg ∧ rs1.val < nreg ∧ inWidth immW imm = true) ∧
    (∀ rd rs1 imm, decode nreg immW w = .ok (.lw rd rs1 imm) ↔
      w &&& 0x0000707F#32 = 0x00002003#32 ∧ rd.val = (w.extractLsb 11 7).toNat ∧
      rs1.val = (w.extractLsb 19 15).toNat ∧ imm = (w.extractLsb 31 20).toInt ∧
      rd.val < nreg ∧ rs1.val < nreg ∧ inWidth immW imm = true) ∧
    (∀ rs2 rs1 imm, decode nreg immW w = .ok (.sw rs2 rs1 imm) ↔
      w &&& 0x0000707F#32 = 0x00002023#32 ∧ rs2.val = (w.extractLsb 24 20).toNat ∧
      rs1.val = (w.extractLsb 19 15).toNat ∧ imm = (w.extractLsb 31 25 ++ w.extractLsb 11 7).toInt ∧
      rs2.val < nreg ∧ rs1.val < nreg ∧ inWidth immW imm = true)) ∧
  (∀ (w : BitVec 32) (s : State), (∀ i, decode s.cfg.nreg s.cfg.immW w ≠ .ok i) →
    command (.submit w) s = .next { s with out := { s.out with subResp := .malformed } }) ∧
  (∀ (nreg immW : Nat) (i : Instr), decode nreg immW 0x00000000#32 ≠ .ok i ∧ decode nreg immW 0xFFFFFFFF#32 ≠ .ok i)

/-! ### Reset and the command port (70_reset_and_hazards.md, 40_pipeline.md) -/

/-- R230: RESET gives every element the value its pseudocode names, at once; and no other command removes anything from the
logs or lowers the counters. -/
def Obligations.ResetWritesEveryElement : Prop :=
  (∀ s : State, ∃ t, command .reset s = .next t ∧
    t.RF.length = s.cfg.resetRegs.length ∧
    (s.cfg.zero.val < s.cfg.resetRegs.length → t.RF[s.cfg.zero.val]? = some 0) ∧
    (∀ r : Reg, r ≠ s.cfg.zero → t.RF[r.val]? = s.cfg.resetRegs[r.val]?) ∧
    (∀ k, k < s.cfg.memWords → t.dm k = s.cfg.resetWord k) ∧
    t.S.IF = none ∧ t.S.ID = none ∧ t.S.EX = none ∧ t.S.MEM = none ∧ t.S.WB = none ∧
    t.Q.length = s.cfg.defaultProg.length ∧
    (∀ (j : Nat) (i : Instr), s.cfg.defaultProg[j]? = some i → t.Q[j]? = some (Record.fresh j i)) ∧
    t.nextId = s.cfg.defaultProg.length ∧ t.L = [] ∧ t.F = [] ∧ t.cyc = 0 ∧
    t.out.subResp = .none ∧ t.out.retired = none ∧ t.out.fault = none ∧
    t.cfg = s.cfg ∧ t.host = s.host) ∧
  (∀ (c : Command) (s t : State), c ≠ .reset → command c s = .next t →
    s.L <+: t.L ∧ s.F <+: t.F ∧ s.cyc ≤ t.cyc ∧ s.nextId ≤ t.nextId)

/-- R39 and R234: the state at power-on, for every configuration that has the values R39 states and any value of its OPEN
entries; the reference configuration is one. -/
def Obligations.PowerOnValues : Prop :=
  (∀ c : Config, c.zero = 0 → c.resetRegs[1]? = some 15 → c.resetRegs[2]? = some 200 → c.resetRegs[5]? = some 25 →
    c.resetRegs[6]? = some 30 → c.resetMem[0]? = some 100 → c.defaultProg = defaultProgram →
    ∀ s, (s = State.initial c ∨ ∃ u, u.cfg = c ∧ command .reset u = .next s) →
    s.reg 0 = 0 ∧ s.reg 1 = 15 ∧ s.reg 2 = 200 ∧ s.reg 5 = 25 ∧ s.reg 6 = 30 ∧ s.dm 0 = 100 ∧
    (∀ (r : Reg) (v : Word), r ≠ 0 → c.resetRegs[r.val]? = some v → s.reg r = v) ∧
    (∀ (k : Nat) (v : Word), c.resetMem[k]? = some v → s.dm k = v) ∧
    s.S = ⟨none, none, none, none, none⟩ ∧
    s.Q = [Record.fresh 0 (.add 10 5 6), Record.fresh 1 (.lw 3 2 0), Record.fresh 2 (.sub 4 3 1),
      Record.fresh 3 (.sw 4 2 4), Record.fresh 4 (.addi 7 5 10)] ∧
    s.L = [] ∧ s.cyc = 0 ∧ s.nextId = 5 ∧ s.F = []) ∧
  State.reset = State.initial Config.reference ∧
  Config.reference.zero = 0 ∧ Config.reference.resetRegs[1]? = some 15 ∧ Config.reference.resetRegs[2]? = some 200 ∧
  Config.reference.resetRegs[5]? = some 25 ∧ Config.reference.resetRegs[6]? = some 30 ∧
  Config.reference.resetMem[0]? = some 100 ∧ Config.reference.defaultProg = defaultProgram

/-- R231: RESET twice is RESET once, and what RESET leaves does not depend on the state before, only on the parameters
(and on the commands the host still has to issue, which are not the block's). -/
def Obligations.ResetIdempotentAndHistoryIndependent : Prop :=
  (∀ s : State, andThen (command .reset s) (command .reset) = command .reset s) ∧
  (∀ s u : State, s.cfg = u.cfg → s.host = u.host → command .reset s = command .reset u)

/-- R102: SUBMIT refuses a word that does not decode, then a full queue, and otherwise appends the fresh record with the
next sequence id; it touches nothing else; and the record of an empty pipeline's only instruction is fetched by the next
STEP. -/
def Obligations.SubmitAppendsOrRefuses : Prop :=
  (∀ (w : BitVec 32) (s : State), (∀ i, decode s.cfg.nreg s.cfg.immW w ≠ .ok i) →
    command (.submit w) s = .next { s with out := { s.out with subResp := .malformed } }) ∧
  (∀ (w : BitVec 32) (s : State) (i : Instr), decode s.cfg.nreg s.cfg.immW w = .ok i → s.cfg.qdepth = some s.Q.length →
    command (.submit w) s = .next { s with out := { s.out with subResp := .queueFull } }) ∧
  (∀ (w : BitVec 32) (s : State) (i : Instr), decode s.cfg.nreg s.cfg.immW w = .ok i → s.cfg.qdepth ≠ some s.Q.length →
    command (.submit w) s = .next { s with
      Q := s.Q ++ [⟨s.nextId, i, false, none, none, none⟩]
      nextId := s.nextId + 1
      out := { s.out with subResp := .accepted } }) ∧
  (∀ (w : BitVec 32) (s : State) (i : Instr), decode s.cfg.nreg s.cfg.immW w = .ok i → s.cfg.qdepth ≠ some s.Q.length →
    s.Quiescent → ∃ t u, command (.submit w) s = .next t ∧ command .step t = .next u ∧
      u.S.IF = some ⟨s.nextId, i, false, none, none, none⟩ ∧ u.Q = [])

/-- R204: a SUBMIT to a full queue changes no state of R20, and an unbounded queue never refuses. -/
def Obligations.QueueFullRefusesAndKeepsState : Prop :=
  (∀ (w : BitVec 32) (s : State), s.cfg.qdepth = some s.Q.length → ∃ t, command (.submit w) s = .next t ∧
    t.RF = s.RF ∧ t.DM = s.DM ∧ t.S = s.S ∧ t.Q = s.Q ∧ t.L = s.L ∧ t.cyc = s.cyc ∧ t.nextId = s.nextId ∧ t.F = s.F ∧
    (t.out.subResp = .queueFull ∨ t.out.subResp = .malformed)) ∧
  (∀ (w : BitVec 32) (s t : State), s.cfg.qdepth = none → command (.submit w) s = .next t → t.out.subResp ≠ .queueFull)

/-- NONE changes nothing, and `sub_resp` is 00 after it (R101). That the retire and fault outputs keep their values is the
model's reading, assumption log 9. -/
def Obligations.NoneChangesNothing : Prop :=
  ∀ s : State, command .none s = .next { s with out := { s.out with subResp := .none } }

/-- A STEP runs the decoded instructions that stand in its stages, and around them does what R108 to R112 say: a sub-step
runs the occupant's instruction; a STEP is the WB, MEM and EX sub-steps and then the front end; and a word that stands
decoded in EX, with MEM and WB empty, is run by the next STEP. Two clauses are the model's choices and no rule's: that a
clock edge with no command listed is a STEP (assumption log 1), and that `withFetchWord` places its word in EX, so that the
next STEP runs it (assumption log 13). -/
def Obligations.StepRunsTheDecodedInstruction : Prop :=
  (∀ s : State, s.host = [] → step s = clock s) ∧
  (∀ (s : State) (c : Command) (cs : List Command), s.host = c :: cs → step s = command c { s with host := cs }) ∧
  (∀ (s : State) (st : Stage) (r : Record), s.S.get st = some r → stageSubStep st s = exec r.instr (s.enter st)) ∧
  (∀ s : State, clock s =
    andThen (andThen (andThen (stageSubStep .WB s.clearOut) (stageSubStep .MEM)) (stageSubStep .EX))
      fun t => .next (advance s.S.EX t)) ∧
  (∀ (s : State) (w : BitVec 32) (i : Instr) (r : Record), s.host = [] → decode s.cfg.nreg s.cfg.immW w = .ok i →
    s.S.EX = some r → r.instr = i → s.S.MEM = none → s.S.WB = none →
    step s = andThen (exec i (s.clearOut.enter .EX)) fun t => .next (advance (some r) t)) ∧
  (∀ (s : State) (nbits w : Nat) (i : Instr), decode s.cfg.nreg s.cfg.immW (tableWord nbits w) = .ok i →
    s.S.MEM = none → s.S.WB = none →
    step (s.withFetchWord nbits w) =
      andThen (exec i ((s.withFetchWord nbits w).clearOut.enter .EX)) fun t =>
        .next (advance (some ⟨s.nextId, i, false, none, none, none⟩) t))

/-! ### The instructions, each in its three sub-steps (41_arith.md, 42_loadstore.md) -/

/-- R152, ADD: its encoding; the sum cached in EX; nothing in MEM; `rd` written in WB unless it is `ZERO` (the rule's `x0`),
and `ZERO` still reads 0 afterwards. Everything the equations do not name is unchanged. -/
def Obligations.AddInEachSubStep : Prop :=
  ∀ (rd rs1 rs2 : Reg),
    (encode (.add rd rs1 rs2) &&& 0xFE00707F#32 = 0x00000033#32 ∧
      ((encode (.add rd rs1 rs2)).extractLsb 11 7).toNat = rd.val ∧
      ((encode (.add rd rs1 rs2)).extractLsb 19 15).toNat = rs1.val ∧
      ((encode (.add rd rs1 rs2)).extractLsb 24 20).toNat = rs2.val) ∧
    (∀ (s : State) (r : Record), s.sub = .EX → s.S.EX = some r →
      exec (.add rd rs1 rs2) s = .next { s with S := { s.S with
        MEM := some { r with result := some (wrap s.cfg.xlen (resolve s rs1 .EX 0 + resolve s rs2 .EX 0)) }, EX := none } }) ∧
    (∀ (s : State) (r : Record), s.sub = .MEM → s.S.MEM = some r →
      exec (.add rd rs1 rs2) s = .next { s with S := { s.S with WB := some r, MEM := none } }) ∧
    (∀ (s : State) (r : Record), s.sub = .WB → s.S.WB = some r → rd = s.cfg.zero →
      exec (.add rd rs1 rs2) s = .next { s with
        L := s.L ++ [r], S := { s.S with WB := none }, out := { s.out with retired := some r.id } }) ∧
    (∀ (s : State) (r : Record) (v : Word), s.sub = .WB → s.S.WB = some r → rd ≠ s.cfg.zero → r.result = some v →
      exec (.add rd rs1 rs2) s = .next { s with
        RF := s.RF.set rd.val v
        L := s.L ++ [r], S := { s.S with WB := none }, out := { s.out with retired := some r.id } }) ∧
    (∀ (s : State) (c : Stage) (d : Nat), resolve s s.cfg.zero c d = 0)

/-- R153, SUB: as ADD, with `rs1 - rs2`. -/
def Obligations.SubInEachSubStep : Prop :=
  ∀ (rd rs1 rs2 : Reg),
    (encode (.sub rd rs1 rs2) &&& 0xFE00707F#32 = 0x40000033#32 ∧
      ((encode (.sub rd rs1 rs2)).extractLsb 11 7).toNat = rd.val ∧
      ((encode (.sub rd rs1 rs2)).extractLsb 19 15).toNat = rs1.val ∧
      ((encode (.sub rd rs1 rs2)).extractLsb 24 20).toNat = rs2.val) ∧
    (∀ (s : State) (r : Record), s.sub = .EX → s.S.EX = some r →
      exec (.sub rd rs1 rs2) s = .next { s with S := { s.S with
        MEM := some { r with result := some (wrap s.cfg.xlen (resolve s rs1 .EX 0 - resolve s rs2 .EX 0)) }, EX := none } }) ∧
    (∀ (s : State) (r : Record), s.sub = .MEM → s.S.MEM = some r →
      exec (.sub rd rs1 rs2) s = .next { s with S := { s.S with WB := some r, MEM := none } }) ∧
    (∀ (s : State) (r : Record), s.sub = .WB → s.S.WB = some r → rd = s.cfg.zero →
      exec (.sub rd rs1 rs2) s = .next { s with
        L := s.L ++ [r], S := { s.S with WB := none }, out := { s.out with retired := some r.id } }) ∧
    (∀ (s : State) (r : Record) (v : Word), s.sub = .WB → s.S.WB = some r → rd ≠ s.cfg.zero → r.result = some v →
      exec (.sub rd rs1 rs2) s = .next { s with
        RF := s.RF.set rd.val v
        L := s.L ++ [r], S := { s.S with WB := none }, out := { s.out with retired := some r.id } })

/-- R154, ADDI: as ADD, with the sign-extended immediate. -/
def Obligations.AddiInEachSubStep : Prop :=
  ∀ (rd rs1 : Reg) (imm : Imm),
    (encode (.addi rd rs1 imm) &&& 0x0000707F#32 = 0x00000013#32 ∧
      ((encode (.addi rd rs1 imm)).extractLsb 11 7).toNat = rd.val ∧
      ((encode (.addi rd rs1 imm)).extractLsb 19 15).toNat = rs1.val ∧
      ((encode (.addi rd rs1 imm)).extractLsb 31 20).toInt = wrap 12 imm) ∧
    (∀ (s : State) (r : Record), s.sub = .EX → s.S.EX = some r →
      exec (.addi rd rs1 imm) s = .next { s with S := { s.S with
        MEM := some { r with result := some (wrap s.cfg.xlen (resolve s rs1 .EX 0 + sext s.cfg.xlen imm)) }, EX := none } }) ∧
    (∀ (s : State) (r : Record), s.sub = .MEM → s.S.MEM = some r →
      exec (.addi rd rs1 imm) s = .next { s with S := { s.S with WB := some r, MEM := none } }) ∧
    (∀ (s : State) (r : Record), s.sub = .WB → s.S.WB = some r → rd = s.cfg.zero →
      exec (.addi rd rs1 imm) s = .next { s with
        L := s.L ++ [r], S := { s.S with WB := none }, out := { s.out with retired := some r.id } }) ∧
    (∀ (s : State) (r : Record) (v : Word), s.sub = .WB → s.S.WB = some r → rd ≠ s.cfg.zero → r.result = some v →
      exec (.addi rd rs1 imm) s = .next { s with
        RF := s.RF.set rd.val v
        L := s.L ++ [r], S := { s.S with WB := none }, out := { s.out with retired := some r.id } })

/-- R170, LW: its encoding; the address and its word index in EX; in MEM the word of a valid index, or 0 and one READ
entry; `rd` written in WB unless it is `ZERO`. Memory is never changed. -/
def Obligations.LwInEachSubStep : Prop :=
  ∀ (rd rs1 : Reg) (imm : Imm),
    (encode (.lw rd rs1 imm) &&& 0x0000707F#32 = 0x00002003#32 ∧
      ((encode (.lw rd rs1 imm)).extractLsb 11 7).toNat = rd.val ∧
      ((encode (.lw rd rs1 imm)).extractLsb 19 15).toNat = rs1.val ∧
      ((encode (.lw rd rs1 imm)).extractLsb 31 20).toInt = wrap 12 imm) ∧
    (∀ (s : State) (r : Record) (ea : Word), s.sub = .EX → s.S.EX = some r →
      ea = wrap s.cfg.xlen (resolve s rs1 .EX 0 + sext s.cfg.xlen imm) →
      exec (.lw rd rs1 imm) s = .next { s with S := { s.S with
        MEM := some { r with ea := some ea, idx := some (ea / 4) }, EX := none } }) ∧
    (∀ (s : State) (r : Record) (k : Nat), s.sub = .MEM → s.S.MEM = some r → r.idx = some (k : Int) →
      k < s.cfg.memWords →
      exec (.lw rd rs1 imm) s = .next { s with S := { s.S with
        WB := some { r with result := some (s.dm k) }, MEM := none } }) ∧
    (∀ (s : State) (r : Record) (k : Int), s.sub = .MEM → s.S.MEM = some r → r.idx = some k →
      ¬(0 ≤ k ∧ k < (s.cfg.memWords : Int)) →
      exec (.lw rd rs1 imm) s = .next { s with
        S := { s.S with WB := some { r with result := some 0 }, MEM := none }
        F := s.F ++ [⟨s.cyc + 1, .read, k, r.id⟩]
        out := { s.out with fault := some (.read, wrap s.cfg.xlen k) } }) ∧
    (∀ (s : State) (r : Record), s.sub = .WB → s.S.WB = some r → rd = s.cfg.zero →
      exec (.lw rd rs1 imm) s = .next { s with
        L := s.L ++ [r], S := { s.S with WB := none }, out := { s.out with retired := some r.id } }) ∧
    (∀ (s : State) (r : Record) (v : Word), s.sub = .WB → s.S.WB = some r → rd ≠ s.cfg.zero → r.result = some v →
      exec (.lw rd rs1 imm) s = .next { s with
        RF := s.RF.set rd.val v
        L := s.L ++ [r], S := { s.S with WB := none }, out := { s.out with retired := some r.id } })

/-- R171, SW: its encoding; the address and its word index in EX; in MEM the data register is resolved and written at a
valid index, every other word staying as it was, or skipped with one WRITE entry; WB only retires. No register changes. -/
def Obligations.SwInEachSubStep : Prop :=
  ∀ (rs2 rs1 : Reg) (imm : Imm),
    (encode (.sw rs2 rs1 imm) &&& 0x0000707F#32 = 0x00002023#32 ∧
      ((encode (.sw rs2 rs1 imm)).extractLsb 24 20).toNat = rs2.val ∧
      ((encode (.sw rs2 rs1 imm)).extractLsb 19 15).toNat = rs1.val ∧
      ((encode (.sw rs2 rs1 imm)).extractLsb 31 25 ++ (encode (.sw rs2 rs1 imm)).extractLsb 11 7).toInt = wrap 12 imm) ∧
    (∀ (s : State) (r : Record) (ea : Word), s.sub = .EX → s.S.EX = some r →
      ea = wrap s.cfg.xlen (resolve s rs1 .EX 0 + sext s.cfg.xlen imm) →
      exec (.sw rs2 rs1 imm) s = .next { s with S := { s.S with
        MEM := some { r with ea := some ea, idx := some (ea / 4) }, EX := none } }) ∧
    (∀ (s : State) (r : Record) (k : Nat), s.sub = .MEM → s.S.MEM = some r → r.idx = some (k : Int) →
      k < s.cfg.memWords →
      ∃ t, exec (.sw rs2 rs1 imm) s = .next t ∧ t.dm k = resolve s rs2 .MEM 0 ∧ (∀ j, j ≠ k → t.dm j = s.dm j) ∧
        { t with DM := s.DM } = { s with S := { s.S with WB := some r, MEM := none } }) ∧
    (∀ (s : State) (r : Record) (k : Int), s.sub = .MEM → s.S.MEM = some r → r.idx = some k →
      ¬(0 ≤ k ∧ k < (s.cfg.memWords : Int)) →
      exec (.sw rs2 rs1 imm) s = .next { s with
        S := { s.S with WB := some r, MEM := none }
        F := s.F ++ [⟨s.cyc + 1, .write, k, r.id⟩]
        out := { s.out with fault := some (.write, wrap s.cfg.xlen k) } }) ∧
    (∀ (s : State) (r : Record), s.sub = .WB → s.S.WB = some r →
      exec (.sw rs2 rs1 imm) s = .next { s with
        L := s.L ++ [r], S := { s.S with WB := none }, out := { s.out with retired := some r.id } })

/-- R133: a retiring record that must write its `rd` and has no result stops the run with the internal fault, and nothing
else does in WB. Two clauses are the model's and no rule's: a record without a result whose `rd` is `ZERO` has nothing to
write and does not stop (assumption log 12, DEDUCED), and an LW or SW with no index in MEM stops with the model's own fault
(assumption log 11, DESIGN CHOICE). -/
def Obligations.StopsOnlyWhereAFieldIsMissing : Prop :=
  ∀ (i : Instr) (s : State),
    (exec i s = .fault .unreachable ↔
      s.sub = .WB ∧ ∃ r, s.S.WB = some r ∧ r.result = none ∧ ∃ rd, i.rd? = some rd ∧ rd ≠ s.cfg.zero) ∧
    (exec i s = .fault .noIndex ↔
      s.sub = .MEM ∧ ∃ r, s.S.MEM = some r ∧ r.idx = none ∧ i.isAlu = false) ∧
    (∀ f, exec i s ≠ .refused f)

/-- R113: in IF and in ID no instruction computes anything. -/
def Obligations.FetchAndDecodeComputeNothing : Prop :=
  ∀ (i : Instr) (s : State), (s.sub = .IF ∨ s.sub = .ID) → exec i s = .next s

/-- The frame of every instruction in every sub-step: what it leaves unchanged when it goes on. Registers change only at
`rd` in WB (none for SW); a memory word changes only in the MEM sub-step of an SW and only at the word index the record
carries from its EX sub-step; the completed log only in WB; the fault log only in MEM; queue, counters, IF and ID
never (10_state.md R24, R29, R35, R38). -/
def Obligations.InstructionFrame : Prop :=
  ∀ (i : Instr) (s t : State), exec i s = .next t →
    (∀ q : Reg, (s.sub = .WB → i.rd? ≠ some q) → t.reg q = s.reg q) ∧
    (∀ k : Nat, (s.sub = .MEM → i.isSw = true → ∀ r, s.S.MEM = some r → r.idx ≠ some (k : Int)) → t.dm k = s.dm k) ∧
    (s.sub ≠ .WB → t.L = s.L) ∧ (s.sub ≠ .MEM → t.F = s.F) ∧
    t.cfg = s.cfg ∧ t.S.IF = s.S.IF ∧ t.S.ID = s.S.ID ∧ t.Q = s.Q ∧ t.cyc = s.cyc ∧ t.nextId = s.nextId ∧
    t.sub = s.sub ∧ t.host = s.host ∧ t.out.subResp = s.out.subResp

/-! ### Registers and memory (10_state.md, 20_memory.md) -/

/-- R22 and R23: the register-file primitives, with the hardwired zero. `s.RF[r.val]?` is there for every register of the
machine. -/
def Obligations.RegisterPrimitives : Prop :=
  ∀ (s : State) (v : Word),
    s.reg s.cfg.zero = 0 ∧ s.setReg s.cfg.zero v = s ∧
    (∀ (r : Reg) (u : Word), r ≠ s.cfg.zero → s.RF[r.val]? = some u →
      s.reg r = u ∧ (s.setReg r v).reg r = v ∧ (s.setReg r v).RF[r.val]? = some v) ∧
    (∀ r q : Reg, q ≠ r → (s.setReg r v).reg q = s.reg q) ∧
    (∀ r : Reg, { s.setReg r v with RF := s.RF } = s)

/-- The register file is mutated only during WB (R24): a STEP writes the result of the record that stood in WB to that
record's `rd`, and no other register. -/
def Obligations.StepWritesOnlyTheRetiringRegister : Prop :=
  ∀ s t : State, s.host = [] → step s = .next t → ∀ q : Reg,
    (∀ (r : Record) (v : Word), s.S.WB = some r → r.instr.rd? = some q → q ≠ s.cfg.zero → q.val < s.RF.length →
      r.result = some v → t.reg q = v) ∧
    ((∀ r, s.S.WB = some r → r.instr.rd? ≠ some q) → t.reg q = s.reg q) ∧
    (q = s.cfg.zero → t.reg q = 0)

/-- Data memory is mutated only during MEM, by stores (R29): a STEP changes at most the word at the index of the SW that
stood in MEM, and stores there what the forwarding unit resolves for the SW's data register after the WB sub-step. -/
def Obligations.StepWritesOnlyTheStoredWord : Prop :=
  ∀ s t : State, s.host = [] → step s = .next t → ∀ k : Nat,
    (∀ (r : Record) (rs2 rs1 : Reg) (imm : Imm) (s1 : State), s.S.MEM = some r → r.instr = .sw rs2 rs1 imm →
      r.idx = some (k : Int) → k < s.cfg.memWords → stageSubStep .WB s.clearOut = .next s1 →
      t.dm k = resolve s1 rs2 .MEM 0) ∧
    ((∀ r, s.S.MEM = some r → r.instr.isSw = true → r.idx ≠ some (k : Int)) → t.dm k = s.dm k)

/-- R53: validity of a word index; R54: the read of the MEM sub-step; R55: its write. An invalid access changes no memory
and appends one entry; both leave everything else as it was. -/
def Obligations.MemoryAccessPrimitives : Prop :=
  (∀ (c : Config) (k : Int), validIndex c k = true ↔ 0 ≤ k ∧ k < (c.memWords : Int)) ∧
  (∀ (s : State) (k id : Nat), k < s.cfg.memWords → memReadAt s k id = (s.dm k, s)) ∧
  (∀ (s : State) (k : Int) (id : Nat), ¬(0 ≤ k ∧ k < (s.cfg.memWords : Int)) →
    memReadAt s k id = (0, { s with
      F := s.F ++ [⟨s.cyc + 1, .read, k, id⟩], out := { s.out with fault := some (.read, wrap s.cfg.xlen k) } })) ∧
  (∀ (s : State) (k id : Nat) (v : Word), k < s.cfg.memWords →
    (memWriteAt s k v id).dm k = v ∧ (∀ j, j ≠ k → (memWriteAt s k v id).dm j = s.dm j) ∧
    { memWriteAt s k v id with DM := s.DM } = s) ∧
  (∀ (s : State) (k : Int) (id : Nat) (v : Word), ¬(0 ≤ k ∧ k < (s.cfg.memWords : Int)) →
    memWriteAt s k v id = { s with
      F := s.F ++ [⟨s.cyc + 1, .write, k, id⟩], out := { s.out with fault := some (.write, wrap s.cfg.xlen k) } })

/-- A word held by value is its bit vector: the model's sum, difference, word index, sign extension and range are those of
the bits, at every width (R11, R12, R77; holding a word by its value is the model's choice, assumption log 5). -/
def Obligations.WordsByValue : Prop :=
  ∀ (n : Nat) (a b : BitVec n),
    aluAdd n a.toInt b.toInt = (a + b).toInt ∧
    aluSub n a.toInt b.toInt = (a - b).toInt ∧
    wordIndex a.toInt = (a.sshiftRight 2).toInt ∧
    (∀ (m : Nat) (imm : BitVec m), m ≤ n →
      sext n imm.toInt = (imm.signExtend n).toInt ∧ effectiveAddress n a.toInt imm.toInt = (a + imm.signExtend n).toInt) ∧
    (∀ v : Int, inWidth n v = true ↔ ∃ x : BitVec n, x.toInt = v)

/-- R57 and R52: four byte addresses to a word, rounding toward minus infinity, with no alignment requirement; a negative
address is invalid in every memory; and the index is the arithmetic right shift by 2. -/
def Obligations.WordIndexOfByteAddress : Prop :=
  (∀ ea k : Int, wordIndex ea = k ↔ 4 * k ≤ ea ∧ ea ≤ 4 * k + 3) ∧
  (∀ ea : Int, ea < 0 → ∀ c : Config, validIndex c (wordIndex ea) = false) ∧
  (∀ (n : Nat) (ea : BitVec n), wordIndex ea.toInt = (ea.sshiftRight 2).toInt)

/-- The wrapped sum of base and offset gives the same in-range verdict as the sum over unbounded integers, and the same
index where it is in range, for every width and memory size R10 admits but `IMM_W = XLEN`, where the bound R10 computes is
0 and its argument does not hold (R10, R51; assumption log 5). -/
def Obligations.WrappedAddressSameVerdict : Prop :=
  ∀ (c : Config) (base imm : Int), c.Valid → c.immW < c.xlen →
    inWidth c.xlen base = true → inWidth c.immW imm = true →
    validIndex c (wordIndex (effectiveAddress c.xlen base imm)) = validIndex c ((base + imm) / 4) ∧
    (validIndex c ((base + imm) / 4) = true → wordIndex (effectiveAddress c.xlen base imm) = (base + imm) / 4)

/-- A load one step behind a store to the same index reads the stored value (R63, R173): the word holds what the forwarding
unit resolves for the SW's data register after the WB sub-step, and that is the load's result. -/
def Obligations.LoadReadsTheStoreAhead : Prop :=
  ∀ (s : State) (m e : Record) (rs2 rs1 : Reg) (imm : Imm) (k : Nat), s.Inv → s.host = [] → s.S.MEM = some m →
    m.instr = .sw rs2 rs1 imm → m.idx = some (k : Int) → k < s.cfg.memWords → s.S.EX = some e → e.instr.isLw = true →
    ∃ s1 t u l, stageSubStep .WB s.clearOut = .next s1 ∧ step s = .next t ∧ t.S.MEM = some l ∧ l.id = e.id ∧
      step t = .next u ∧ t.dm k = resolve s1 rs2 .MEM 0 ∧
      (l.idx = some (k : Int) → ∃ p, u.S.WB = some p ∧ p.id = e.id ∧ p.result = some (resolve s1 rs2 .MEM 0))

/-! ### The logs, the counter and the outputs -/

/-- R131: after a STEP the retire outputs report the record appended to the completed log, if any, and the fault outputs the
entry appended to the fault log, if any; at most one of each. -/
def Obligations.OutputsReportTheStep : Prop :=
  ∀ s t : State, s.host = [] → step s = .next t →
    (∃ rs : List Record, rs.length ≤ 1 ∧ t.L = s.L ++ rs ∧ t.out.retired = rs.head?.map Record.id) ∧
    (∃ es : List FaultEntry, es.length ≤ 1 ∧ t.F = s.F ++ es ∧
      t.out.fault = es.head?.map fun e => (e.kind, wrap s.cfg.xlen e.index))

/-- Which record a STEP retires and which entry it logs: the occupant of WB as it stands, and for an LW or SW in MEM with an
invalid index the entry of R54 or R55; nothing in every other case (R35, R38, R105). -/
def Obligations.StepLogsExactly : Prop :=
  ∀ s t : State, s.host = [] → step s = .next t →
    t.L = s.L ++ s.S.WB.toList ∧
    (∀ (m : Record) (k : Int), s.S.MEM = some m → m.instr.isAlu = false → m.idx = some k →
      ¬(0 ≤ k ∧ k < (s.cfg.memWords : Int)) →
      t.F = s.F ++ [⟨s.cyc + 1, if m.instr.isLw then .read else .write, k, m.id⟩]) ∧
    ((∀ (m : Record) (k : Int), s.S.MEM = some m → m.instr.isAlu = false → m.idx = some k →
      0 ≤ k ∧ k < (s.cfg.memWords : Int)) → t.F = s.F)

/-- R112: every STEP counts one, whatever its sub-steps did, and after N steps from reset with no other command the counter
is N. -/
def Obligations.CycleCounterCountsSteps : Prop :=
  (∀ s t : State, command .step s = .next t → t.cyc = s.cyc + 1) ∧
  (∀ (n : Nat) (s t : State), s.host = [] → run n s = .next t → t.cyc = s.cyc + n) ∧
  (∀ (n : Nat) (c : Config) (t : State), run n (State.initial c) = .next t → t.cyc = n)

/-- R201: the codes, and which output shows each kind: an LW or SW of an invalid index on the fault outputs, a refused
SUBMIT on `sub_resp`. -/
def Obligations.ErrorKindsAndCodes : Prop :=
  ErrorKind.invalidRead.code = 1 ∧ ErrorKind.invalidWrite.code = 2 ∧
  ErrorKind.malformedInstruction.code = 3 ∧ ErrorKind.queueFull.code = 4 ∧
  SubResp.malformed.code = 0b10#2 ∧ SubResp.queueFull.code = 0b11#2 ∧ SubResp.accepted.code = 0b01#2 ∧
  AccessKind.read.code = 0#1 ∧ AccessKind.write.code = 1#1 ∧
  (∀ (w : BitVec 32) (s t : State) (x : DecodeError), decode s.cfg.nreg s.cfg.immW w = .error x →
    command (.submit w) s = .next t → t.out.error = some .malformedInstruction) ∧
  (∀ (w : BitVec 32) (s t : State) (i : Instr), decode s.cfg.nreg s.cfg.immW w = .ok i → s.cfg.qdepth = some s.Q.length →
    command (.submit w) s = .next t → t.out.error = some .queueFull) ∧
  (∀ (s t : State) (m : Record) (k : Int), s.host = [] → step s = .next t → s.S.MEM = some m →
    m.instr.isAlu = false → m.idx = some k → ¬(0 ≤ k ∧ k < (s.cfg.memWords : Int)) →
    t.out.error = some (if m.instr.isLw then .invalidRead else .invalidWrite))

/-- R202: an invalid access is logged and degraded and the pipeline goes on: a faulting LW retires at the next step and
writes 0 to its `rd`; a faulting SW retires at the next step, its write skipped. -/
def Obligations.InvalidAccessDegrades : Prop :=
  ∀ (s : State) (m : Record) (k : Int), s.Inv → s.host = [] → s.S.MEM = some m → m.instr.isAlu = false →
    m.idx = some k → ¬(0 ≤ k ∧ k < (s.cfg.memWords : Int)) →
    ∃ t u, step s = .next t ∧ step t = .next u ∧ t.DM = s.DM ∧ t.cyc = s.cyc + 1 ∧
      t.F = s.F ++ [⟨s.cyc + 1, if m.instr.isLw then .read else .write, k, m.id⟩] ∧
      (∃ r, u.L = t.L ++ [r] ∧ r.id = m.id ∧ r.instr = m.instr) ∧
      (∀ rd, m.instr.rd? = some rd → u.reg rd = 0)

/-! ### The hazard unit and the front end (40_pipeline.md) -/

/-- R122: the load-use hazard. -/
def Obligations.HazardUnit : Prop :=
  ∀ id x : Option Record, detect id x = true ↔
    ∃ (i l : Record) (rd b : Reg) (imm : Imm), id = some i ∧ x = some l ∧ l.instr = .lw rd b imm ∧
      (rd = i.instr.rs1 ∨ (i.instr.isSw = true ∧ i.instr.rs2? = some rd))

/-- R109: the ID-to-EX sub-step; R110: the IF-to-ID sub-step, which after it moves IF exactly when ID is empty; R111: the
fetch sub-step. -/
def Obligations.FrontEndSubSteps : Prop :=
  (∀ (s : State) (r : Record), s.S.ID = some r →
    idToEx false s = { s with S := { s.S with EX := some { r with stall := false }, ID := none } } ∧
    idToEx true s = { s with S := { s.S with ID := some { r with stall := true } } }) ∧
  (∀ (s : State) (h : Bool), s.S.ID = none → idToEx h s = s) ∧
  (∀ (s : State) (r : Record), s.S.IF = some r →
    (s.S.ID = none ∨ ∃ i, s.S.ID = some i ∧ i.stall = false) →
    ifToId s = { s with S := { s.S with ID := some r, IF := none } }) ∧
  (∀ s : State, (s.S.IF = none ∨ ∃ i, s.S.ID = some i ∧ i.stall = true) → ifToId s = s) ∧
  (∀ (s : State) (h : Bool) (r : Record), s.S.IF = some r →
    ((idToEx h s).S.ID = none → (ifToId (idToEx h s)).S.ID = some r ∧ (ifToId (idToEx h s)).S.IF = none) ∧
    ((idToEx h s).S.ID ≠ none → ifToId (idToEx h s) = idToEx h s)) ∧
  (∀ (s : State) (r : Record) (q : List Record), s.Q = r :: q → s.S.IF = none →
    fetch s = { s with S := { s.S with IF := some ⟨r.id, r.instr, false, none, none, none⟩ }, Q := q }) ∧
  (∀ s : State, (s.Q = [] ∨ s.S.IF ≠ none) → fetch s = s)

/-- R124: when the hazard is there the record stalls in ID for exactly one step: it stays, IF stays blocked behind it and
nothing is fetched into an occupied IF, the LW is then in MEM, and the next step moves it to EX with its flag clear. A
record that already stalled moves. -/
def Obligations.StallsForExactlyOneStep : Prop :=
  (∀ (s : State) (i l : Record), s.Inv → s.host = [] → s.S.ID = some i → s.S.EX = some l →
    detect (some i) (some l) = true →
    ∃ t u, step s = .next t ∧ t.S.ID = some { i with stall := true } ∧ t.S.EX = none ∧
      (∃ m, t.S.MEM = some m ∧ m.id = l.id ∧ m.instr = l.instr) ∧
      (∀ f, s.S.IF = some f → t.S.IF = some f ∧ t.Q = s.Q) ∧
      step t = .next u ∧ u.S.EX = some { i with stall := false } ∧ u.S.ID = t.S.IF) ∧
  (∀ (s : State) (i : Record), s.Inv → s.host = [] → s.S.ID = some i →
    (i.stall = true ∨ detect (some i) s.S.EX = false) →
    ∃ t, step s = .next t ∧ t.S.EX = some { i with stall := false } ∧ t.S.ID = s.S.IF)

/-- R125: a stall leaves a bubble that travels EX, MEM, WB, and no record retires in the step after; and the stall flag is
true only on a record in ID after a stalling step. -/
def Obligations.StallLeavesABubble : Prop :=
  (∀ s : State, s.Inv → s.host = [] → detect s.S.ID s.S.EX = true →
    ∃ t u v x, step s = .next t ∧ step t = .next u ∧ step u = .next v ∧ step v = .next x ∧
      t.S.EX = none ∧ u.S.MEM = none ∧ v.S.WB = none ∧ x.out.retired = none ∧ x.L = v.L) ∧
  (∀ s t : State, s.Inv → s.host = [] → step s = .next t →
    (∀ i, t.S.ID = some i → (i.stall = true ↔ detect s.S.ID s.S.EX = true)) ∧
    (∀ r, (t.S.EX = some r ∨ t.S.MEM = some r ∨ t.S.WB = some r ∨ r ∈ t.L) → r.stall = false))

/-! ### The forwarding unit (40_pipeline.md) -/

/-- R115: the forwarding algorithm. `Offers st p` says that stage `st` holds a usable producer `p` of `r`; the first such
stage in the order EX, MEM, WB decides. -/
def Obligations.ForwardingSearch : Prop :=
  ∀ (s : State) (r : Reg) (c : Stage) (d : Nat) (Offers : Stage → Record → Prop),
    (∀ st p, Offers st p ↔ (st = .EX ∨ st = .MEM ∨ st = .WB) ∧ s.S.get st = some p ∧
      (s.cfg.fwdScope = .olderOnly → c.rank < st.rank) ∧ p.instr.rd? = some r ∧
      ¬(p.instr.isLw = true ∧ st = .EX)) →
    (r = s.cfg.zero → resolve s r c d = 0) ∧
    (r ≠ s.cfg.zero → s.cfg.maxDepth ≤ d → resolve s r c d = s.reg r) ∧
    (r ≠ s.cfg.zero → (∀ st p, ¬Offers st p) → resolve s r c d = s.reg r) ∧
    (∀ st p, r ≠ s.cfg.zero → d < s.cfg.maxDepth → Offers st p → (∀ st' p', Offers st' p' → st.rank ≤ st'.rank) →
      (∀ v, p.result = some v → resolve s r c d = v) ∧
      (p.result = none → ∀ rd a b, p.instr = .add rd a b →
        resolve s r c d = wrap s.cfg.xlen (resolve s a st (d + 1) + resolve s b st (d + 1))) ∧
      (p.result = none → ∀ rd a b, p.instr = .sub rd a b →
        resolve s r c d = wrap s.cfg.xlen (resolve s a st (d + 1) - resolve s b st (d + 1))) ∧
      (p.result = none → ∀ rd a imm, p.instr = .addi rd a imm →
        resolve s r c d = wrap s.cfg.xlen (resolve s a st (d + 1) + sext s.cfg.xlen imm)) ∧
      (p.result = none → p.instr.isLw = true → ∀ k, p.idx = some k →
        resolve s r c d = if 0 ≤ k ∧ k < (s.cfg.memWords : Int) then s.dm k.toNat else 0))

/-- R118: what the EX sub-step sees and what `resolve` gives there: the consumer's own recomputed value in the LITERAL
self match, otherwise the result of the record then in WB if that writes the register, otherwise the committed value; and
a value that left WB in this step, a stalled load's among them, is in the register file. -/
def Obligations.ResolveInEX : Prop :=
  ∀ (s s1 s2 : State) (e : Record), s.Inv → s.host = [] → s.S.EX = some e →
    stageSubStep .WB s.clearOut = .next s1 → stageSubStep .MEM s1 = .next s2 →
    s2.S.EX = some e ∧ s2.S.MEM = none ∧ s2.S.WB.map Record.id = s.S.MEM.map Record.id ∧
    (∀ p, s2.S.WB = some p → p.complete = true) ∧
    (∀ p q, s.S.WB = some p → p.instr.rd? = some q → q ≠ s.cfg.zero → some (s2.reg q) = p.result) ∧
    (∀ r : Reg, r ≠ s.cfg.zero →
      (s.cfg.fwdScope = .literal → ∀ rd a b, e.instr = .add rd a b → rd = r →
        resolve s2 r .EX 0 = wrap s.cfg.xlen (resolve s2 a .EX 1 + resolve s2 b .EX 1)) ∧
      (s.cfg.fwdScope = .literal → ∀ rd a b, e.instr = .sub rd a b → rd = r →
        resolve s2 r .EX 0 = wrap s.cfg.xlen (resolve s2 a .EX 1 - resolve s2 b .EX 1)) ∧
      (s.cfg.fwdScope = .literal → ∀ rd a imm, e.instr = .addi rd a imm → rd = r →
        resolve s2 r .EX 0 = wrap s.cfg.xlen (resolve s2 a .EX 1 + sext s.cfg.xlen imm)) ∧
      (¬(s.cfg.fwdScope = .literal ∧ e.instr.isAlu = true ∧ e.instr.rd? = some r) →
        (∀ p, s2.S.WB = some p → p.instr.rd? = some r → some (resolve s2 r .EX 0) = p.result) ∧
        ((∀ p, s2.S.WB = some p → p.instr.rd? ≠ some r) → resolve s2 r .EX 0 = s2.reg r)))

/-- R119: what the MEM sub-step sees and what `resolve` gives there for the data of an SW: the recomputed value of the
younger ADD, SUB or ADDI in EX in the LITERAL match, otherwise the committed value, which already holds the value of the
record that left WB in this step. -/
def Obligations.ResolveStoreDataInMEM : Prop :=
  ∀ (s s1 : State) (m : Record) (rs2 rs1 : Reg) (imm : Imm), s.Inv → s.host = [] → s.S.MEM = some m →
    m.instr = .sw rs2 rs1 imm → stageSubStep .WB s.clearOut = .next s1 →
    s1.S.WB = none ∧ s1.S.MEM = some m ∧ s1.S.EX = s.S.EX ∧ (∀ e, s1.S.EX = some e → e.result = none) ∧
    (∀ p q, s.S.WB = some p → p.instr.rd? = some q → q ≠ s.cfg.zero → some (s1.reg q) = p.result) ∧
    (s.cfg.fwdScope = .literal → rs2 ≠ s.cfg.zero → ∀ e, s.S.EX = some e →
      (∀ a b, e.instr = .add rs2 a b → resolve s1 rs2 .MEM 0 = wrap s.cfg.xlen (resolve s1 a .EX 1 + resolve s1 b .EX 1)) ∧
      (∀ a b, e.instr = .sub rs2 a b → resolve s1 rs2 .MEM 0 = wrap s.cfg.xlen (resolve s1 a .EX 1 - resolve s1 b .EX 1)) ∧
      (∀ a k, e.instr = .addi rs2 a k → resolve s1 rs2 .MEM 0 = wrap s.cfg.xlen (resolve s1 a .EX 1 + sext s.cfg.xlen k))) ∧
    ((s.cfg.fwdScope = .olderOnly ∨ rs2 = s.cfg.zero ∨
        ∀ e, s.S.EX = some e → ¬(e.instr.isAlu = true ∧ e.instr.rd? = some rs2)) →
      resolve s1 rs2 .MEM 0 = s1.reg rs2)

/-- R237: the self-dependency table. `v` is the committed value of `r`, `q` the other source, `D` the depth bound, `word` the
wrap to `XLEN` bits; no other producer of a source is in flight. Under LITERAL an older producer of `r` itself in WB is never
consulted; under OLDER_ONLY the results are the sequential ones. -/
def Obligations.SelfDependencyTable : Prop :=
  ∀ (s : State) (e : Record) (r q : Reg) (k : Imm) (D : Nat) (v w : Word) (word : Int → Word),
    s.sub = .EX → s.S.EX = some e → e.result = none → s.S.MEM = none → r ≠ s.cfg.zero → q ≠ r →
    s.cfg.maxDepth = D → 1 ≤ D → s.reg r = v → s.reg q = w → word = wrap s.cfg.xlen →
    (∀ p, s.S.WB = some p → p.instr.rd? ≠ some q) →
    ∀ res : Word → Prop,
    (∀ x, res x ↔ exec e.instr s = .next { s with S := { s.S with MEM := some { e with result := some x }, EX := none } }) →
    (s.cfg.fwdScope = .literal →
      (e.instr = .addi r r k → res (word (v + (D + 1) * k))) ∧
      (e.instr = .add r r q → res (word (v + (D + 1) * w))) ∧
      (e.instr = .add r q r → res (word (v + (D + 1) * w))) ∧
      (e.instr = .add r r r → res (word (2 ^ (D + 1) * v))) ∧
      (e.instr = .sub r r q → res (word (v - (D + 1) * w))) ∧
      (e.instr = .sub r q r → res (word (if D % 2 = 1 then v else w - v))) ∧
      (e.instr = .sub r r r → res 0)) ∧
    (s.cfg.fwdScope = .olderOnly → (∀ p, s.S.WB = some p → p.instr.rd? ≠ some r) →
      (e.instr = .addi r r k → res (word (v + k))) ∧
      (e.instr = .add r r q → res (word (v + w))) ∧
      (e.instr = .add r q r → res (word (v + w))) ∧
      (e.instr = .add r r r → res (word (2 * v))) ∧
      (e.instr = .sub r r q → res (word (v - w))) ∧
      (e.instr = .sub r q r → res (word (w - v))) ∧
      (e.instr = .sub r r r → res 0))

/-- R238: under LITERAL an SW stores the result of the ADD, SUB or ADDI right behind it when that writes the SW's data
register (and does not depend on itself, R237); in every other case it stores the committed value. -/
def Obligations.StoreDataAnomaly : Prop :=
  ∀ (s : State) (m : Record) (rs2 rs1 : Reg) (imm : Imm) (k : Nat), s.Inv → s.host = [] → s.S.MEM = some m →
    m.instr = .sw rs2 rs1 imm → rs2 ≠ s.cfg.zero → m.idx = some (k : Int) → k < s.cfg.memWords →
    ∃ t, step s = .next t ∧
      (∀ e, s.S.EX = some e → s.cfg.fwdScope = .literal → e.instr.isAlu = true → e.instr.rd? = some rs2 →
        selfDep s.cfg.zero e.instr = false →
        ∃ y, t.S.MEM = some y ∧ y.id = e.id ∧ y.result = some (t.dm k)) ∧
      ((s.cfg.fwdScope = .olderOnly ∨
          ∀ e, s.S.EX = some e → ¬(e.instr.isAlu = true ∧ e.instr.rd? = some rs2)) →
        t.dm k = t.reg rs2)

/-- R240: under OLDER_ONLY, or where neither pattern of R237 and R238 stands in the pipeline, the result of a STEP does not
depend on `MAX_DEPTH`. -/
def Obligations.DepthBoundIrrelevant : Prop :=
  ∀ (s t : State) (d : Nat), s.Inv → s.host = [] → 1 ≤ d →
    (s.cfg.fwdScope = .olderOnly ∨
      ((∀ e, s.S.EX = some e → selfDep s.cfg.zero e.instr = false) ∧
        ∀ m e, s.S.MEM = some m → s.S.EX = some e → storeDataPair s.cfg.zero m.instr e.instr = false)) →
    step s = .next t →
    step { s with cfg := { s.cfg with maxDepth := d } } = .next { t with cfg := { t.cfg with maxDepth := d } }

/-- R130: the status summary. `hazardPending` is true exactly when the next STEP stalls the ID occupant; the source
operands shown are the ID occupant's, each with its value, resolved for a consumer in ID, and its source: the first stage in
the order EX, MEM, WB with a usable producer, and the register file where there is none and for `ZERO`. -/
def Obligations.StatusSummary : Prop :=
  (∀ s : State, (summary s).hazardPending = detect s.S.ID s.S.EX) ∧
  (∀ s : State, s.Inv → s.host = [] → ((summary s).hazardPending = true ↔
    ∃ t i, step s = .next t ∧ t.S.ID = some i ∧ i.stall = true ∧ s.S.ID.map Record.id = some i.id)) ∧
  (∀ s : State, s.S.ID = none → (summary s).rs1 = none ∧ (summary s).rs2 = none) ∧
  (∀ (s : State) (i : Record), s.S.ID = some i →
    (summary s).rs1 = some ⟨resolve s i.instr.rs1 .ID 0, fwdSource s i.instr.rs1⟩ ∧
    (∀ r, i.instr.rs2? = some r → (summary s).rs2 = some ⟨resolve s r .ID 0, fwdSource s r⟩) ∧
    (i.instr.rs2? = none → (summary s).rs2 = none)) ∧
  (∀ s : State, fwdSource s s.cfg.zero = .RF) ∧
  (∀ (s : State) (r : Reg) (st : Stage), r ≠ s.cfg.zero → 1 ≤ s.cfg.maxDepth →
    (fwdSource s r = .stage st ↔
      (st = .EX ∨ st = .MEM ∨ st = .WB) ∧
      (∃ p, s.S.get st = some p ∧ p.instr.rd? = some r ∧ ¬(p.instr.isLw = true ∧ st = .EX)) ∧
      ∀ st' p', (st' = .EX ∨ st' = .MEM ∨ st' = .WB) → s.S.get st' = some p' → p'.instr.rd? = some r →
        ¬(p'.instr.isLw = true ∧ st' = .EX) → st.rank ≤ st'.rank))

/-- R129: the accessors show the whole state as it is: one value for each of the `NREG` registers, one word for each of the
`MEM_WORDS` memory words, and the stage occupants, counter, logs, queue and status summary themselves. They are functions of
the state, so reading them changes nothing. -/
def Obligations.AccessorsShowTheState : Prop :=
  ∀ s : State, s.cfg.nreg ≤ 32 →
    (observe s).registers.length = s.cfg.nreg ∧
    (∀ r : Reg, r.val < s.cfg.nreg → (observe s).registers[r.val]? = some (s.reg r)) ∧
    (observe s).memory.length = s.cfg.memWords ∧
    (∀ k, k < s.cfg.memWords → (observe s).memory[k]? = some (s.dm k)) ∧
    (observe s).occupants = s.S ∧ (observe s).cycleCounter = s.cyc ∧ (observe s).completedLog = s.L ∧
    (observe s).intakeQueue = s.Q ∧ (observe s).faultLog = s.F ∧ (observe s).status = summary s ∧ (observe s).outputs = s.out

/-! ### Invariants, runs and timing -/

/-- Every state RESET or power-on leaves meets the invariant, in every configuration R10 admits. -/
def Obligations.InvAtReset : Prop :=
  (∀ c : Config, c.Valid → (State.initial c).Inv) ∧ State.reset.Inv

/-- The invariant of R126 (with R21, R22, R30, R31, R33, R34, R37, R38, R125 and R132) is kept by every clock edge, whatever command it
takes, from every state that meets it. -/
def Obligations.EveryStepKeepsInv : Prop :=
  ∀ s t : State, s.Inv → step s = .next t → t.Inv

/-- From a state that meets the invariant no run ever stops: the internal fault of R133 is unreachable (R132), and nothing
traps (R200). -/
def Obligations.NoRunStops : Prop :=
  ∀ (s : State) (n : Nat), s.Inv → SafeRun n s

/-- The data memory keeps its canonical form in every step, from every state where it has it; and it has it at reset
(the model's representation, assumption log 14). -/
def Obligations.MemoryStaysCanonical : Prop :=
  (∀ s t : State, Memory.wf s.cfg s.DM = true → step s = .next t → Memory.wf t.cfg t.DM = true) ∧
  Memory.wf State.reset.cfg State.reset.DM = true

/-- The parameters are configuration, not state: no clock edge changes them (R20, R9), from any state. -/
def Obligations.ParametersNeverChange : Prop :=
  ∀ s t : State, step s = .next t → t.cfg = s.cfg

/-- R127: a STEP on a quiescent core changes only the counter, and drives the outputs to 0. -/
def Obligations.QuiescentStepOnlyCounts : Prop :=
  ∀ s : State, s.host = [] → s.sub = .IF → s.Quiescent →
    step s = .next { s with cyc := s.cyc + 1, out := ⟨.none, none, none⟩ }

/-- R241: an instruction submitted to a quiescent core passes one stage a step and retires at the sixth STEP; and then the
registers, the memory and the fault log are what the instruction alone makes of them (in LITERAL, unless it names its own
`rd`, R237). -/
def Obligations.OneInstructionFromSubmitToRetirement : Prop :=
  ∀ (s : State) (w : BitVec 32) (i : Instr), s.Inv → s.host = [] → s.Quiescent → decode s.cfg.nreg s.cfg.immW w = .ok i →
    s.cfg.qdepth ≠ some s.Q.length →
    ∃ s0 s1 s2 s3 s4 s5 s6, command (.submit w) s = .next s0 ∧ step s0 = .next s1 ∧ step s1 = .next s2 ∧
      step s2 = .next s3 ∧ step s3 = .next s4 ∧ step s4 = .next s5 ∧ step s5 = .next s6 ∧
      (∃ r, s1.S = ⟨some r, none, none, none, none⟩ ∧ r.id = s.nextId ∧ r.instr = i) ∧
      (∃ r, s2.S = ⟨none, some r, none, none, none⟩ ∧ r.id = s.nextId ∧ r.instr = i) ∧
      (∃ r, s3.S = ⟨none, none, some r, none, none⟩ ∧ r.id = s.nextId ∧ r.instr = i) ∧
      (∃ r, s4.S = ⟨none, none, none, some r, none⟩ ∧ r.id = s.nextId ∧ r.instr = i) ∧
      (∃ r, s5.S = ⟨none, none, none, none, some r⟩ ∧ r.id = s.nextId ∧ r.instr = i) ∧
      s6.Quiescent ∧ s5.L = s.L ∧ s6.out.retired = some s.nextId ∧
      (∃ r, s6.L = s.L ++ [r] ∧ r.id = s.nextId ∧ r.instr = i) ∧
      (s.cfg.fwdScope = .olderOnly ∨ selfDep s.cfg.zero i = false → s6.arch = seqExec s.cfg s.arch s.nextId i)

/-- R242: from reset with `n ≥ 1` instructions in the queue, the core is quiescent after exactly `n + 5 + s` STEPs, `s`
being the number of load-use stalls, and the last instruction retires in that step; for the default program 11. -/
def Obligations.DrainTime : Prop :=
  (∀ c : Config, c.Valid → c.defaultProg ≠ [] →
    (∃ t, run (c.defaultProg.length + 5 + stalls c.defaultProg) (State.initial c) = .next t ∧ t.Quiescent ∧
      t.out.retired = some (c.defaultProg.length - 1)) ∧
    (∀ m, m < c.defaultProg.length + 5 + stalls c.defaultProg →
      ∃ u, run m (State.initial c) = .next u ∧ ¬u.Quiescent)) ∧
  Config.reference.defaultProg.length + 5 + stalls Config.reference.defaultProg = 11

/-- R239: sequential equivalence. A program run from empty stages to the first quiescent state leaves the registers, the
memory and the fault-log entries (but for their cycle) that its instructions leave when run one at a time in program order:
under OLDER_ONLY for every program, under LITERAL for every program with neither pattern of R237 and R238. -/
def Obligations.SequentialEquivalence : Prop :=
  ∀ s : State, s.Inv → s.host = [] → s.S = Stages.empty →
    (s.cfg.fwdScope = .olderOnly ∨ anomalyFree s.cfg.zero (s.Q.map Record.instr) = true) →
    ∃ (n : Nat) (t : State), run n s = .next t ∧ t.Quiescent ∧
      (∀ m u, m < n → run m s = .next u → ¬u.Quiescent) ∧
      t.arch = seqRun s.cfg s.arch s.Q
end

