-- ==== Sys2Proof/Laws/Encoding.lean ====
section
/-! SUPPORT. Sys2Proof/Laws/Encoding.lean: the bits of the three formats (30_encoding.md R73 to R75), one lemma per format. -/

namespace Sys2Proof

theorem formatR_bit (f : BitVec 7) (rs2 rs1 rd : Reg) (g : BitVec 3) (op : BitVec 7) (j : Nat) :
    (formatR f rs2 rs1 g rd op).getLsbD j =
      if j < 7 then op.getLsbD j else if j < 12 then (regBits rd).getLsbD (j - 7)
      else if j < 15 then g.getLsbD (j - 12) else if j < 20 then (regBits rs1).getLsbD (j - 15)
      else if j < 25 then (regBits rs2).getLsbD (j - 20) else f.getLsbD (j - 25) := by
  show BitVec.getLsbD (w := 7 + 5 + 5 + 3 + 5 + 7)
    (f ++ regBits rs2 ++ regBits rs1 ++ g ++ regBits rd ++ op) j = _
  simp only [BitVec.getLsbD_append]
  grind

theorem formatI_bit (imm : BitVec 12) (rs1 rd : Reg) (g : BitVec 3) (op : BitVec 7) (j : Nat) :
    (formatI imm rs1 g rd op).getLsbD j =
      if j < 7 then op.getLsbD j else if j < 12 then (regBits rd).getLsbD (j - 7)
      else if j < 15 then g.getLsbD (j - 12) else if j < 20 then (regBits rs1).getLsbD (j - 15)
      else imm.getLsbD (j - 20) := by
  show BitVec.getLsbD (w := 12 + 5 + 3 + 5 + 7) (imm ++ regBits rs1 ++ g ++ regBits rd ++ op) j = _
  simp only [BitVec.getLsbD_append]
  grind

theorem formatS_bit (imm : BitVec 12) (rs2 rs1 : Reg) (g : BitVec 3) (op : BitVec 7) (j : Nat) :
    (formatS imm rs2 rs1 g op).getLsbD j =
      if j < 7 then op.getLsbD j else if j < 12 then (imm.extractLsb' 0 5).getLsbD (j - 7)
      else if j < 15 then g.getLsbD (j - 12) else if j < 20 then (regBits rs1).getLsbD (j - 15)
      else if j < 25 then (regBits rs2).getLsbD (j - 20) else (imm.extractLsb' 5 7).getLsbD (j - 25) := by
  show BitVec.getLsbD (w := 7 + 5 + 5 + 3 + 5 + 7)
    (imm.extractLsb' 5 7 ++ regBits rs2 ++ regBits rs1 ++ g ++ imm.extractLsb' 0 5 ++ op) j = _
  simp only [BitVec.getLsbD_append]
  grind

/-- A register name is its 5-bit field read back (R76). -/
theorem regBits_toFin (r : Reg) : ((regBits r).toFin : Reg) = r := by
  apply Fin.ext
  simp [regBits]

end Sys2Proof
end

