-- ==== Sys2Proof/Laws/State.lean ====
section
/-! SUPPORT. Sys2Proof/Laws/State.lean: for each update of State, each field after it, so that no later proof unfolds a
record update. An update's own field says what was written; every other field says that nothing was. -/

namespace Sys2Proof.Machine

section RecordUpdates

variable (s : State) (r : Record) (k : Nat) (v : Word)

@[simp] theorem State.enter_cfg (st : Stage) : (s.enter st).cfg = s.cfg := rfl
@[simp] theorem State.enter_RF (st : Stage) : (s.enter st).RF = s.RF := rfl
@[simp] theorem State.enter_DM (st : Stage) : (s.enter st).DM = s.DM := rfl
@[simp] theorem State.enter_S (st : Stage) : (s.enter st).S = s.S := rfl
@[simp] theorem State.enter_Q (st : Stage) : (s.enter st).Q = s.Q := rfl
@[simp] theorem State.enter_L (st : Stage) : (s.enter st).L = s.L := rfl
@[simp] theorem State.enter_cyc (st : Stage) : (s.enter st).cyc = s.cyc := rfl
@[simp] theorem State.enter_nextId (st : Stage) : (s.enter st).nextId = s.nextId := rfl
@[simp] theorem State.enter_F (st : Stage) : (s.enter st).F = s.F := rfl
@[simp] theorem State.enter_out (st : Stage) : (s.enter st).out = s.out := rfl
@[simp] theorem State.enter_sub (st : Stage) : (s.enter st).sub = st := rfl
@[simp] theorem State.enter_host (st : Stage) : (s.enter st).host = s.host := rfl

@[simp] theorem State.clearOut_cfg : s.clearOut.cfg = s.cfg := rfl
@[simp] theorem State.clearOut_RF : s.clearOut.RF = s.RF := rfl
@[simp] theorem State.clearOut_DM : s.clearOut.DM = s.DM := rfl
@[simp] theorem State.clearOut_S : s.clearOut.S = s.S := rfl
@[simp] theorem State.clearOut_Q : s.clearOut.Q = s.Q := rfl
@[simp] theorem State.clearOut_L : s.clearOut.L = s.L := rfl
@[simp] theorem State.clearOut_cyc : s.clearOut.cyc = s.cyc := rfl
@[simp] theorem State.clearOut_nextId : s.clearOut.nextId = s.nextId := rfl
@[simp] theorem State.clearOut_F : s.clearOut.F = s.F := rfl
@[simp] theorem State.clearOut_out : s.clearOut.out = .idle := rfl
@[simp] theorem State.clearOut_sub : s.clearOut.sub = s.sub := rfl
@[simp] theorem State.clearOut_host : s.clearOut.host = s.host := rfl

@[simp] theorem State.respond_cfg (a : SubResp) : (s.respond a).cfg = s.cfg := rfl
@[simp] theorem State.respond_RF (a : SubResp) : (s.respond a).RF = s.RF := rfl
@[simp] theorem State.respond_DM (a : SubResp) : (s.respond a).DM = s.DM := rfl
@[simp] theorem State.respond_S (a : SubResp) : (s.respond a).S = s.S := rfl
@[simp] theorem State.respond_Q (a : SubResp) : (s.respond a).Q = s.Q := rfl
@[simp] theorem State.respond_L (a : SubResp) : (s.respond a).L = s.L := rfl
@[simp] theorem State.respond_cyc (a : SubResp) : (s.respond a).cyc = s.cyc := rfl
@[simp] theorem State.respond_nextId (a : SubResp) : (s.respond a).nextId = s.nextId := rfl
@[simp] theorem State.respond_F (a : SubResp) : (s.respond a).F = s.F := rfl
@[simp] theorem State.respond_out (a : SubResp) : (s.respond a).out = { s.out with subResp := a } := rfl
@[simp] theorem State.respond_sub (a : SubResp) : (s.respond a).sub = s.sub := rfl
@[simp] theorem State.respond_host (a : SubResp) : (s.respond a).host = s.host := rfl

@[simp] theorem State.exToMem_cfg : (s.exToMem r).cfg = s.cfg := rfl
@[simp] theorem State.exToMem_RF : (s.exToMem r).RF = s.RF := rfl
@[simp] theorem State.exToMem_DM : (s.exToMem r).DM = s.DM := rfl
@[simp] theorem State.exToMem_S : (s.exToMem r).S = { s.S with MEM := some r, EX := none } := rfl
@[simp] theorem State.exToMem_Q : (s.exToMem r).Q = s.Q := rfl
@[simp] theorem State.exToMem_L : (s.exToMem r).L = s.L := rfl
@[simp] theorem State.exToMem_cyc : (s.exToMem r).cyc = s.cyc := rfl
@[simp] theorem State.exToMem_nextId : (s.exToMem r).nextId = s.nextId := rfl
@[simp] theorem State.exToMem_F : (s.exToMem r).F = s.F := rfl
@[simp] theorem State.exToMem_out : (s.exToMem r).out = s.out := rfl
@[simp] theorem State.exToMem_sub : (s.exToMem r).sub = s.sub := rfl
@[simp] theorem State.exToMem_host : (s.exToMem r).host = s.host := rfl

@[simp] theorem State.memToWb_cfg : (s.memToWb r).cfg = s.cfg := rfl
@[simp] theorem State.memToWb_RF : (s.memToWb r).RF = s.RF := rfl
@[simp] theorem State.memToWb_DM : (s.memToWb r).DM = s.DM := rfl
@[simp] theorem State.memToWb_S : (s.memToWb r).S = { s.S with WB := some r, MEM := none } := rfl
@[simp] theorem State.memToWb_Q : (s.memToWb r).Q = s.Q := rfl
@[simp] theorem State.memToWb_L : (s.memToWb r).L = s.L := rfl
@[simp] theorem State.memToWb_cyc : (s.memToWb r).cyc = s.cyc := rfl
@[simp] theorem State.memToWb_nextId : (s.memToWb r).nextId = s.nextId := rfl
@[simp] theorem State.memToWb_F : (s.memToWb r).F = s.F := rfl
@[simp] theorem State.memToWb_out : (s.memToWb r).out = s.out := rfl
@[simp] theorem State.memToWb_sub : (s.memToWb r).sub = s.sub := rfl
@[simp] theorem State.memToWb_host : (s.memToWb r).host = s.host := rfl

@[simp] theorem State.retire_cfg : (s.retire r).cfg = s.cfg := rfl
@[simp] theorem State.retire_RF : (s.retire r).RF = s.RF := rfl
@[simp] theorem State.retire_DM : (s.retire r).DM = s.DM := rfl
@[simp] theorem State.retire_S : (s.retire r).S = { s.S with WB := none } := rfl
@[simp] theorem State.retire_Q : (s.retire r).Q = s.Q := rfl
@[simp] theorem State.retire_L : (s.retire r).L = s.L ++ [r] := rfl
@[simp] theorem State.retire_cyc : (s.retire r).cyc = s.cyc := rfl
@[simp] theorem State.retire_nextId : (s.retire r).nextId = s.nextId := rfl
@[simp] theorem State.retire_F : (s.retire r).F = s.F := rfl
@[simp] theorem State.retire_out : (s.retire r).out = { s.out with retired := some r.id } := rfl
@[simp] theorem State.retire_sub : (s.retire r).sub = s.sub := rfl
@[simp] theorem State.retire_host : (s.retire r).host = s.host := rfl

@[simp] theorem State.setDm_cfg : (s.setDm k v).cfg = s.cfg := rfl
@[simp] theorem State.setDm_RF : (s.setDm k v).RF = s.RF := rfl
@[simp] theorem State.setDm_DM : (s.setDm k v).DM = memSet s.cfg s.DM k v := rfl
@[simp] theorem State.setDm_S : (s.setDm k v).S = s.S := rfl
@[simp] theorem State.setDm_Q : (s.setDm k v).Q = s.Q := rfl
@[simp] theorem State.setDm_L : (s.setDm k v).L = s.L := rfl
@[simp] theorem State.setDm_cyc : (s.setDm k v).cyc = s.cyc := rfl
@[simp] theorem State.setDm_nextId : (s.setDm k v).nextId = s.nextId := rfl
@[simp] theorem State.setDm_F : (s.setDm k v).F = s.F := rfl
@[simp] theorem State.setDm_out : (s.setDm k v).out = s.out := rfl
@[simp] theorem State.setDm_sub : (s.setDm k v).sub = s.sub := rfl
@[simp] theorem State.setDm_host : (s.setDm k v).host = s.host := rfl

@[simp] theorem State.logFault_cfg (a : AccessKind) (j : Int) (n : Nat) : (s.logFault a j n).cfg = s.cfg := rfl
@[simp] theorem State.logFault_RF (a : AccessKind) (j : Int) (n : Nat) : (s.logFault a j n).RF = s.RF := rfl
@[simp] theorem State.logFault_DM (a : AccessKind) (j : Int) (n : Nat) : (s.logFault a j n).DM = s.DM := rfl
@[simp] theorem State.logFault_S (a : AccessKind) (j : Int) (n : Nat) : (s.logFault a j n).S = s.S := rfl
@[simp] theorem State.logFault_Q (a : AccessKind) (j : Int) (n : Nat) : (s.logFault a j n).Q = s.Q := rfl
@[simp] theorem State.logFault_L (a : AccessKind) (j : Int) (n : Nat) : (s.logFault a j n).L = s.L := rfl
@[simp] theorem State.logFault_cyc (a : AccessKind) (j : Int) (n : Nat) : (s.logFault a j n).cyc = s.cyc := rfl
@[simp] theorem State.logFault_nextId (a : AccessKind) (j : Int) (n : Nat) : (s.logFault a j n).nextId = s.nextId := rfl
@[simp] theorem State.logFault_F (a : AccessKind) (j : Int) (n : Nat) : (s.logFault a j n).F = s.F ++ [⟨s.cyc + 1, a, j, n⟩] := rfl
@[simp] theorem State.logFault_out (a : AccessKind) (j : Int) (n : Nat) : (s.logFault a j n).out = { s.out with fault := some (a, wrap s.cfg.xlen j) } := rfl
@[simp] theorem State.logFault_sub (a : AccessKind) (j : Int) (n : Nat) : (s.logFault a j n).sub = s.sub := rfl
@[simp] theorem State.logFault_host (a : AccessKind) (j : Int) (n : Nat) : (s.logFault a j n).host = s.host := rfl

@[simp] theorem count_cfg : (count s).cfg = s.cfg := rfl
@[simp] theorem count_RF : (count s).RF = s.RF := rfl
@[simp] theorem count_DM : (count s).DM = s.DM := rfl
@[simp] theorem count_S : (count s).S = s.S := rfl
@[simp] theorem count_Q : (count s).Q = s.Q := rfl
@[simp] theorem count_L : (count s).L = s.L := rfl
@[simp] theorem count_cyc : (count s).cyc = s.cyc + 1 := rfl
@[simp] theorem count_nextId : (count s).nextId = s.nextId := rfl
@[simp] theorem count_F : (count s).F = s.F := rfl
@[simp] theorem count_out : (count s).out = s.out := rfl
@[simp] theorem count_sub : (count s).sub = s.sub := rfl
@[simp] theorem count_host : (count s).host = s.host := rfl

@[simp] theorem State.setReg_cfg (q : Reg) : (s.setReg q v).cfg = s.cfg := rfl
@[simp] theorem State.setReg_RF (q : Reg) : (s.setReg q v).RF = regSet s.cfg.zero s.RF q v := rfl
@[simp] theorem State.setReg_DM (q : Reg) : (s.setReg q v).DM = s.DM := rfl
@[simp] theorem State.setReg_S (q : Reg) : (s.setReg q v).S = s.S := rfl
@[simp] theorem State.setReg_Q (q : Reg) : (s.setReg q v).Q = s.Q := rfl
@[simp] theorem State.setReg_L (q : Reg) : (s.setReg q v).L = s.L := rfl
@[simp] theorem State.setReg_cyc (q : Reg) : (s.setReg q v).cyc = s.cyc := rfl
@[simp] theorem State.setReg_nextId (q : Reg) : (s.setReg q v).nextId = s.nextId := rfl
@[simp] theorem State.setReg_F (q : Reg) : (s.setReg q v).F = s.F := rfl
@[simp] theorem State.setReg_out (q : Reg) : (s.setReg q v).out = s.out := rfl
@[simp] theorem State.setReg_sub (q : Reg) : (s.setReg q v).sub = s.sub := rfl
@[simp] theorem State.setReg_host (q : Reg) : (s.setReg q v).host = s.host := rfl

end RecordUpdates

section ConditionalUpdates

variable (s : State)

@[simp] theorem idToEx_cfg (h : Bool) : (idToEx h s).cfg = s.cfg := by
  unfold idToEx; repeat' split
  all_goals rfl
@[simp] theorem idToEx_RF (h : Bool) : (idToEx h s).RF = s.RF := by
  unfold idToEx; repeat' split
  all_goals rfl
@[simp] theorem idToEx_DM (h : Bool) : (idToEx h s).DM = s.DM := by
  unfold idToEx; repeat' split
  all_goals rfl
@[simp] theorem idToEx_Q (h : Bool) : (idToEx h s).Q = s.Q := by
  unfold idToEx; repeat' split
  all_goals rfl
@[simp] theorem idToEx_L (h : Bool) : (idToEx h s).L = s.L := by
  unfold idToEx; repeat' split
  all_goals rfl
@[simp] theorem idToEx_cyc (h : Bool) : (idToEx h s).cyc = s.cyc := by
  unfold idToEx; repeat' split
  all_goals rfl
@[simp] theorem idToEx_nextId (h : Bool) : (idToEx h s).nextId = s.nextId := by
  unfold idToEx; repeat' split
  all_goals rfl
@[simp] theorem idToEx_F (h : Bool) : (idToEx h s).F = s.F := by
  unfold idToEx; repeat' split
  all_goals rfl
@[simp] theorem idToEx_out (h : Bool) : (idToEx h s).out = s.out := by
  unfold idToEx; repeat' split
  all_goals rfl
@[simp] theorem idToEx_sub (h : Bool) : (idToEx h s).sub = s.sub := by
  unfold idToEx; repeat' split
  all_goals rfl
@[simp] theorem idToEx_host (h : Bool) : (idToEx h s).host = s.host := by
  unfold idToEx; repeat' split
  all_goals rfl

@[simp] theorem ifToId_cfg : (ifToId s).cfg = s.cfg := by
  unfold ifToId; repeat' split
  all_goals rfl
@[simp] theorem ifToId_RF : (ifToId s).RF = s.RF := by
  unfold ifToId; repeat' split
  all_goals rfl
@[simp] theorem ifToId_DM : (ifToId s).DM = s.DM := by
  unfold ifToId; repeat' split
  all_goals rfl
@[simp] theorem ifToId_Q : (ifToId s).Q = s.Q := by
  unfold ifToId; repeat' split
  all_goals rfl
@[simp] theorem ifToId_L : (ifToId s).L = s.L := by
  unfold ifToId; repeat' split
  all_goals rfl
@[simp] theorem ifToId_cyc : (ifToId s).cyc = s.cyc := by
  unfold ifToId; repeat' split
  all_goals rfl
@[simp] theorem ifToId_nextId : (ifToId s).nextId = s.nextId := by
  unfold ifToId; repeat' split
  all_goals rfl
@[simp] theorem ifToId_F : (ifToId s).F = s.F := by
  unfold ifToId; repeat' split
  all_goals rfl
@[simp] theorem ifToId_out : (ifToId s).out = s.out := by
  unfold ifToId; repeat' split
  all_goals rfl
@[simp] theorem ifToId_sub : (ifToId s).sub = s.sub := by
  unfold ifToId; repeat' split
  all_goals rfl
@[simp] theorem ifToId_host : (ifToId s).host = s.host := by
  unfold ifToId; repeat' split
  all_goals rfl

@[simp] theorem fetch_cfg : (fetch s).cfg = s.cfg := by
  unfold fetch; repeat' split
  all_goals rfl
@[simp] theorem fetch_RF : (fetch s).RF = s.RF := by
  unfold fetch; repeat' split
  all_goals rfl
@[simp] theorem fetch_DM : (fetch s).DM = s.DM := by
  unfold fetch; repeat' split
  all_goals rfl
@[simp] theorem fetch_L : (fetch s).L = s.L := by
  unfold fetch; repeat' split
  all_goals rfl
@[simp] theorem fetch_cyc : (fetch s).cyc = s.cyc := by
  unfold fetch; repeat' split
  all_goals rfl
@[simp] theorem fetch_nextId : (fetch s).nextId = s.nextId := by
  unfold fetch; repeat' split
  all_goals rfl
@[simp] theorem fetch_F : (fetch s).F = s.F := by
  unfold fetch; repeat' split
  all_goals rfl
@[simp] theorem fetch_out : (fetch s).out = s.out := by
  unfold fetch; repeat' split
  all_goals rfl
@[simp] theorem fetch_sub : (fetch s).sub = s.sub := by
  unfold fetch; repeat' split
  all_goals rfl
@[simp] theorem fetch_host : (fetch s).host = s.host := by
  unfold fetch; repeat' split
  all_goals rfl

end ConditionalUpdates

/-! ### The stage holders after the front-end sub-steps -/

theorem idToEx_empty (h : Bool) {s : State} (e : s.S.ID = none) : idToEx h s = s := by
  simp [idToEx, e]

theorem idToEx_stall {s : State} {r : Record} (e : s.S.ID = some r) :
    (idToEx true s).S = { s.S with ID := some { r with stall := true } } := by
  simp [idToEx, e]

theorem idToEx_move {s : State} {r : Record} (e : s.S.ID = some r) :
    (idToEx false s).S = { s.S with EX := some { r with stall := false }, ID := none } := by
  simp [idToEx, e]

theorem ifToId_empty {s : State} (e : s.S.IF = none) : ifToId s = s := by
  simp [ifToId, e]

theorem ifToId_move {s : State} {r : Record} (e : s.S.IF = some r) (h : s.S.idFree = true) :
    (ifToId s).S = { s.S with ID := some r, IF := none } := by
  simp [ifToId, e, h]

theorem ifToId_block {s : State} (h : s.S.idFree = false) : ifToId s = s := by
  unfold ifToId; split
  · rfl
  · simp [h]

theorem fetch_block {s : State} {r : Record} (e : s.S.IF = some r) : fetch s = s := by
  unfold fetch; split
  · simp_all
  · rfl

theorem fetch_dry {s : State} (e : s.Q = []) : fetch s = s := by
  unfold fetch; split
  · simp_all
  · rfl

theorem fetch_take {s : State} {r : Record} {q : List Record} (e : s.Q = r :: q) (h : s.S.IF = none) :
    fetch s = { s with S := { s.S with IF := some (Record.fresh r.id r.instr) }, Q := q } := by
  simp [fetch, e, h]

end Sys2Proof.Machine
end

