-- ==== Sys2Proof/Laws/Memory.lean ====
section
/-! SUPPORT. Sys2Proof/Laws/Memory.lean: the laws of the data memory (read after write, and that every operation keeps the
canonical form) and of the register file. -/

namespace Sys2Proof.Machine

/-! ### Cells -/

theorem lookup_cell (e : Cell) (m : List Cell) (j : Nat) :
    (e :: m).lookup j = if j = e.1 then some e.2 else m.lookup j := by
  by_cases h : j = e.1 <;> simp [List.lookup, h]
  simp [beq_false_of_ne h]

theorem lookup_cellsSet (k j : Nat) (v : Word) (m : List Cell) :
    (cellsSet k v m).lookup j = if j = k then some v else m.lookup j := by
  induction m with
  | nil => rw [cellsSet, lookup_cell]
  | cons e m ih =>
    unfold cellsSet
    split
    · simp only [lookup_cell]
    · split
      · simp only [lookup_cell]; grind
      · simp only [lookup_cell, ih]; grind

theorem lookup_cellsErase (k j : Nat) (m : List Cell) :
    (cellsErase k m).lookup j = if j = k then none else m.lookup j := by
  induction m with
  | nil => simp [cellsErase]
  | cons e m ih =>
    unfold cellsErase at ih ⊢
    by_cases h : e.1 = k
    all_goals simp only [List.filter_cons, lookup_cell]; grind

/-- Read after write, at every index. -/
theorem memGet_memSet (c : Config) (m : List Cell) (k j : Nat) (v : Word) :
    memGet c (memSet c m k v) j = if j = k then v else memGet c m j := by
  unfold memGet memSet
  split <;> rename_i h <;> simp only [lookup_cellsErase, lookup_cellsSet] <;> split <;> simp_all

theorem mem_cellsSet {k : Nat} {v : Word} {m : List Cell} {e : Cell} (h : e ∈ cellsSet k v m) :
    e = (k, v) ∨ e ∈ m := by
  induction m with
  | nil => simpa [cellsSet] using h
  | cons a m ih => unfold cellsSet at h; grind

theorem cellsSet_pairwise (k : Nat) (v : Word) {m : List Cell}
    (h : (m.map Prod.fst).Pairwise (· < ·)) : ((cellsSet k v m).map Prod.fst).Pairwise (· < ·) := by
  induction m with
  | nil => simp [cellsSet]
  | cons e m ih =>
    simp only [List.map_cons, List.pairwise_cons, List.mem_map, forall_exists_index, and_imp] at h
    unfold cellsSet
    split
    · simp only [List.map_cons, List.pairwise_cons, List.mem_cons, List.mem_map]; grind
    · split
      · simp only [List.map_cons, List.pairwise_cons, List.mem_map]; grind
      · simp only [List.map_cons, List.pairwise_cons, List.mem_map]
        refine ⟨?_, ih h.2⟩
        rintro a ⟨x, hx, rfl⟩
        rcases mem_cellsSet hx with rfl | hx
        · simp only; omega
        · exact h.1 _ x hx rfl

theorem wf_iff (c : Config) (m : List Cell) :
    Memory.wf c m = true ↔
      (m.map Prod.fst).Pairwise (· < ·) ∧ ∀ e ∈ m, e.1 < c.memWords ∧ e.2 ≠ c.resetWord e.1 := by
  simp [Memory.wf, List.all_eq_true]

/-- A write to an index of the memory keeps the canonical form. -/
theorem memSet_wf {c : Config} {m : List Cell} {k : Nat} (v : Word) (hk : k < c.memWords)
    (h : Memory.wf c m = true) : Memory.wf c (memSet c m k v) = true := by
  rw [wf_iff] at h ⊢
  unfold memSet
  split
  · unfold cellsErase
    refine ⟨List.Pairwise.sublist (List.Sublist.map _ List.filter_sublist) h.1, fun e he => ?_⟩
    exact h.2 e (List.mem_of_mem_filter he)
  · rename_i hv
    refine ⟨cellsSet_pairwise k v h.1, fun e he => ?_⟩
    rcases mem_cellsSet he with rfl | he
    · exact ⟨hk, hv⟩
    · exact h.2 e he

/-- The memory of RESET and of power-on is canonical. -/
theorem initial_wf (c : Config) : Memory.wf c (State.initial c).DM = true := rfl

theorem validIndex_iff (c : Config) (k : Int) : validIndex c k = true ↔ 0 ≤ k ∧ k < (c.memWords : Int) := by
  simp [validIndex]

theorem validIndex_toNat {c : Config} {k : Int} (h : validIndex c k = true) : k.toNat < c.memWords := by
  rw [validIndex_iff] at h; omega

/-! ### The access primitives, each said once -/

theorem memReadAt_valid {s : State} {k : Int} (id : Nat) (h : validIndex s.cfg k = true) :
    memReadAt s k id = (s.dm k.toNat, s) := by
  simp [memReadAt, h]

theorem memReadAt_invalid {s : State} {k : Int} (id : Nat) (h : validIndex s.cfg k = false) :
    memReadAt s k id = (0, s.logFault .read k id) := by
  simp [memReadAt, h]

theorem memWriteAt_valid {s : State} {k : Int} (v : Word) (id : Nat) (h : validIndex s.cfg k = true) :
    memWriteAt s k v id = s.setDm k.toNat v := by
  simp [memWriteAt, h]

theorem memWriteAt_invalid {s : State} {k : Int} (v : Word) (id : Nat) (h : validIndex s.cfg k = false) :
    memWriteAt s k v id = s.logFault .write k id := by
  simp [memWriteAt, h]

/-- An access of the MEM sub-step keeps the canonical form. -/
theorem memWriteAt_wf {s : State} (k : Int) (v : Word) (id : Nat) (h : Memory.wf s.cfg s.DM = true) :
    Memory.wf (memWriteAt s k v id).cfg (memWriteAt s k v id).DM = true := by
  by_cases hk : validIndex s.cfg k = true
  · rw [memWriteAt_valid v id hk]
    exact memSet_wf v (validIndex_toNat hk) h
  · rw [memWriteAt_invalid v id (by simpa using hk)]
    exact h

theorem dm_setDm (s : State) (k j : Nat) (v : Word) :
    (s.setDm k v).dm j = if j = k then v else s.dm j := memGet_memSet ..

/-! ### Register file -/

@[simp] theorem regGet_zero (z : Reg) (rf : List Word) : regGet z rf z = 0 := by simp [regGet]

@[simp] theorem regSet_zero (z : Reg) (rf : List Word) (v : Word) : regSet z rf z v = rf := by simp [regSet]

@[simp] theorem length_regSet (z : Reg) (rf : List Word) (r : Reg) (v : Word) : (regSet z rf r v).length = rf.length := by
  unfold regSet; split <;> simp

/-- Read after write, at every register of the machine. -/
theorem regGet_regSet {z r : Reg} {rf : List Word} (q : Reg) (v : Word) (h : r.val < rf.length) :
    regGet z (regSet z rf r v) q = if q = z then 0 else if q = r then v else regGet z rf q := by
  unfold regGet regSet
  by_cases hq : q = z
  · simp [hq]
  · by_cases hr : r = z
    · subst hr; simp [hq]
    · by_cases hqr : q = r
      · subst hqr; simp [hq, h]
      · have : r.val ≠ q.val := fun e => hqr (Fin.ext e.symm)
        simp [hq, hr, hqr, List.getD_eq_getElem?_getD, List.getElem?_set_ne this]

/-- A write leaves every other register alone, whether or not the register written exists. -/
theorem regGet_regSet_ne {z r q : Reg} (rf : List Word) (v : Word) (h : q ≠ r) :
    regGet z (regSet z rf r v) q = regGet z rf q := by
  have : r.val ≠ q.val := fun e => h (Fin.ext e.symm)
  unfold regGet regSet
  split <;> [rfl; split] <;> simp [List.getD_eq_getElem?_getD, List.getElem?_set_ne this]

@[simp] theorem reg_zero (s : State) : s.reg s.cfg.zero = 0 := regGet_zero ..

theorem reg_setReg {s : State} {r : Reg} (q : Reg) (v : Word) (h : r.val < s.RF.length) :
    (s.setReg r v).reg q = if q = s.cfg.zero then 0 else if q = r then v else s.reg q := regGet_regSet q v h

theorem reg_setReg_ne {r q : Reg} (s : State) (v : Word) (h : q ≠ r) : (s.setReg r v).reg q = s.reg q :=
  regGet_regSet_ne s.RF v h

theorem reg_of_RF {s t : State} (hc : t.cfg = s.cfg) (h : t.RF = s.RF) (r : Reg) : t.reg r = s.reg r := by
  simp [State.reg, hc, h]

end Sys2Proof.Machine
end

