-- ==== Sys2Proof/Laws/Word.lean ====
section
/-! SUPPORT. Sys2Proof/Laws/Word.lean: a word held by value is its bit vector (00_scope.md R11, R12): what `wrap` and the
arithmetic do to the bits, and that `wrap` is the identity on words and always gives one. `Word` and `Imm` are `Int` by
name: where `omega` finds no constraint, `simp only [Word, Imm] at *` first. -/

namespace Sys2Proof.Machine

theorem inWidth_iff {w : Nat} {v : Int} :
    inWidth w v = true ↔ -((2 ^ w : Nat) : Int) ≤ 2 * v ∧ 2 * v < ((2 ^ w : Nat) : Int) := by
  simp [inWidth]

theorem wrap_eq_bmod (n : Nat) (i : Int) : wrap n i = i.bmod (2 ^ n) := BitVec.toInt_ofInt i

/-- `wrap` gives a word. -/
theorem inWidth_wrap (n : Nat) (i : Int) : inWidth n (wrap n i) = true := by
  have h : 0 < 2 ^ n := Nat.two_pow_pos n
  rw [inWidth_iff, wrap_eq_bmod]
  constructor
  · have := Int.le_bmod (x := i) h; omega
  · have := Int.bmod_lt (x := i) h; omega

/-- A word is unchanged by `wrap`. -/
theorem wrap_of_inWidth {n : Nat} {v : Int} (h : inWidth n v = true) : wrap n v = v := by
  rw [inWidth_iff] at h
  rw [wrap_eq_bmod]
  exact Int.bmod_eq_of_le (by omega) (by omega)

/-- A value of fewer bits is a word: an immediate, since `IMM_W <= XLEN` (R10). -/
theorem inWidth_mono {m n : Nat} {v : Int} (hmn : m ≤ n) (h : inWidth m v = true) : inWidth n v = true := by
  rw [inWidth_iff] at h ⊢
  have : 2 ^ m ≤ 2 ^ n := Nat.pow_le_pow_right (by decide) hmn
  omega

/-- Each bit vector's value is a word. -/
theorem inWidth_toInt {n : Nat} (b : BitVec n) : inWidth n b.toInt = true := by
  rw [← BitVec.ofInt_toInt (x := b)]
  exact inWidth_wrap n b.toInt

theorem ofInt_wrap (n : Nat) (i : Int) : BitVec.ofInt n (wrap n i) = BitVec.ofInt n i := BitVec.ofInt_toInt

@[simp] theorem wrap_wrap (n : Nat) (i : Int) : wrap n (wrap n i) = wrap n i := by simp [wrap]

/-- An intermediate `wrap` of a summand does not show in a wrapped sum or difference. -/
@[simp] theorem wrap_wrap_add (n : Nat) (a b : Int) : wrap n (wrap n a + b) = wrap n (a + b) := by
  simp [wrap_eq_bmod]

@[simp] theorem wrap_add_wrap (n : Nat) (a b : Int) : wrap n (a + wrap n b) = wrap n (a + b) := by
  simp [wrap_eq_bmod]

@[simp] theorem wrap_wrap_sub (n : Nat) (a b : Int) : wrap n (wrap n a - b) = wrap n (a - b) := by
  simp [wrap_eq_bmod]

@[simp] theorem wrap_sub_wrap (n : Nat) (a b : Int) : wrap n (a - wrap n b) = wrap n (a - b) := by
  simp [wrap_eq_bmod]

/-- `wrap` forgets multiples of `2^XLEN` (00_scope.md R12). -/
theorem wrap_add_pow (n : Nat) (i : Int) : wrap n (i + (2 ^ n : Nat)) = wrap n i := by
  rw [wrap_eq_bmod, wrap_eq_bmod]; exact Int.add_bmod_right ..

theorem wrap_sub_pow (n : Nat) (i : Int) : wrap n (i - (2 ^ n : Nat)) = wrap n i := by
  rw [wrap_eq_bmod, wrap_eq_bmod]; exact Int.sub_bmod_right ..

/-- An immediate extends to the word of the same value. -/
theorem sext_of_inWidth {m n : Nat} {imm : Int} (hmn : m ≤ n) (h : inWidth m imm = true) : sext n imm = imm :=
  wrap_of_inWidth (inWidth_mono hmn h)

theorem inWidth_aluAdd (n : Nat) (a b : Int) : inWidth n (aluAdd n a b) = true := inWidth_wrap ..

theorem inWidth_aluSub (n : Nat) (a b : Int) : inWidth n (aluSub n a b) = true := inWidth_wrap ..

theorem inWidth_effectiveAddress (n : Nat) (a imm : Int) : inWidth n (effectiveAddress n a imm) = true :=
  inWidth_wrap ..

theorem inWidth_zero (n : Nat) : inWidth n 0 = true := by
  rw [inWidth_iff]
  have : 0 < 2 ^ n := Nat.two_pow_pos n
  omega

end Sys2Proof.Machine
end

