-- ==== Sys2Proof/Laws/Forwarding.lean ====
section
/-! SUPPORT. Sys2Proof/Laws/Forwarding.lean: the forwarding and hazard units, said once. -/

namespace Sys2Proof.Machine

@[simp] theorem candidate_literal (st c : Stage) : candidate .literal st c = true := rfl

theorem candidate_olderOnly (st c : Stage) : candidate .olderOnly st c = decide (c.rank < st.rank) := rfl

theorem usable_iff {st : Stage} {p : Record} {r : Reg} :
    usable st p r = true ↔ p.instr.rd? = some r ∧ ¬(p.instr.isLw = true ∧ st = .EX) := by
  simp only [usable, Bool.and_eq_true, decide_eq_true_eq, Bool.not_eq_true', Bool.and_eq_false_iff, decide_eq_false_iff_not]
  grind

theorem producerAt_eq_some {s : State} {r : Reg} {c st : Stage} {x : Stage × Record} :
    producerAt s r c st = some x ↔
      ∃ p, s.S.get st = some p ∧ candidate s.cfg.fwdScope st c = true ∧ usable st p r = true ∧ x = (st, p) := by
  unfold producerAt
  cases h : s.S.get st with
  | none => simp
  | some p => by_cases hu : (candidate s.cfg.fwdScope st c && usable st p r) = true <;> simp_all <;> grind

theorem producerAt_empty {s : State} {r : Reg} {c st : Stage} (h : s.S.get st = none) :
    producerAt s r c st = none := by
  simp [producerAt, h]

/-- The search order EX, MEM, WB. -/
theorem producer_eq (s : State) (r : Reg) (c : Stage) :
    producer s r c = ((producerAt s r c .EX).or ((producerAt s r c .MEM).or (producerAt s r c .WB))) := by
  unfold producer
  simp only [List.findSome?_cons, List.findSome?_nil]
  cases producerAt s r c .EX <;> cases producerAt s r c .MEM <;> cases producerAt s r c .WB <;> rfl

@[simp] theorem resolveWithin_zero (n : Nat) (s : State) (c : Stage) : resolveWithin n s s.cfg.zero c = 0 := by
  cases n <;> simp [resolveWithin]

/-- Without a producer the committed value is the answer, at every depth. -/
theorem resolveWithin_committed {s : State} {r : Reg} {c : Stage} (n : Nat) (h : producer s r c = none) :
    resolveWithin n s r c = s.reg r := by
  by_cases hr : r = s.cfg.zero
  · subst hr; simp
  · cases n <;> simp [resolveWithin, hr, h]

/-! ### Everything the unit gives is a word -/

theorem inWidth_reg {s : State} (h : s.RF.all (inWidth s.cfg.xlen) = true) (r : Reg) :
    inWidth s.cfg.xlen (s.reg r) = true := by
  unfold State.reg regGet
  split
  · exact inWidth_zero _
  · rw [List.getD_eq_getElem?_getD]
    cases hv : s.RF[r.val]? with
    | none => exact inWidth_zero _
    | some v => exact List.all_eq_true.mp h v (List.mem_of_getElem? hv)

theorem inWidth_memGet {c : Config} {m : List Cell} (hr : c.resetMem.all (inWidth c.xlen) = true)
    (h : ∀ e ∈ m, inWidth c.xlen e.2 = true) (k : Nat) : inWidth c.xlen (memGet c m k) = true := by
  unfold memGet Config.resetWord
  cases hl : m.lookup k with
  | none =>
    rw [Option.getD_none, List.getD_eq_getElem?_getD]
    cases hv : c.resetMem[k]? with
    | none => exact inWidth_zero _
    | some v => exact List.all_eq_true.mp hr v (List.mem_of_getElem? hv)
  | some v =>
    obtain ⟨e, he, rfl⟩ : ∃ e ∈ m, e.2 = v := by
      clear h
      induction m with
      | nil => cases hl
      | cons a m ih =>
        rw [lookup_cell] at hl
        split at hl
        · exact ⟨a, by simp, by simpa using hl⟩
        · obtain ⟨e, he, hv⟩ := ih hl; exact ⟨e, List.mem_cons_of_mem _ he, hv⟩
    exact h e he

theorem inWidth_peek {s : State} (hr : s.cfg.resetMem.all (inWidth s.cfg.xlen) = true)
    (h : ∀ e ∈ s.DM, inWidth s.cfg.xlen e.2 = true) (k : Option Int) : inWidth s.cfg.xlen (peek s k) = true := by
  unfold peek
  split
  · split
    · exact inWidth_memGet hr h _
    · exact inWidth_zero _
  · exact inWidth_zero _

/-- `resolve` gives a word, in any state whose registers, memory words and cached results are words. -/
theorem inWidth_resolveWithin {s : State} (hr : s.cfg.resetMem.all (inWidth s.cfg.xlen) = true)
    (hf : s.RF.all (inWidth s.cfg.xlen) = true) (hm : ∀ e ∈ s.DM, inWidth s.cfg.xlen e.2 = true)
    (hp : ∀ st p v, s.S.get st = some p → p.result = some v → inWidth s.cfg.xlen v = true) (n : Nat) (r : Reg) (c : Stage) :
    inWidth s.cfg.xlen (resolveWithin n s r c) = true := by
  cases n with
  | zero =>
    unfold resolveWithin
    split
    · exact inWidth_zero _
    · exact inWidth_reg hf r
  | succ n =>
    unfold resolveWithin
    split
    · exact inWidth_zero _
    · cases hpr : producer s r c with
      | none => exact inWidth_reg hf r
      | some x =>
        obtain ⟨st, p⟩ := x
        obtain ⟨st', -, hst⟩ := List.exists_of_findSome?_eq_some hpr
        obtain ⟨q, hq, -, -, e⟩ := producerAt_eq_some.mp hst
        cases e
        cases hv : p.result with
        | some v => simpa [hv] using hp _ _ _ hq hv
        | none =>
          cases hi : p.instr <;> simp only [hv, hi]
          case add | addi => exact inWidth_aluAdd ..
          case sub => exact inWidth_aluSub ..
          case lw => exact inWidth_peek hr hm _
          case sw => exact inWidth_reg hf r

/-- Whether the loads the hazard unit looks for are there: only an LW in the EX-stage record causes a hazard. -/
theorem detect_true {id x : Option Record} (h : detect id x = true) :
    ∃ i l, id = some i ∧ x = some l ∧ l.instr.isLw = true := by
  unfold detect at h
  split at h
  · rename_i i l
    refine ⟨i, l, rfl, rfl, ?_⟩
    split at h
    · rename_i hl; simp [hl, Instr.isLw]
    · cases h
  · cases h

@[simp] theorem detect_none_left (x : Option Record) : detect none x = false := rfl

@[simp] theorem detect_none_right (id : Option Record) : detect id none = false := by
  cases id <;> rfl

end Sys2Proof.Machine
end

