-- ==== Sys2Proof/Laws/PerInstr.lean ====
section
/-! SUPPORT. Sys2Proof/Laws/PerInstr.lean: a law of every instruction as syntax, one lemma per constructor: its encoded word
has the fixed bits its row of 30_encoding.md R79 (and spec/opcode_table.json) gives it. -/

namespace Sys2Proof

/-- The `mask` column of R79. -/
def rowMask : Instr → BitVec 32
  | .add _ _ _ => 0xFE00707F#32
  | .sub _ _ _ => 0xFE00707F#32
  | .addi _ _ _ => 0x0000707F#32
  | .lw _ _ _ => 0x0000707F#32
  | .sw _ _ _ => 0x0000707F#32

/-- The `match` column of R79. -/
def rowMatch : Instr → BitVec 32
  | .add _ _ _ => 0x00000033#32
  | .sub _ _ _ => 0x40000033#32
  | .addi _ _ _ => 0x00000013#32
  | .lw _ _ _ => 0x00002003#32
  | .sw _ _ _ => 0x00002023#32

/-- The encoded word shows its row's fixed bits. -/
def Laws.FixedBits.Statement (i : Instr) : Prop := encode i &&& rowMask i = rowMatch i

theorem Laws.FixedBits.add (rd rs1 rs2 : Reg) : Laws.FixedBits.Statement (.add rd rs1 rs2) := by
  apply BitVec.eq_of_getLsbD_eq
  intro j hj
  rw [BitVec.getLsbD_and, encode, formatR_bit]
  interval_cases j <;> simp [rowMask, rowMatch]

theorem Laws.FixedBits.sub (rd rs1 rs2 : Reg) : Laws.FixedBits.Statement (.sub rd rs1 rs2) := by
  apply BitVec.eq_of_getLsbD_eq
  intro j hj
  rw [BitVec.getLsbD_and, encode, formatR_bit]
  interval_cases j <;> simp [rowMask, rowMatch]

theorem Laws.FixedBits.addi (rd rs1 : Reg) (imm : Imm) : Laws.FixedBits.Statement (.addi rd rs1 imm) := by
  apply BitVec.eq_of_getLsbD_eq
  intro j hj
  rw [BitVec.getLsbD_and, encode, formatI_bit]
  interval_cases j <;> simp [rowMask, rowMatch]

theorem Laws.FixedBits.lw (rd rs1 : Reg) (imm : Imm) : Laws.FixedBits.Statement (.lw rd rs1 imm) := by
  apply BitVec.eq_of_getLsbD_eq
  intro j hj
  rw [BitVec.getLsbD_and, encode, formatI_bit]
  interval_cases j <;> simp [rowMask, rowMatch]

theorem Laws.FixedBits.sw (rs2 rs1 : Reg) (imm : Imm) : Laws.FixedBits.Statement (.sw rs2 rs1 imm) := by
  apply BitVec.eq_of_getLsbD_eq
  intro j hj
  rw [BitVec.getLsbD_and, encode, formatS_bit]
  interval_cases j <;> simp [rowMask, rowMatch]

end Sys2Proof
end

