-- ==== Sys2Proof/Laws/Step.lean ====
section
/-! SUPPORT. Sys2Proof/Laws/Step.lean: what each sub-step and each command can do, said once, for later proofs to cite
instead of unfolding the definitions. -/

namespace Sys2Proof.Machine

/-! ### Sequencing -/

@[simp] theorem andThen_next (s : State) (f : State → Result) : andThen (.next s) f = f s := rfl

theorem andThen_eq_next {o : Result} {f : State → Result} {t : State} :
    andThen o f = .next t ↔ ∃ s, o = .next s ∧ f s = .next t := by
  cases o <;> simp [andThen]

/-- A next state is there when the projection finds one. -/
theorem exists_next {o : Result} (h : (next? o).isSome = true) : ∃ t, o = .next t := by
  cases o with
  | next t => exact ⟨t, rfl⟩
  | fault r => simp [next?] at h
  | refused r => simp [next?] at h

@[simp] theorem iterate_zero (f : State → Result) (s : State) : iterate f 0 s = .next s := rfl

theorem iterate_succ (f : State → Result) (n : Nat) (s : State) :
    iterate f (n + 1) s = andThen (f s) (iterate f n) := rfl

theorem iterate_add (f : State → Result) (m n : Nat) (s : State) :
    iterate f (m + n) s = andThen (iterate f m s) (iterate f n) := by
  induction m generalizing s with
  | zero => simp
  | succ m ih =>
    rw [Nat.add_right_comm, iterate_succ, iterate_succ]
    cases f s <;> simp [andThen, ih]

/-! ### The part of an instruction in each sub-step -/

/-- WB of any instruction: an SW only retires; the others commit their `rd`. -/
theorem exec_at_WB {s : State} {r : Record} (i : Instr) (e : s.S.WB = some r) :
    exec i (s.enter .WB) =
      match i.rd? with
      | none => wbPlain r (s.enter .WB)
      | some rd => wbCommit rd r (s.enter .WB) := by
  cases i <;>
    simp [exec, execAdd, execSub, execAddi, execLw, execSw, bySubStep, Instr.rd?, e]

/-- MEM of any instruction: an LW reads, an SW writes, the others pass. -/
theorem exec_at_MEM {s : State} {r : Record} (i : Instr) (e : s.S.MEM = some r) :
    exec i (s.enter .MEM) =
      match i with
      | .lw _ _ _ => memLoad r (s.enter .MEM)
      | .sw rs2 _ _ => memStore (resolve (s.enter .MEM) rs2 .MEM 0) r (s.enter .MEM)
      | _ => memPass r (s.enter .MEM) := by
  cases i <;>
    simp [exec, execAdd, execSub, execAddi, execLw, execSw, bySubStep, e]

/-- EX of any instruction: LW and SW compute their address, the others their result. -/
theorem exec_at_EX {s : State} {r : Record} (i : Instr) (e : s.S.EX = some r) :
    exec i (s.enter .EX) =
      match i with
      | .add _ a b => exResult (aluAdd s.cfg.xlen (resolve (s.enter .EX) a .EX 0) (resolve (s.enter .EX) b .EX 0)) r (s.enter .EX)
      | .sub _ a b => exResult (aluSub s.cfg.xlen (resolve (s.enter .EX) a .EX 0) (resolve (s.enter .EX) b .EX 0)) r (s.enter .EX)
      | .addi _ a imm => exResult (aluAdd s.cfg.xlen (resolve (s.enter .EX) a .EX 0) (sext s.cfg.xlen imm)) r (s.enter .EX)
      | .lw _ a imm => exAddress (effectiveAddress s.cfg.xlen (resolve (s.enter .EX) a .EX 0) imm) r (s.enter .EX)
      | .sw _ a imm => exAddress (effectiveAddress s.cfg.xlen (resolve (s.enter .EX) a .EX 0) imm) r (s.enter .EX) := by
  cases i <;>
    simp [exec, execAdd, execSub, execAddi, execLw, execSw, bySubStep, e]

theorem wbCommit_zero (r : Record) (s : State) : wbCommit s.cfg.zero r s = .next (s.retire r) := by
  simp [wbCommit]

theorem wbCommit_value {rd : Reg} {r : Record} {v : Word} {s : State} (h : rd ≠ s.cfg.zero) (e : r.result = some v) :
    wbCommit rd r s = .next ((s.retire r).setReg rd v) := by
  simp [wbCommit, h, e]

/-- When the WB sub-step of a record with a destination goes on, it retires the record and writes `rd` unless it is
`ZERO`. -/
theorem wbCommit_next {rd : Reg} {r : Record} {s t : State} (h : wbCommit rd r s = .next t) :
    (rd = s.cfg.zero ∧ t = s.retire r) ∨ (rd ≠ s.cfg.zero ∧ ∃ v, r.result = some v ∧ t = (s.retire r).setReg rd v) := by
  unfold wbCommit at h
  split at h
  · rename_i hz; exact .inl ⟨hz, by simpa using h.symm⟩
  · rename_i hz
    split at h
    · rename_i v hv; exact .inr ⟨hz, v, hv, by simpa using h.symm⟩
    · cases h

theorem memLoad_next {r : Record} {s t : State} (h : memLoad r s = .next t) :
    ∃ k, r.idx = some k ∧ t = (memReadAt s k r.id).2.memToWb { r with result := some (memReadAt s k r.id).1 } := by
  unfold memLoad at h
  split at h
  · cases h
  · rename_i k hk; exact ⟨k, hk, by simpa using h.symm⟩

theorem memStore_next {v : Word} {r : Record} {s t : State} (h : memStore v r s = .next t) :
    ∃ k, r.idx = some k ∧ t = (memWriteAt s k v r.id).memToWb r := by
  unfold memStore at h
  split at h
  · cases h
  · rename_i k hk; exact ⟨k, hk, by simpa using h.symm⟩

/-! ### The stage sub-steps -/

theorem stageSubStep_empty {st : Stage} {s : State} (e : s.S.get st = none) :
    stageSubStep st s = .next (s.enter st) := by
  simp [stageSubStep, e]

theorem stageSubStep_occupied {st : Stage} {s : State} {r : Record} (e : s.S.get st = some r) :
    stageSubStep st s = exec r.instr (s.enter st) := by
  simp [stageSubStep, e]

/-- The WB sub-step: nothing, or the retirement of the occupant with at most one register written. -/
theorem stageSubStep_WB_next {s t : State} (h : stageSubStep .WB s = .next t) :
    (s.S.WB = none ∧ t = s.enter .WB) ∨
    (∃ r, s.S.WB = some r ∧ t = (s.enter .WB).retire r ∧ ∀ rd, r.instr.rd? = some rd → rd = s.cfg.zero) ∨
    (∃ r rd v, s.S.WB = some r ∧ r.instr.rd? = some rd ∧ rd ≠ s.cfg.zero ∧ r.result = some v ∧
      t = ((s.enter .WB).retire r).setReg rd v) := by
  cases e : s.S.WB with
  | none => rw [stageSubStep_empty (by simpa [Stages.get] using e)] at h; exact .inl ⟨rfl, by simpa using h.symm⟩
  | some r =>
    rw [stageSubStep_occupied (by simpa [Stages.get] using e), exec_at_WB _ e] at h
    cases hd : r.instr.rd? with
    | none =>
      simp only [hd, wbPlain] at h
      exact .inr (.inl ⟨r, rfl, by simpa using h.symm, by simp [hd]⟩)
    | some rd =>
      simp only [hd] at h
      rcases wbCommit_next h with ⟨rfl, rfl⟩ | ⟨hz, v, hv, rfl⟩
      · exact .inr (.inl ⟨r, rfl, rfl, by simp [hd]⟩)
      · exact .inr (.inr ⟨r, rd, v, rfl, hd, hz, hv, rfl⟩)

/-- The MEM sub-step: nothing, a pass, a read or a write. -/
theorem stageSubStep_MEM_next {s t : State} (h : stageSubStep .MEM s = .next t) :
    (s.S.MEM = none ∧ t = s.enter .MEM) ∨
    (∃ r, s.S.MEM = some r ∧ r.instr.isAlu = true ∧ t = (s.enter .MEM).memToWb r) ∨
    (∃ r k, s.S.MEM = some r ∧ r.instr.isLw = true ∧ r.idx = some k ∧
      t = (memReadAt (s.enter .MEM) k r.id).2.memToWb
        { r with result := some (memReadAt (s.enter .MEM) k r.id).1 }) ∨
    (∃ r rs2 rs1 imm k, s.S.MEM = some r ∧ r.instr = .sw rs2 rs1 imm ∧ r.idx = some k ∧
      t = (memWriteAt (s.enter .MEM) k (resolve (s.enter .MEM) rs2 .MEM 0) r.id).memToWb r) := by
  cases e : s.S.MEM with
  | none => rw [stageSubStep_empty (by simpa [Stages.get] using e)] at h; exact .inl ⟨rfl, by simpa using h.symm⟩
  | some r =>
    rw [stageSubStep_occupied (by simpa [Stages.get] using e), exec_at_MEM _ e] at h
    cases hi : r.instr with
    | lw rd rs1 imm =>
      simp only [hi] at h
      obtain ⟨k, hk, rfl⟩ := memLoad_next h
      exact .inr (.inr (.inl ⟨r, k, rfl, by simp [hi, Instr.isLw], hk, rfl⟩))
    | sw rs2 rs1 imm =>
      simp only [hi] at h
      obtain ⟨k, hk, rfl⟩ := memStore_next h
      exact .inr (.inr (.inr ⟨r, rs2, rs1, imm, k, rfl, hi, hk, rfl⟩))
    | _ =>
      simp only [hi, memPass] at h
      exact .inr (.inl ⟨r, rfl, by simp [hi, Instr.isAlu], by simpa using h.symm⟩)

/-- The EX sub-step: nothing, or the occupant with its result or its address moved to MEM. -/
theorem stageSubStep_EX_next {s t : State} (h : stageSubStep .EX s = .next t) :
    (s.S.EX = none ∧ t = s.enter .EX) ∨
    (∃ r v, s.S.EX = some r ∧ r.instr.isAlu = true ∧ t = (s.enter .EX).exToMem { r with result := some v }) ∨
    (∃ r ea, s.S.EX = some r ∧ r.instr.isAlu = false ∧
      t = (s.enter .EX).exToMem { r with ea := some ea, idx := some (wordIndex ea) }) := by
  cases e : s.S.EX with
  | none => rw [stageSubStep_empty (by simpa [Stages.get] using e)] at h; exact .inl ⟨rfl, by simpa using h.symm⟩
  | some r =>
    rw [stageSubStep_occupied (by simpa [Stages.get] using e), exec_at_EX _ e] at h
    obtain ⟨id, i, stall, result, ea, idx⟩ := r
    cases i <;> simp only [exResult, exAddress] at h
    case lw | sw => exact .inr (.inr ⟨_, _, rfl, rfl, by simpa using h.symm⟩)
    all_goals exact .inr (.inl ⟨_, _, rfl, rfl, by simpa using h.symm⟩)

/-- The EX sub-step always goes on. -/
theorem stageSubStep_EX_total (s : State) : ∃ t, stageSubStep .EX s = .next t := by
  cases e : s.S.EX with
  | none => exact ⟨_, stageSubStep_empty (by simpa [Stages.get] using e)⟩
  | some r =>
    rw [stageSubStep_occupied (by simpa [Stages.get] using e), exec_at_EX _ e]
    cases r.instr <;> exact ⟨_, rfl⟩

/-! ### STEP and the port -/

section Advance

variable (x : Option Record) (s : State)

@[simp] theorem advance_cfg : (advance x s).cfg = s.cfg := by simp [advance]
@[simp] theorem advance_RF : (advance x s).RF = s.RF := by simp [advance]
@[simp] theorem advance_DM : (advance x s).DM = s.DM := by simp [advance]
@[simp] theorem advance_L : (advance x s).L = s.L := by simp [advance]
@[simp] theorem advance_cyc : (advance x s).cyc = s.cyc + 1 := by simp [advance]
@[simp] theorem advance_nextId : (advance x s).nextId = s.nextId := by simp [advance]
@[simp] theorem advance_F : (advance x s).F = s.F := by simp [advance]
@[simp] theorem advance_out : (advance x s).out = s.out := by simp [advance]
@[simp] theorem advance_sub : (advance x s).sub = .IF := by simp [advance]
@[simp] theorem advance_host : (advance x s).host = s.host := by simp [advance]

end Advance

/-- A STEP that goes on is the three stage sub-steps and then the front end. -/
theorem clock_eq_next {s t : State} :
    clock s = .next t ↔ ∃ s1 s2 s3, stageSubStep .WB s.clearOut = .next s1 ∧ stageSubStep .MEM s1 = .next s2 ∧
      stageSubStep .EX s2 = .next s3 ∧ t = advance s.S.EX s3 := by
  simp only [clock, andThen_eq_next]
  grind

theorem step_idle {s : State} (h : s.host = []) : step s = clock s := by
  simp [step, edge, command, h]

theorem step_command {s : State} {c : Command} {cs : List Command} (h : s.host = c :: cs) :
    step s = command c { s with host := cs } := by
  simp [step, edge, h]

/-- SUBMIT does one of three things. -/
theorem submit_cases (w : BitVec 32) (s : State) :
    submit w s = s.respond .malformed ∨
    submit w s = s.respond .queueFull ∨
    (∃ i, decode s.cfg.nreg s.cfg.immW w = .ok i ∧ s.queueFull = false ∧
      submit w s = { s.respond .accepted with Q := s.Q ++ [Record.fresh s.nextId i], nextId := s.nextId + 1 }) := by
  unfold submit
  split
  · exact .inl rfl
  · rename_i i hi
    split
    · exact .inr (.inl rfl)
    · rename_i hq; exact .inr (.inr ⟨i, hi, by simpa using hq, rfl⟩)

end Sys2Proof.Machine
end

