-- ==== Sys2Proof/Machine/Assembler.lean ====
section
/-! DEFINITION. Sys2Proof/Machine/Assembler.lean: the assembler syntax of an instruction (30_encoding.md R83). Nothing in the
machine reads it. -/

namespace Sys2Proof.Machine

/-- A register as `x` followed by a decimal number. -/
def regName (r : Reg) : String := "x" ++ toString r.val

/-- An immediate or offset as a signed decimal number. -/
def immText (imm : Imm) : String := toString imm

/-- The mnemonic in capitals, one space, the operands separated by commas with no spaces, a memory operand as
`offset(base)`; SW names its data register first. -/
def asm : Instr → String
  | .add rd rs1 rs2 => "ADD " ++ regName rd ++ "," ++ regName rs1 ++ "," ++ regName rs2
  | .sub rd rs1 rs2 => "SUB " ++ regName rd ++ "," ++ regName rs1 ++ "," ++ regName rs2
  | .addi rd rs1 imm => "ADDI " ++ regName rd ++ "," ++ regName rs1 ++ "," ++ immText imm
  | .lw rd rs1 imm => "LW " ++ regName rd ++ "," ++ immText imm ++ "(" ++ regName rs1 ++ ")"
  | .sw rs2 rs1 imm => "SW " ++ regName rs2 ++ "," ++ immText imm ++ "(" ++ regName rs1 ++ ")"

end Sys2Proof.Machine
end

