-- ==== Sys2Proof/Tests/Slice0.lean ====
section
/-! SUPPORT. Sys2Proof/Tests/Slice0.lean: the model's own tests, expected values from spec/95_test_vectors.md or by hand from
the rules named, and a witness for the hypotheses of every statement that has some. -/

namespace Sys2Proof.Tests

open Sys2Proof.Machine

/-! ### WellFormed smoke: an ill-formed term for each check (R71, R76) -/

theorem test_wf_refuses_rd : Instr.wellFormed 8 12 (.add 8 0 0) = false := by decide
theorem test_wf_refuses_rs1 : Instr.wellFormed 8 12 (.lw 0 8 0) = false := by decide
theorem test_wf_refuses_rs2 : Instr.wellFormed 8 12 (.sub 0 0 31) = false := by decide
theorem test_wf_refuses_store_data : Instr.wellFormed 8 12 (.sw 9 0 0) = false := by decide
theorem test_wf_refuses_immediate : Instr.wellFormed 8 12 (.addi 0 0 2048) = false ∧
    Instr.wellFormed 8 12 (.sw 0 0 (-2049)) = false := by decide
theorem test_wf_takes_the_last_register : Instr.wellFormed 8 12 (.addi 7 7 (-1)) = true := by decide

/-! ### Decoding: words written bit by bit from R73 to R75 and R79 -/

/-- `funct7 rs2 rs1 funct3 rd opcode` of `ADD x10,x5,x6` (V-ENC-8). -/
theorem test_decode_add :
    decode 32 12 (0b0000000#7 ++ 0b00110#5 ++ 0b00101#5 ++ 0b000#3 ++ 0b01010#5 ++ 0b0110011#7) = .ok (.add 10 5 6) := by
  decide
/-- `SUB x4,x3,x1` (P1). -/
theorem test_decode_sub :
    decode 32 12 (0b0100000#7 ++ 0b00001#5 ++ 0b00011#5 ++ 0b000#3 ++ 0b00100#5 ++ 0b0110011#7) = .ok (.sub 4 3 1) := by
  decide
/-- `ADDI x6,x5,-2048` (P2). -/
theorem test_decode_addi :
    decode 32 12 (0b100000000000#12 ++ 0b00101#5 ++ 0b000#3 ++ 0b00110#5 ++ 0b0010011#7) = .ok (.addi 6 5 (-2048)) := by
  decide
/-- `LW x31,-1(x1)` (V-ENC-5). -/
theorem test_decode_lw :
    decode 32 12 (0b111111111111#12 ++ 0b00001#5 ++ 0b010#3 ++ 0b11111#5 ++ 0b0000011#7) = .ok (.lw 31 1 (-1)) := by
  decide
/-- `SW x4,-4(x3)` (P2): imm[11:5] = 1111111, imm[4:0] = 11100. -/
theorem test_decode_sw :
    decode 32 12 (0b1111111#7 ++ 0b00100#5 ++ 0b00011#5 ++ 0b010#3 ++ 0b11100#5 ++ 0b0100011#7) = .ok (.sw 4 3 (-4)) := by
  decide
/-- V-ENC-9 to V-ENC-12: words outside the five patterns. -/
theorem test_decode_illegal :
    ([0x00000000, 0xFFFFFFFF, 0x00000073, 0x00100073, 0x0000000F, 0x00001033, 0x02000033, 0x20000033, 0x40002033,
      0x00002013, 0x00003003, 0x00004003, 0x00001023].map (decodeTableWord 32)).all Option.isNone = true := by decide
/-- R76: a register at `NREG` makes the word illegal. -/
theorem test_decode_no_such_register : decode 10 12 0x00628533#32 = .error .noSuchRegister := by decide
/-- R71: an immediate outside the `IMM_W`-bit range makes the word illegal; `ADDI x7,x5,10` fits 5 bits and not 4. -/
theorem test_decode_immediate_range : decode 32 4 0x00A28393#32 = .error .immediateRange ∧
    decode 32 5 0x00A28393#32 = .ok (.addi 7 5 10) := by decide
/-- The words of R232. -/
theorem test_encode_default_program :
    defaultProgram.map encode = [0x00628533#32, 0x00012183#32, 0x40118233#32, 0x00412223#32, 0x00A28393#32] := by decide

/-- The source's examples, R83. -/
theorem test_asm : defaultProgram.map asm = ["ADD x10,x5,x6", "LW x3,0(x2)", "SUB x4,x3,x1", "SW x4,4(x2)", "ADDI x7,x5,10"] := by
  decide

/-! ### One step on a small state -/

/-- A configuration with an empty default program. -/
def quietCfg (f : FwdScope) : Config := { Config.reference with fwdScope := f, defaultProg := [] }

/-- The reset registers and memory, with these stage occupants and queue, `n` records accepted so far. -/
def small (f : FwdScope) (S : Stages) (Q : List Record) (n : Nat) : State :=
  { State.initial (quietCfg f) with S := S, Q := Q, nextId := n }

/-- The value a record carries to MEM in the next step, for an instruction that stands alone in EX. -/
def exValue (f : FwdScope) (i : Instr) : Option Word :=
  ((next? (step (small f { Stages.empty with EX := some (Record.fresh 0 i) } [] 1))).bind (·.S.MEM)).bind (·.result)

/-- The state after one step in which this record stands alone in MEM. -/
def afterMem (r : Record) : Option State := next? (step (small .literal { Stages.empty with MEM := some r } [] 1))

/-- The state after one step in which this record stands alone in WB. -/
def afterWb (r : Record) : Option State := next? (step (small .literal { Stages.empty with WB := some r } [] 1))

/-- V-ALU-1. -/
theorem test_add : exValue .literal (.add 10 5 6) = some 55 := by decide
/-- R22: the write to `x0` is dropped, and the record retires. -/
theorem test_add_x0 : (afterWb { Record.fresh 0 (.add 0 5 6) with result := some 55 }).map
    (fun t => (t.reg 0, t.RF[0]?, t.out.retired)) = some (0, some 0, some 0) := by decide
/-- V-ALU-14 with the reset values x5=25, x6=30: LITERAL 25 - 4·30, sequential 25 - 30 (R237). -/
theorem test_sub_self : exValue .literal (.sub 5 5 6) = some (-95) ∧ exValue .olderOnly (.sub 5 5 6) = some (-5) := by decide
/-- R153: `SUB rd,x0,rs` negates; x1=15. -/
theorem test_sub_negates : exValue .literal (.sub 4 0 1) = some (-15) := by decide
/-- V-ALU-9. -/
theorem test_addi_negative : exValue .literal (.addi 8 0 (-2048)) = some (-2048) := by decide
/-- V-ALU-12. -/
theorem test_addi_self : exValue .literal (.addi 5 5 1) = some 29 ∧ exValue .olderOnly (.addi 5 5 1) = some 26 := by decide
/-- The same step in a machine of other parameters: with `XLEN` = 16 the sum 32767 + 1 wraps, and with `ZERO` = `x5` that
register reads 0 (R9, R12). -/
theorem test_other_parameters :
    (((next? (step { small .literal { Stages.empty with EX := some (Record.fresh 0 (.add 10 5 6)) } [] 1 with
        cfg := { quietCfg .literal with xlen := 16 }, RF := [0, 0, 0, 0, 0, 32767, 1] })).bind (·.S.MEM)).bind (·.result),
      ((next? (step { small .literal { Stages.empty with EX := some (Record.fresh 0 (.add 10 5 6)) } [] 1 with
        cfg := { quietCfg .literal with zero := 5 }, RF := [0, 0, 0, 0, 0, 32767, 1] })).bind (·.S.MEM)).bind (·.result)) =
    (some (-32768), some 1) := by decide
/-- R129: with `NREG` = 8 the register map shows 8 registers. -/
theorem test_register_map :
    registerMap (State.initial { Config.reference with nreg := 8, resetRegs := [0, 15, 200, 3, 4, 25, 30, 7] }) =
      [0, 15, 200, 3, 4, 25, 30, 7] := by decide
/-- V-MEM-5: byte address 3 is word 0 (R57); DM[0]=100. -/
theorem test_lw_reads : (afterMem { Record.fresh 0 (.lw 5 0 3) with ea := some 3, idx := some 0 }).map
    (fun t => (t.S.WB.bind (·.result), t.F)) = some (some 100, []) := by decide
/-- P1-200: index 50 is invalid; the read gives 0 and one entry. -/
theorem test_lw_invalid : (afterMem { Record.fresh 0 (.lw 3 2 0) with ea := some 200, idx := some 50 }).map
    (fun t => (t.S.WB.bind (·.result), t.F, t.out.error)) = some (some 0, [⟨1, .read, 50, 0⟩], some .invalidRead) := by decide
/-- R171: x5=25 stored at word 7, the last one. -/
theorem test_sw_writes : (afterMem { Record.fresh 0 (.sw 5 0 28) with ea := some 28, idx := some 7 }).map
    (fun t => (t.dm 7, t.dm 6, t.DM, t.F)) = some (25, 0, [(7, 25)], []) := by decide
/-- V-MEM-7: index -1 is invalid; nothing is written. -/
theorem test_sw_invalid : (afterMem { Record.fresh 1 (.sw 0 0 (-4)) with ea := some (-4), idx := some (-1) }).map
    (fun t => (t.DM, t.F)) = some ([], [⟨1, .write, -1, 1⟩]) := by decide
/-- V-RST-3. -/
theorem test_first_step : (next? (step State.reset)).map (fun t => (t.S.IF, t.cyc, t.out.retired, t.Q.length)) =
    some (some (Record.fresh 0 (.add 10 5 6)), 1, none, 4) := by decide
/-- V-SUB-1. -/
theorem test_submit : (next? (command (.submit 0x00000013#32) State.reset)).map
    (fun t => (t.Q.length, t.Q.getLast?.map (·.id), t.nextId, t.cyc, t.out.subResp)) = some (6, some 5, 6, 0, .accepted) := by
  decide
/-- V-SUB-4: with a full queue, a word that does not decode is malformed, not queueFull. -/
theorem test_submit_decode_first :
    (submit 0xFFFFFFFF#32 (State.initial { Config.reference with qdepth := some 5 })).out.subResp = .malformed := by decide
/-- V-FWD-2: the search goes past the skipped LW to MEM. -/
theorem test_summary_skips_load :
    summary (small .literal { Stages.empty with
      ID := some (Record.fresh 2 (.add 4 3 3)), EX := some (Record.fresh 1 (.lw 3 0 0)),
      MEM := some { Record.fresh 0 (.addi 3 0 5) with result := some 5 } } [] 3) =
    ⟨true, some ⟨5, .stage .MEM⟩, some ⟨5, .stage .MEM⟩⟩ := by decide
/-- V-FWD-5: a peek of an invalid index gives 0. -/
theorem test_summary_peek :
    (summary (small .literal { Stages.empty with
      ID := some (Record.fresh 1 (.addi 6 3 1)), MEM := some { Record.fresh 0 (.lw 3 0 4) with idx := some 9 } } [] 2)).rs1 =
    some ⟨0, .stage .MEM⟩ := by decide
/-- The next step after `withFetchWord` runs the word's instruction: `ADD x10,x5,x6` gives 55. -/
theorem test_withFetchWord : ((next? (step (State.reset.withFetchWord 32 0x00628533))).bind (·.S.MEM)).bind (·.result) = some 55 := by
  decide
/-- The pins of R101. -/
theorem test_command_pins : Command.ofPins 0b00#2 7 = .none ∧ Command.ofPins 0b01#2 7 = .submit 7 ∧
    Command.ofPins 0b10#2 7 = .step ∧ Command.ofPins 0b11#2 7 = .reset := by decide

/-! ### Witnesses: states and operands that meet the hypotheses of the statements, clause by clause -/

/-- All five stages occupied: a load ahead of its user, a store to word 7, an ADD retiring. -/
def busy (f : FwdScope) : State := small f
  { IF := some (Record.fresh 4 (.addi 7 5 10))
    ID := some (Record.fresh 3 (.sub 4 3 1))
    EX := some (Record.fresh 2 (.lw 3 0 28))
    MEM := some { Record.fresh 1 (.sw 5 0 28) with ea := some 28, idx := some 7 }
    WB := some { Record.fresh 0 (.add 10 5 6) with result := some 55 } } [] 5

/-- A store of x5 to word 0 with `ADDI x5,x0,9` right behind it (P4), and the self-dependent pair left out. -/
def pair (f : FwdScope) : State := small f
  { Stages.empty with
    EX := some (Record.fresh 1 (.addi 5 0 9))
    MEM := some { Record.fresh 0 (.sw 5 0 0) with ea := some 0, idx := some 0 } } [] 2

/-- A load and a store of invalid indices. -/
def wild (i : Instr) (k : Int) (ea : Word) : State := small .literal
  { Stages.empty with MEM := some { Record.fresh 0 i with ea := some ea, idx := some k } } [] 1

/-- A self-dependent instruction in EX, an older producer of its own register in WB. -/
def selfish (f : FwdScope) (i : Instr) (wb : Option Record) : State :=
  { small f { Stages.empty with EX := some (Record.fresh 1 i), WB := wb } [] 2 with sub := .EX }

/-- A stalled record in ID, its load in MEM. -/
def stalled : State := small .olderOnly
  { Stages.empty with
    ID := some { Record.fresh 1 (.sub 4 3 1) with stall := true }
    MEM := some { Record.fresh 0 (.lw 3 0 0) with ea := some 0, idx := some 0 } } [] 2

theorem witness_DecodeOfEncode : Instr.wellFormed 2 12 (.sw 1 1 (-2048)) = true ∧ Instr.immFits 12 (.sw 1 1 (-2048)) = true ∧
    Instr.wellFormed 32 12 (.add 31 31 31) = true ∧ Instr.immFits 12 (.add 31 31 31) = true := by
  decide
theorem witness_EncodeOfDecode : decode 32 12 0x81FFA023#32 = .ok (.sw 31 31 (-2048)) := by decide
/-- For DecodeIsTheFivePatterns and SubmitAppendsOrRefuses. -/
theorem witness_illegal_word (i : Instr) : decode State.reset.cfg.nreg State.reset.cfg.immW 0x00000073#32 ≠ .ok i := by
  simp [show decode State.reset.cfg.nreg State.reset.cfg.immW 0x00000073#32 = .error .illegalWord by decide]
theorem witness_ResetWritesEveryElement : State.reset.cfg.defaultProg[4]? = some (.addi 7 5 10) ∧ 7 < State.reset.cfg.memWords ∧
    State.reset.cfg.zero.val < State.reset.cfg.resetRegs.length ∧ (31 : Reg) ≠ State.reset.cfg.zero ∧
    Command.step ≠ .reset ∧ ∃ t, command .step (busy .literal) = .next t :=
  ⟨by decide, by decide, by decide, by decide, by decide, exists_next (by decide)⟩
theorem witness_PowerOnValues : Config.reference.zero = 0 ∧ Config.reference.resetRegs[1]? = some 15 ∧
    Config.reference.resetRegs[2]? = some 200 ∧ Config.reference.resetRegs[5]? = some 25 ∧
    Config.reference.resetRegs[6]? = some 30 ∧ Config.reference.resetMem[0]? = some 100 ∧
    Config.reference.defaultProg = defaultProgram ∧ Config.reference.resetRegs[31]? = some 0 := by decide
theorem witness_ResetIdempotentAndHistoryIndependent :
    (busy .literal).cfg = (pair .literal).cfg ∧ (busy .literal).host = (pair .literal).host ∧ busy .literal ≠ pair .literal := by
  decide
/-- Also for QueueFullRefusesAndKeepsState and ErrorKindsAndCodes. -/
theorem witness_SubmitAppendsOrRefuses_full :
    decode 32 12 0x00000013#32 = .ok (.addi 0 0 0) ∧
    (State.initial { Config.reference with qdepth := some 5 }).cfg.qdepth =
      some (State.initial { Config.reference with qdepth := some 5 }).Q.length := by decide
theorem witness_SubmitAppendsOrRefuses_accepted :
    decode 32 12 0x00000013#32 = .ok (.addi 0 0 0) ∧ State.reset.cfg.qdepth ≠ some State.reset.Q.length ∧
    (State.initial { Config.reference with qdepth := some 6 }).cfg.qdepth ≠ some 5 := by decide
/-- For SubmitAppendsOrRefuses (fetch), QuiescentStepOnlyCounts and OneInstructionFromSubmitToRetirement. -/
theorem witness_quiescent : (small .literal .empty [] 0).Quiescent ∧ (small .literal .empty [] 0).host = [] ∧
    (small .literal .empty [] 0).sub = .IF ∧ (small .literal .empty [] 0).Inv ∧
    (small .literal .empty [] 0).cfg.qdepth ≠ some (small .literal .empty [] 0).Q.length ∧
    decode (small .literal .empty [] 0).cfg.nreg (small .literal .empty [] 0).cfg.immW 0x00628533#32 = .ok (.add 10 5 6) ∧
    (small .olderOnly .empty [] 0).cfg.fwdScope = .olderOnly ∧ selfDep 0 (.add 10 5 6) = false := by decide
theorem witness_QueueFull_unbounded : State.reset.cfg.qdepth = none := rfl
theorem witness_StepRunsTheDecodedInstruction :
    (busy .literal).host = [] ∧ ({ State.reset with host := [Command.reset] } : State).host = Command.reset :: [] ∧
    (busy .literal).S.get .WB = some { Record.fresh 0 (.add 10 5 6) with result := some 55 } ∧
    (small .literal { Stages.empty with EX := some (Record.fresh 0 (.add 10 5 6)) } [] 1).S.EX = some (Record.fresh 0 (.add 10 5 6)) ∧
    decode 32 12 0x00628533#32 = .ok (.add 10 5 6) ∧ decode State.reset.cfg.nreg State.reset.cfg.immW (tableWord 32 0x00628533) = .ok (.add 10 5 6) ∧
    State.reset.S.MEM = none ∧ State.reset.S.WB = none := by decide

/-- A state in the middle of a STEP, for the clauses about one sub-step: record `r` in stage `st`. -/
def within (st : Stage) (r : Record) : State :=
  let S : Stages := match st with
    | .EX => { Stages.empty with EX := some r }
    | .MEM => { Stages.empty with MEM := some r }
    | .WB => { Stages.empty with WB := some r }
    | _ => Stages.empty
  { small .literal S [] 1 with sub := st }

theorem witness_sub_step_EX (i : Instr) : (within .EX (Record.fresh 0 i)).sub = .EX ∧
    (within .EX (Record.fresh 0 i)).S.EX = some (Record.fresh 0 i) := ⟨rfl, rfl⟩
theorem witness_sub_step_MEM (r : Record) : (within .MEM r).sub = .MEM ∧ (within .MEM r).S.MEM = some r := ⟨rfl, rfl⟩
theorem witness_sub_step_WB (r : Record) : (within .WB r).sub = .WB ∧ (within .WB r).S.WB = some r := ⟨rfl, rfl⟩
/-- The boundary indices of the LW and SW clauses: 0 and 7 are valid, 8 and -1 are not; a value and none in WB. -/
theorem witness_sub_step_clauses :
    ({ Record.fresh 0 (.lw 3 0 28) with idx := some 7 } : Record).idx = some ((7 : Nat) : Int) ∧
    7 < State.reset.cfg.memWords ∧ 0 < State.reset.cfg.memWords ∧
    ¬(0 ≤ (8 : Int) ∧ (8 : Int) < (State.reset.cfg.memWords : Int)) ∧
    ¬(0 ≤ (-1 : Int) ∧ (-1 : Int) < (State.reset.cfg.memWords : Int)) ∧
    ({ Record.fresh 0 (.lw 3 0 28) with result := some 9 } : Record).result = some 9 ∧ (3 : Reg) ≠ 0 := by decide
/-- R133: the internal fault is raised where the rule says. -/
theorem witness_unreachable : exec (.add 3 1 2) (within .WB (Record.fresh 0 (.add 3 1 2))) = .fault .unreachable := rfl
theorem witness_noIndex : exec (.lw 3 1 2) (within .MEM (Record.fresh 0 (.lw 3 1 2))) = .fault .noIndex := rfl
theorem witness_FetchAndDecodeComputeNothing : State.reset.sub = .IF ∧ ({ State.reset with sub := .ID } : State).sub = .ID :=
  ⟨rfl, rfl⟩
/-- InstructionFrame: a next state in each sub-step, a register and a word inside and outside what may change. -/
theorem witness_InstructionFrame :
    (∃ t, exec (.sw 5 0 28) (within .MEM { Record.fresh 0 (.sw 5 0 28) with idx := some 7 }) = .next t) ∧
    (∃ t, exec (.add 3 5 6) (within .WB { Record.fresh 0 (.add 3 5 6) with result := some 55 }) = .next t) ∧
    (∃ t, exec (.add 3 5 6) (within .EX (Record.fresh 0 (.add 3 5 6))) = .next t) ∧
    (Instr.add 3 5 6).rd? ≠ some 4 ∧ (some 7 : Option Int) ≠ some ((6 : Nat) : Int) :=
  ⟨exists_next (by decide), exists_next (by decide), exists_next (by decide), by decide, by decide⟩
theorem witness_RegisterPrimitives : (31 : Reg) ≠ State.reset.cfg.zero ∧ (0 : Reg) ≠ 31 ∧
    State.reset.RF[31]? = some 0 := by decide
/-- A STEP of a busy pipeline: WB writes x10, MEM stores to word 7, EX is a load, ID stalls. For
StepWritesOnlyTheRetiringRegister, StepWritesOnlyTheStoredWord, OutputsReportTheStep, StepLogsExactly and
ParametersNeverChange. -/
theorem witness_step : (busy .literal).host = [] ∧ (∃ t, step (busy .literal) = .next t) ∧
    (busy .literal).S.WB = some { Record.fresh 0 (.add 10 5 6) with result := some 55 } ∧
    10 < (busy .literal).RF.length ∧
    (∃ s1, stageSubStep .WB (busy .literal).clearOut = .next s1) ∧
    (∀ r, (busy .literal).S.WB = some r → r.instr.rd? ≠ some 3) :=
  ⟨rfl, exists_next (by decide), rfl, by decide, exists_next (by decide), by rintro r ⟨⟩; decide⟩
theorem witness_WordIndexOfByteAddress : ((-1 : Word) < 0) ∧ wordIndex (-1) = -1 ∧ wordIndex 3 = 0 ∧ wordIndex 4 = 1 := by
  decide
theorem witness_WrappedAddressSameVerdict : Config.reference.Valid ∧ Config.reference.immW < Config.reference.xlen ∧
    inWidth Config.reference.xlen (-2147483648) = true ∧ inWidth Config.reference.immW (-2048) = true := by decide
theorem witness_WordsByValue : 12 ≤ 32 ∧ inWidth 32 (BitVec.toInt 0x80000000#32) = true := by decide
theorem witness_busy_Inv : (busy .literal).Inv ∧ (busy .olderOnly).Inv := ⟨by decide, by decide⟩
/-- LoadReadsTheStoreAhead: the load computes the stored word's index. -/
theorem witness_LoadReadsTheStoreAhead : (busy .literal).Inv ∧ (busy .literal).host = [] ∧
    (busy .literal).S.MEM = some { Record.fresh 1 (.sw 5 0 28) with ea := some 28, idx := some 7 } ∧
    7 < (busy .literal).cfg.memWords ∧ (busy .literal).S.EX = some (Record.fresh 2 (.lw 3 0 28)) ∧
    ((next? (step (busy .literal))).bind (·.S.MEM)).bind (·.idx) = some ((7 : Nat) : Int) := by decide
/-- The clauses about an invalid access, at the boundary index 8 for a load and -1 for a store. For StepLogsExactly,
ErrorKindsAndCodes, InvalidAccessDegrades and MemoryAccessPrimitives. -/
theorem witness_invalid_access :
    (wild (.lw 3 0 32) 8 32).Inv ∧ (wild (.lw 3 0 32) 8 32).host = [] ∧ (∃ t, step (wild (.lw 3 0 32) 8 32) = .next t) ∧
    ¬(0 ≤ (8 : Int) ∧ (8 : Int) < ((wild (.lw 3 0 32) 8 32).cfg.memWords : Int)) ∧
    (wild (.sw 5 0 (-4)) (-1) (-4)).Inv ∧ (∃ t, step (wild (.sw 5 0 (-4)) (-1) (-4)) = .next t) ∧
    ¬(0 ≤ (-1 : Int) ∧ (-1 : Int) < ((wild (.sw 5 0 (-4)) (-1) (-4)).cfg.memWords : Int)) ∧
    (Instr.lw 3 0 32).isAlu = false ∧ (Instr.sw 5 0 (-4)).isAlu = false :=
  ⟨by decide, rfl, exists_next (by decide), by decide, by decide, exists_next (by decide), by decide, rfl, rfl⟩
theorem witness_CycleCounterCountsSteps : (∃ t, command .step (busy .literal) = .next t) ∧ State.reset.host = [] ∧
    (∃ t, run 1 State.reset = .next t) ∧ (∃ t, run 1 (State.initial Config.reference) = .next t) :=
  ⟨exists_next (by decide), rfl, exists_next (by decide), exists_next (by decide)⟩
theorem witness_ErrorKindsAndCodes : decode 32 12 0x00000000#32 = .error .illegalWord ∧
    (∃ t, command (.submit 0x00000000#32) State.reset = .next t) :=
  ⟨by decide, exists_next (by decide)⟩
/-- FrontEndSubSteps: an occupied ID, an occupied IF in front of a free and of a stalled ID, a queue with IF empty. -/
theorem witness_FrontEndSubSteps : (busy .literal).S.ID = some (Record.fresh 3 (.sub 4 3 1)) ∧ State.reset.S.ID = none ∧
    (busy .literal).S.IF = some (Record.fresh 4 (.addi 7 5 10)) ∧ (Record.fresh 3 (.sub 4 3 1)).stall = false ∧
    stalled.S.ID = some { Record.fresh 1 (.sub 4 3 1) with stall := true } ∧
    State.reset.Q = Record.fresh 0 (.add 10 5 6) :: State.reset.Q.tail ∧ State.reset.S.IF = none ∧
    (busy .literal).S.IF ≠ none ∧ (busy .literal).Q = [] := by decide
/-- StallsForExactlyOneStep and StallLeavesABubble: the hazard, a record that has stalled, and one with no hazard. -/
theorem witness_stall : (busy .literal).Inv ∧ (busy .literal).host = [] ∧
    (busy .literal).S.ID = some (Record.fresh 3 (.sub 4 3 1)) ∧ (busy .literal).S.EX = some (Record.fresh 2 (.lw 3 0 28)) ∧
    detect (busy .literal).S.ID (busy .literal).S.EX = true ∧ stalled.Inv ∧ stalled.host = [] ∧
    stalled.S.ID = some { Record.fresh 1 (.sub 4 3 1) with stall := true } ∧ detect stalled.S.ID stalled.S.EX = false :=
  ⟨by decide, rfl, rfl, rfl, by decide, by decide, rfl, rfl, by decide⟩
/-- For EveryStepKeepsInv and StallLeavesABubble. -/
theorem witness_step_Inv : (busy .literal).Inv ∧ ∃ t, step (busy .literal) = .next t := ⟨by decide, exists_next (by decide)⟩
/-- ForwardingSearch: for a consumer of x3 in ID the load in EX does not offer, the value in MEM does; the depth bound is
reached at depth 3. -/
def chain : State := small .literal { Stages.empty with
  ID := some (Record.fresh 2 (.add 4 3 3)), EX := some (Record.fresh 1 (.lw 3 0 0))
  MEM := some { Record.fresh 0 (.addi 3 0 5) with result := some 5 } } [] 3

theorem witness_ForwardingSearch : (3 : Reg) ≠ 0 ∧ chain.cfg.maxDepth ≤ 3 ∧ 0 < chain.cfg.maxDepth ∧
    chain.S.get .MEM = some { Record.fresh 0 (.addi 3 0 5) with result := some 5 } ∧ (Instr.addi 3 0 5).rd? = some 3 ∧
    chain.S.get .EX = some (Record.fresh 1 (.lw 3 0 0)) ∧ (Instr.lw 3 0 0).isLw = true ∧
    (∀ st p, st ∈ [Stage.EX, .MEM, .WB] → State.reset.S.get st ≠ some p) := by
  refine ⟨by decide, by decide, by decide, by decide, by decide, by decide, rfl, ?_⟩
  intro st p h; cases st <;> simp [State.reset, State.initial, Stages.get, Stages.empty]
/-- The recomputing clauses of ForwardingSearch: an ADD, a SUB and an ADDI in EX without a result, a load in MEM with an
index and without a result. -/
theorem witness_ForwardingSearch_recompute :
    (Record.fresh 1 (.add 3 1 2)).result = none ∧ (Record.fresh 1 (.sub 3 1 2)).result = none ∧
    (Record.fresh 1 (.addi 3 1 2)).result = none ∧
    (small .literal { Stages.empty with EX := some (Record.fresh 1 (.add 3 1 2)) } [] 2).S.get .EX = some (Record.fresh 1 (.add 3 1 2)) ∧
    ({ Record.fresh 0 (.lw 3 0 4) with idx := some 9 } : Record).idx = some 9 ∧
    resolve (small .literal { Stages.empty with MEM := some { Record.fresh 0 (.lw 3 0 4) with idx := some 0 } } [] 1) 3 .ID 0 = 100 := by
  decide
/-- ResolveInEX: an EX occupant with records ahead of it, the self match and no self match. -/
theorem witness_ResolveInEX : (busy .literal).Inv ∧ (busy .literal).S.EX = some (Record.fresh 2 (.lw 3 0 28)) ∧
    (∃ s1, stageSubStep .WB (busy .literal).clearOut = .next s1) ∧
    ((next? (stageSubStep .WB (busy .literal).clearOut)).bind fun s1 => next? (stageSubStep .MEM s1)).isSome = true ∧
    (small .literal { Stages.empty with EX := some (Record.fresh 0 (.add 5 5 6)) } [] 1).Inv ∧
    (small .literal { Stages.empty with EX := some (Record.fresh 0 (.sub 5 5 6)) } [] 1).Inv ∧
    (small .literal { Stages.empty with EX := some (Record.fresh 0 (.addi 5 5 6)) } [] 1).Inv ∧
    (busy .literal).cfg.fwdScope = .literal :=
  ⟨by decide, rfl, exists_next (by decide), by decide, by decide, by decide, by decide, rfl⟩
/-- ResolveStoreDataInMEM and StoreDataAnomaly: the pattern in both settings, and a store with no such follower. -/
theorem witness_store_data : (pair .literal).Inv ∧ (pair .olderOnly).Inv ∧ (pair .literal).host = [] ∧
    (pair .literal).S.MEM = some { Record.fresh 0 (.sw 5 0 0) with ea := some 0, idx := some 0 } ∧ (5 : Reg) ≠ 0 ∧
    (∃ s1, stageSubStep .WB (pair .literal).clearOut = .next s1) ∧ 0 < (pair .literal).cfg.memWords ∧
    (pair .literal).S.EX = some (Record.fresh 1 (.addi 5 0 9)) ∧ (Instr.addi 5 0 9).isAlu = true ∧
    (Instr.addi 5 0 9).rd? = some 5 ∧ selfDep 0 (.addi 5 0 9) = false ∧ (pair .literal).cfg.fwdScope = .literal ∧
    (pair .olderOnly).cfg.fwdScope = .olderOnly ∧ (Instr.lw 3 0 28).isAlu = false :=
  ⟨by decide, by decide, rfl, rfl, by decide, exists_next (by decide), by decide, rfl, rfl, rfl, by decide, rfl, rfl, rfl⟩
/-- SelfDependencyTable, for every row's instruction `i`: D = 3, `x5` = 25, the other source `x6` = 30, and under LITERAL an
older producer of `x5` in WB. -/
theorem witness_SelfDependencyTable (i : Instr) :
    let s := selfish .literal i (some { Record.fresh 0 (.addi 5 0 7) with result := some 7 })
    s.sub = .EX ∧ s.S.EX = some (Record.fresh 1 i) ∧ (Record.fresh 1 i).result = none ∧ s.S.MEM = none ∧
    (5 : Reg) ≠ 0 ∧ (6 : Reg) ≠ 5 ∧ s.cfg.maxDepth = 3 ∧ 1 ≤ 3 ∧ s.reg 5 = 25 ∧ s.reg 6 = 30 ∧
    (∀ p, s.S.WB = some p → p.instr.rd? ≠ some 6) ∧ s.cfg.fwdScope = .literal := by
  refine ⟨rfl, rfl, rfl, rfl, by decide, by decide, rfl, by decide, rfl, rfl, ?_, rfl⟩
  rintro p ⟨⟩; decide
theorem witness_SelfDependencyTable_olderOnly (i : Instr) :
    let s := selfish .olderOnly i none
    s.sub = .EX ∧ s.S.EX = some (Record.fresh 1 i) ∧ s.S.MEM = none ∧ s.reg 5 = 25 ∧ s.reg 0 = 0 ∧ s.S.WB = none ∧
    s.cfg.fwdScope = .olderOnly := ⟨rfl, rfl, rfl, rfl, rfl, rfl, rfl⟩
theorem witness_DepthBoundIrrelevant : (busy .olderOnly).Inv ∧ (busy .olderOnly).host = [] ∧
    (∃ t, step (busy .olderOnly) = .next t) ∧ (busy .olderOnly).cfg.fwdScope = .olderOnly ∧ (busy .literal).Inv ∧
    selfDep 0 (.lw 3 0 28) = false ∧ storeDataPair 0 (.sw 5 0 28) (.lw 3 0 28) = false ∧ (1 ≤ 1) :=
  ⟨by decide, rfl, exists_next (by decide), rfl, by decide, rfl, by decide, le_refl 1⟩
theorem witness_StatusSummary : (busy .literal).Inv ∧ (busy .literal).host = [] ∧ State.reset.S.ID = none ∧
    (busy .literal).S.ID = some (Record.fresh 3 (.sub 4 3 1)) ∧ (Instr.sub 4 3 1).rs2? = some 1 ∧
    (Instr.addi 6 3 1).rs2? = none ∧ (3 : Reg) ≠ 0 ∧ 1 ≤ chain.cfg.maxDepth ∧ fwdSource chain 3 = .stage .MEM := by decide
theorem witness_AccessorsShowTheState : (busy .literal).cfg.nreg ≤ 32 ∧ (31 : Reg).val < (busy .literal).cfg.nreg ∧
    7 < (busy .literal).cfg.memWords := by decide
/-- For InvAtReset and DrainTime. -/
theorem witness_Valid : Config.reference.Valid ∧ Config.reference.defaultProg ≠ [] ∧
    (0 < Config.reference.defaultProg.length + 5 + stalls Config.reference.defaultProg) := by decide
theorem witness_NoRunStops : State.reset.Inv := by decide
theorem witness_MemoryStaysCanonical : Memory.wf (busy .literal).cfg (busy .literal).DM = true ∧ ∃ t, step (busy .literal) = .next t :=
  ⟨by decide, exists_next (by decide)⟩
/-- SequentialEquivalence: a program waiting in front of an empty pipeline, in both settings. -/
theorem witness_SequentialEquivalence :
    let q := [Record.fresh 0 (.lw 3 0 0), Record.fresh 1 (.sub 4 3 1), Record.fresh 2 (.sw 4 0 4)]
    (small .olderOnly .empty q 3).Inv ∧ (small .olderOnly .empty q 3).host = [] ∧
    (small .olderOnly .empty q 3).S = Stages.empty ∧ (small .olderOnly .empty q 3).cfg.fwdScope = .olderOnly ∧
    (small .literal .empty q 3).Inv ∧ anomalyFree 0 (q.map Record.instr) = true :=
  ⟨by decide, rfl, rfl, rfl, by decide, by decide⟩

end Sys2Proof.Tests
end

section
/-! Proofs of the statements of 00_scope.md: a word held by its value is its bit vector (R11, R12, R77), and an address
sum that wraps is out of range before and after it wraps (R10, R51). -/

namespace Sys2Proof.Machine

/-! ### Values of bit vectors -/

theorem aluAdd_toInt {n : Nat} (a b : BitVec n) : aluAdd n a.toInt b.toInt = (a + b).toInt := by
  rw [aluAdd, wrap_eq_bmod, BitVec.toInt_add]

theorem aluSub_toInt {n : Nat} (a b : BitVec n) : aluSub n a.toInt b.toInt = (a - b).toInt := by
  rw [aluSub, wrap_eq_bmod, BitVec.toInt_sub]

/-- R52: the index is the arithmetic right shift by 2. -/
theorem wordIndex_toInt {n : Nat} (a : BitVec n) : wordIndex a.toInt = (a.sshiftRight 2).toInt := by
  rw [wordIndex, BitVec.toInt_sshiftRight, Int.shiftRight_eq_div_pow]
  rfl

/-- Both sides are the value of the `n`-bit vector that `imm`'s value wraps to, so this needs no `m ≤ n`. -/
theorem sext_toInt {m : Nat} (n : Nat) (imm : BitVec m) : sext n imm.toInt = (imm.signExtend n).toInt := rfl

theorem effectiveAddress_toInt {m n : Nat} (a : BitVec n) (imm : BitVec m) :
    effectiveAddress n a.toInt imm.toInt = (a + imm.signExtend n).toInt := by
  rw [effectiveAddress, sext_toInt]
  exact aluAdd_toInt a (imm.signExtend n)

/-- The words are exactly the values of bit vectors: a word is the value of the vector it wraps to. -/
theorem inWidth_iff_exists_toInt {n : Nat} {v : Int} : inWidth n v = true ↔ ∃ x : BitVec n, x.toInt = v := by
  constructor
  · exact fun h => ⟨BitVec.ofInt n v, wrap_of_inWidth h⟩
  · rintro ⟨x, rfl⟩
    exact inWidth_toInt x

/-- Settles O24: each clause is the lemma about that operation. -/
theorem wordsByValue : Obligations.WordsByValue := fun n a b =>
  ⟨aluAdd_toInt a b, aluSub_toInt a b, wordIndex_toInt a,
    fun _ imm _ => ⟨sext_toInt n imm, effectiveAddress_toInt a imm⟩,
    fun _ => inWidth_iff_exists_toInt⟩

/-! ### The wrapped address sum -/

/-- The sum of two words wraps at most once (R12): it is a word, or it is at or above `2^(n-1)` and wraps down by `2^n`,
or it is below `-2^(n-1)` and wraps up by `2^n`. -/
theorem wrap_add_cases {n : Nat} {a b : Int} (ha : inWidth n a = true) (hb : inWidth n b = true) :
    wrap n (a + b) = a + b ∨
    ((2 ^ n : Nat) ≤ 2 * (a + b) ∧ wrap n (a + b) = a + b - (2 ^ n : Nat)) ∨
    (2 * (a + b) < -(2 ^ n : Nat) ∧ wrap n (a + b) = a + b + (2 ^ n : Nat)) := by
  rw [inWidth_iff] at ha hb
  rcases lt_or_ge (2 * (a + b)) (-((2 ^ n : Nat) : Int)) with hlow | hlow
  · have hw : inWidth n (a + b + (2 ^ n : Nat)) = true := inWidth_iff.2 (by omega)
    exact .inr (.inr ⟨hlow, by rw [← wrap_add_pow, wrap_of_inWidth hw]⟩)
  · rcases lt_or_ge (2 * (a + b)) ((2 ^ n : Nat) : Int) with hhigh | hhigh
    · exact .inl (wrap_of_inWidth (inWidth_iff.2 ⟨hlow, hhigh⟩))
    · have hw : inWidth n (a + b - (2 ^ n : Nat)) = true := inWidth_iff.2 (by omega)
      exact .inr (.inl ⟨hhigh, by rw [← wrap_sub_pow, wrap_of_inWidth hw]⟩)

/-- A byte address is in range exactly when it lies in the `4 * MEM_WORDS` bytes of the memory (R52, R53). -/
theorem validIndex_wordIndex_iff (c : Config) (x : Int) :
    validIndex c (wordIndex x) = true ↔ 0 ≤ x ∧ x < 4 * (c.memWords : Int) := by
  rw [validIndex_iff, wordIndex]
  omega

theorem validIndex_wordIndex_eq_false {c : Config} {x : Int} (h : x < 0 ∨ 4 * (c.memWords : Int) ≤ x) :
    validIndex c (wordIndex x) = false := by
  rw [← Bool.not_eq_true, validIndex_wordIndex_iff]
  omega

/-- The bound R10 computes. With `u = 2^(XLEN-4)` the memory is at most `4u` bytes and an offset of fewer than `XLEN` bits
is within `4u` of 0, so a sum of base and offset outside `[-8u, 8u)` wraps to an address in `[-8u, -4u)` or `[4u, 8u)`:
it is out of range before and after wrapping. -/
theorem effectiveAddress_eq_add_or_invalid {c : Config} {base imm : Int} (hc : c.Valid) (himmW : c.immW < c.xlen)
    (hb : inWidth c.xlen base = true) (hi : inWidth c.immW imm = true) :
    effectiveAddress c.xlen base imm = base + imm ∨
    (validIndex c (wordIndex (effectiveAddress c.xlen base imm)) = false ∧
      validIndex c (wordIndex (base + imm)) = false) := by
  obtain ⟨hxlen, -, -, -, -, -, hmem, -⟩ := hc
  have hpow : 2 ^ c.xlen = 16 * 2 ^ (c.xlen - 4) := by
    rw [← Nat.pow_add 2 4, Nat.add_sub_cancel' (by omega)]
  have hoff : 2 * 2 ^ c.immW ≤ 2 ^ c.xlen := by
    rw [← Nat.pow_succ']
    exact Nat.pow_le_pow_right (by decide) himmW
  rw [effectiveAddress, sext_of_inWidth himmW.le hi]
  have hsum := wrap_add_cases hb (inWidth_mono himmW.le hi)
  rw [inWidth_iff] at hb hi
  rcases hsum with hin | ⟨hhigh, hwrap⟩ | ⟨hlow, hwrap⟩
  · exact .inl hin
  · rw [hwrap]
    exact .inr ⟨validIndex_wordIndex_eq_false (.inl (by omega)), validIndex_wordIndex_eq_false (.inr (by omega))⟩
  · rw [hwrap]
    exact .inr ⟨validIndex_wordIndex_eq_false (.inr (by omega)), validIndex_wordIndex_eq_false (.inl (by omega))⟩

/-- Settles O26: either the sum did not wrap, or both addresses are out of range. -/
theorem wrappedAddressSameVerdict : Obligations.WrappedAddressSameVerdict := by
  intro c base imm hc himmW hb hi
  change _ = validIndex c (wordIndex (base + imm)) ∧ (validIndex c (wordIndex (base + imm)) = true → _)
  rcases effectiveAddress_eq_add_or_invalid hc himmW hb hi with heq | ⟨hwrapped, hsum⟩
  · rw [heq]
    exact ⟨rfl, fun _ => rfl⟩
  · rw [hwrapped, hsum]
    exact ⟨rfl, nofun⟩

end Sys2Proof.Machine
end

section
/-! What an instruction's part in a sub-step can do, whatever instruction the occupant carries, and what every sub-step and
every STEP leaves unchanged (10_state.md R24, R29, R35, R38; 40_pipeline.md R105 to R107). -/

namespace Sys2Proof.Machine

/-! ### The part of an instruction in the sub-step being run -/

theorem enter_eq_self {s : State} {st : Stage} (h : s.sub = st) : s.enter st = s := by
  subst h; rfl

theorem exec_eq_bySubStep (i : Instr) (s : State) : ∃ ex mem wb, exec i s = bySubStep s ex mem wb := by
  cases i <;> exact ⟨_, _, _, rfl⟩

/-- In the sub-step of an empty stage nothing happens (R105 to R107). -/
theorem exec_empty (i : Instr) {s : State} {st : Stage} (hsub : s.sub = st) (e : s.S.get st = none) :
    exec i s = .next s := by
  obtain ⟨ex, mem, wb, h⟩ := exec_eq_bySubStep i s
  cases st <;> simp only [Stages.get] at e <;> simp [h, bySubStep, hsub, e]

/-- IF and ID compute nothing (R113). -/
theorem exec_front (i : Instr) {s : State} (hsub : s.sub = .IF ∨ s.sub = .ID) : exec i s = .next s := by
  obtain ⟨ex, mem, wb, h⟩ := exec_eq_bySubStep i s
  rcases hsub with hsub | hsub <;> simp [h, bySubStep, hsub]

/-- WB: the occupant retires, and its instruction's `rd` is written unless it is `ZERO`. -/
theorem exec_WB_next {i : Instr} {s t : State} (hsub : s.sub = .WB) (h : exec i s = .next t) :
    (s.S.WB = none ∧ t = s) ∨
    (∃ r, s.S.WB = some r ∧ t = s.retire r ∧ ∀ rd, i.rd? = some rd → rd = s.cfg.zero) ∨
    (∃ r rd v, s.S.WB = some r ∧ i.rd? = some rd ∧ rd ≠ s.cfg.zero ∧ r.result = some v ∧
      t = (s.retire r).setReg rd v) := by
  cases e : s.S.WB with
  | none =>
    rw [exec_empty i hsub e] at h
    exact .inl ⟨rfl, by simpa using h.symm⟩
  | some r =>
    rw [← enter_eq_self hsub, exec_at_WB i e, enter_eq_self hsub] at h
    cases hrd : i.rd? with
    | none =>
      simp only [hrd, wbPlain] at h
      exact .inr (.inl ⟨r, rfl, by simpa using h.symm, nofun⟩)
    | some rd =>
      simp only [hrd] at h
      rcases wbCommit_next h with ⟨hz, rfl⟩ | ⟨hz, v, hv, rfl⟩
      · exact .inr (.inl ⟨r, rfl, rfl, by rintro _ ⟨⟩; exact hz⟩)
      · exact .inr (.inr ⟨r, rd, v, rfl, rfl, hz, hv, rfl⟩)

/-- MEM: the occupant moves to WB, after the access of an LW or SW at the index the occupant carries. -/
theorem exec_MEM_next {i : Instr} {s t : State} (hsub : s.sub = .MEM) (h : exec i s = .next t) :
    (s.S.MEM = none ∧ t = s) ∨
    (∃ r, s.S.MEM = some r ∧ i.isAlu = true ∧ t = s.memToWb r) ∨
    (∃ r k, s.S.MEM = some r ∧ i.isLw = true ∧ r.idx = some k ∧
      t = (memReadAt s k r.id).2.memToWb { r with result := some (memReadAt s k r.id).1 }) ∨
    (∃ r rs2 rs1 imm k, s.S.MEM = some r ∧ i = .sw rs2 rs1 imm ∧ r.idx = some k ∧
      t = (memWriteAt s k (resolve s rs2 .MEM 0) r.id).memToWb r) := by
  cases e : s.S.MEM with
  | none =>
    rw [exec_empty i hsub e] at h
    exact .inl ⟨rfl, by simpa using h.symm⟩
  | some r =>
    rw [← enter_eq_self hsub, exec_at_MEM i e, enter_eq_self hsub] at h
    cases i with
    | lw rd rs1 imm =>
      obtain ⟨k, hk, rfl⟩ := memLoad_next h
      exact .inr (.inr (.inl ⟨r, k, rfl, rfl, hk, rfl⟩))
    | sw rs2 rs1 imm =>
      obtain ⟨k, hk, rfl⟩ := memStore_next h
      exact .inr (.inr (.inr ⟨r, rs2, rs1, imm, k, rfl, rfl, hk, rfl⟩))
    | _ => exact .inr (.inl ⟨r, rfl, rfl, by simpa [memPass] using h.symm⟩)

/-- EX: the occupant moves to MEM, with its result or with its address and index. -/
theorem exec_EX_next {i : Instr} {s t : State} (hsub : s.sub = .EX) (h : exec i s = .next t) :
    (s.S.EX = none ∧ t = s) ∨
    (∃ r v, s.S.EX = some r ∧ i.isAlu = true ∧ t = s.exToMem { r with result := some v }) ∨
    (∃ r ea, s.S.EX = some r ∧ i.isAlu = false ∧
      t = s.exToMem { r with ea := some ea, idx := some (wordIndex ea) }) := by
  cases e : s.S.EX with
  | none =>
    rw [exec_empty i hsub e] at h
    exact .inl ⟨rfl, by simpa using h.symm⟩
  | some r =>
    rw [← enter_eq_self hsub, exec_at_EX i e, enter_eq_self hsub] at h
    cases i <;> simp only [exResult, exAddress] at h
    case lw | sw => exact .inr (.inr ⟨r, _, rfl, rfl, by simpa using h.symm⟩)
    all_goals exact .inr (.inl ⟨r, _, rfl, rfl, by simpa using h.symm⟩)

/-! ### The frame of a sub-step -/

/-- What a sub-step, the one `s.sub` names, leaves unchanged between `s` and `t`, whatever it runs. -/
structure SubStepFrame (s t : State) : Prop where
  RF : s.sub ≠ .WB → t.RF = s.RF
  DM : s.sub ≠ .MEM → t.DM = s.DM
  L : s.sub ≠ .WB → t.L = s.L
  F : s.sub ≠ .MEM → t.F = s.F
  cfg : t.cfg = s.cfg
  IF : t.S.IF = s.S.IF
  ID : t.S.ID = s.S.ID
  Q : t.Q = s.Q
  cyc : t.cyc = s.cyc
  nextId : t.nextId = s.nextId
  sub : t.sub = s.sub
  host : t.host = s.host
  subResp : t.out.subResp = s.out.subResp

namespace SubStepFrame

variable {s u : State}

theorem refl (s : State) : SubStepFrame s s := by
  constructor <;> simp

theorem retire (hsub : s.sub = .WB) (r : Record) : SubStepFrame s (s.retire r) := by
  constructor <;> simp [hsub]

theorem setReg (hsub : s.sub = .WB) (h : SubStepFrame s u) (rd : Reg) (v : Word) : SubStepFrame s (u.setReg rd v) :=
  { h with RF := fun hne => absurd hsub hne }

theorem memToWb (h : SubStepFrame s u) (r : Record) : SubStepFrame s (u.memToWb r) := { h with }

theorem exToMem (s : State) (r : Record) : SubStepFrame s (s.exToMem r) := by
  constructor <;> simp

theorem logFault (hsub : s.sub = .MEM) (kind : AccessKind) (k : Int) (id : Nat) :
    SubStepFrame s (s.logFault kind k id) := by
  constructor <;> simp [hsub]

theorem setDm (hsub : s.sub = .MEM) (k : Nat) (v : Word) : SubStepFrame s (s.setDm k v) := by
  constructor <;> simp [hsub]

theorem memReadAt (hsub : s.sub = .MEM) (k : Int) (id : Nat) : SubStepFrame s (memReadAt s k id).2 := by
  cases hk : validIndex s.cfg k with
  | true => rw [memReadAt_valid id hk]; exact refl s
  | false => rw [memReadAt_invalid id hk]; exact logFault hsub .read k id

theorem memWriteAt (hsub : s.sub = .MEM) (k : Int) (v : Word) (id : Nat) : SubStepFrame s (memWriteAt s k v id) := by
  cases hk : validIndex s.cfg k with
  | true => rw [memWriteAt_valid v id hk]; exact setDm hsub k.toNat v
  | false => rw [memWriteAt_invalid v id hk]; exact logFault hsub .write k id

end SubStepFrame

theorem exec_frame {i : Instr} {s t : State} (h : exec i s = .next t) : SubStepFrame s t := by
  cases hsub : s.sub with
  | WB =>
    rcases exec_WB_next hsub h with ⟨-, rfl⟩ | ⟨r, -, rfl, -⟩ | ⟨r, rd, v, -, -, -, -, rfl⟩
    · exact .refl t
    · exact .retire hsub r
    · exact .setReg hsub (.retire hsub r) rd v
  | MEM =>
    rcases exec_MEM_next hsub h with ⟨-, rfl⟩ | ⟨r, -, -, rfl⟩ | ⟨r, k, -, -, -, rfl⟩ |
      ⟨r, rs2, rs1, imm, k, -, -, -, rfl⟩
    · exact .refl t
    · exact .memToWb (.refl s) r
    · exact .memToWb (.memReadAt hsub k r.id) _
    · exact .memToWb (.memWriteAt hsub k _ r.id) r
  | EX =>
    rcases exec_EX_next hsub h with ⟨-, rfl⟩ | ⟨r, v, -, -, rfl⟩ | ⟨r, ea, -, -, rfl⟩
    · exact .refl t
    · exact .exToMem s _
    · exact .exToMem s _
  | ID | IF =>
    rw [exec_front i (by simp [hsub])] at h
    cases h
    exact .refl s

/-! ### Registers and memory words one by one -/

theorem dm_of_DM {s t : State} (hc : t.cfg = s.cfg) (h : t.DM = s.DM) (k : Nat) : t.dm k = s.dm k := by
  simp [State.dm, hc, h]

@[simp] theorem memReadAt_cfg (s : State) (k : Int) (id : Nat) : (memReadAt s k id).2.cfg = s.cfg := by
  unfold memReadAt; split <;> rfl

@[simp] theorem memReadAt_DM (s : State) (k : Int) (id : Nat) : (memReadAt s k id).2.DM = s.DM := by
  unfold memReadAt; split <;> rfl

/-- Read after write, for an index of any kind: only a valid index is written (R55). -/
theorem dm_memWriteAt (s : State) (k : Int) (v : Word) (id j : Nat) :
    (memWriteAt s k v id).dm j = if (j : Int) = k ∧ validIndex s.cfg k = true then v else s.dm j := by
  cases hk : validIndex s.cfg k with
  | true =>
    have hjk : (j : Int) = k ↔ j = k.toNat := by rw [validIndex_iff] at hk; omega
    simp [memWriteAt_valid v id hk, dm_setDm, hjk]
  | false =>
    rw [memWriteAt_invalid v id hk]
    simp [State.dm]

/-- A register changes only in WB, and only if it is the instruction's `rd` (R24). -/
theorem exec_reg {i : Instr} {s t : State} (h : exec i s = .next t) {q : Reg}
    (hq : s.sub = .WB → i.rd? ≠ some q) : t.reg q = s.reg q := by
  by_cases hsub : s.sub = .WB
  · rcases exec_WB_next hsub h with ⟨-, rfl⟩ | ⟨r, -, rfl, -⟩ | ⟨r, rd, v, -, hrd, -, -, rfl⟩
    · rfl
    · rfl
    · have hne : q ≠ rd := fun e => hq hsub (e ▸ hrd)
      exact reg_setReg_ne (s.retire r) v hne
  · have hframe := exec_frame h
    exact reg_of_RF hframe.cfg (hframe.RF hsub) q

/-- A memory word changes only in MEM, and only at the index that the record of an SW carries (R29). -/
theorem exec_dm {i : Instr} {s t : State} (h : exec i s = .next t) {k : Nat}
    (hk : s.sub = .MEM → i.isSw = true → ∀ r, s.S.MEM = some r → r.idx ≠ some (k : Int)) : t.dm k = s.dm k := by
  by_cases hsub : s.sub = .MEM
  · rcases exec_MEM_next hsub h with ⟨-, rfl⟩ | ⟨r, -, -, rfl⟩ | ⟨r, j, -, -, -, rfl⟩ |
      ⟨r, rs2, rs1, imm, j, e, rfl, hj, rfl⟩
    · rfl
    · rfl
    · exact dm_of_DM (memReadAt_cfg s j r.id) (memReadAt_DM s j r.id) k
    · have hne : (k : Int) ≠ j := fun hkj => hk hsub rfl r e (hkj ▸ hj)
      exact (dm_memWriteAt s j _ r.id k).trans (by simp [hne])
  · have hframe := exec_frame h
    exact dm_of_DM hframe.cfg (hframe.DM hsub) k

/-! ### The stage sub-steps -/

/-- A stage sub-step that goes on is the occupant's instruction, or nothing. -/
theorem stageSubStep_next {st : Stage} {s t : State} (h : stageSubStep st s = .next t) :
    (s.S.get st = none ∧ t = s.enter st) ∨ ∃ r, s.S.get st = some r ∧ exec r.instr (s.enter st) = .next t := by
  cases e : s.S.get st with
  | none => rw [stageSubStep_empty e] at h; exact .inl ⟨rfl, by simpa using h.symm⟩
  | some r => rw [stageSubStep_occupied e] at h; exact .inr ⟨r, rfl, h⟩

theorem stageSubStep_frame {st : Stage} {s t : State} (h : stageSubStep st s = .next t) :
    SubStepFrame (s.enter st) t := by
  rcases stageSubStep_next h with ⟨-, rfl⟩ | ⟨r, -, hexec⟩
  · exact .refl _
  · exact exec_frame hexec

/-- The WB sub-step writes no register but the occupant's `rd`. -/
theorem stageSubStep_WB_reg {s t : State} (h : stageSubStep .WB s = .next t) {q : Reg}
    (hq : ∀ r, s.S.WB = some r → r.instr.rd? ≠ some q) : t.reg q = s.reg q := by
  rcases stageSubStep_next h with ⟨-, rfl⟩ | ⟨r, e, hexec⟩
  · rfl
  · exact exec_reg hexec fun _ => hq r e

/-- The WB sub-step of a record with a destination that is not `ZERO` and with a result. -/
theorem stageSubStep_WB_commit {s : State} {r : Record} {rd : Reg} {v : Word} (e : s.S.WB = some r)
    (hrd : r.instr.rd? = some rd) (hz : rd ≠ s.cfg.zero) (hv : r.result = some v) :
    stageSubStep .WB s = .next (((s.enter .WB).retire r).setReg rd v) := by
  rw [stageSubStep_occupied (st := .WB) e, exec_at_WB _ e, hrd]
  exact wbCommit_value hz hv

/-- The WB sub-step empties WB and moves nothing. -/
theorem stageSubStep_WB_S {s t : State} (h : stageSubStep .WB s = .next t) : t.S = { s.S with WB := none } := by
  rcases stageSubStep_WB_next h with ⟨e, rfl⟩ | ⟨r, -, rfl, -⟩ | ⟨r, rd, v, -, -, -, -, rfl⟩
  · simp [← e]
  · rfl
  · rfl

/-- The WB sub-step appends the occupant, as it stands, to the completed log (R35, R105). -/
theorem stageSubStep_WB_L {s t : State} (h : stageSubStep .WB s = .next t) : t.L = s.L ++ s.S.WB.toList := by
  rcases stageSubStep_WB_next h with ⟨e, rfl⟩ | ⟨r, e, rfl, -⟩ | ⟨r, rd, v, e, -, -, -, rfl⟩ <;> simp [e]

/-- The MEM sub-step changes no word but the one at the index of an SW. -/
theorem stageSubStep_MEM_dm {s t : State} (h : stageSubStep .MEM s = .next t) {k : Nat}
    (hk : ∀ r, s.S.MEM = some r → r.instr.isSw = true → r.idx ≠ some (k : Int)) : t.dm k = s.dm k := by
  rcases stageSubStep_next h with ⟨-, rfl⟩ | ⟨r, e, hexec⟩
  · rfl
  · refine exec_dm hexec fun _ hsw r' e' => ?_
    obtain rfl : r = r' := Option.some.inj (e.symm.trans e')
    exact hk r e hsw

/-- The MEM sub-step of an SW with a word index. -/
theorem stageSubStep_MEM_store {s : State} {r : Record} {rs2 rs1 : Reg} {imm : Imm} {k : Int} (e : s.S.MEM = some r)
    (hi : r.instr = .sw rs2 rs1 imm) (hk : r.idx = some k) :
    stageSubStep .MEM s =
      .next ((memWriteAt (s.enter .MEM) k (resolve (s.enter .MEM) rs2 .MEM 0) r.id).memToWb r) := by
  rw [stageSubStep_occupied (st := .MEM) e, exec_at_MEM _ e, hi]
  simp only [memStore, hk]

/-- The MEM sub-step keeps the canonical form of the memory. -/
theorem stageSubStep_MEM_wf {s t : State} (h : stageSubStep .MEM s = .next t) (hwf : Memory.wf s.cfg s.DM = true) :
    Memory.wf t.cfg t.DM = true := by
  rcases stageSubStep_MEM_next h with ⟨-, rfl⟩ | ⟨r, -, -, rfl⟩ | ⟨r, k, -, -, -, rfl⟩ |
    ⟨r, rs2, rs1, imm, k, -, -, -, rfl⟩
  · exact hwf
  · exact hwf
  · simpa using hwf
  · exact memWriteAt_wf k _ r.id hwf

/-! ### The fault log -/

theorem memReadAt_F (s : State) (k : Int) (id : Nat) :
    (memReadAt s k id).2.F = if validIndex s.cfg k then s.F else s.F ++ [⟨s.cyc + 1, .read, k, id⟩] := by
  unfold memReadAt; split <;> rfl

theorem memWriteAt_F (s : State) (k : Int) (v : Word) (id : Nat) :
    (memWriteAt s k v id).F = if validIndex s.cfg k then s.F else s.F ++ [⟨s.cyc + 1, .write, k, id⟩] := by
  unfold memWriteAt; split <;> rfl

/-- The MEM sub-step logs exactly the invalid access of an LW or SW that stands in MEM (R38, R54, R55). -/
theorem stageSubStep_MEM_F {s t : State} (h : stageSubStep .MEM s = .next t) :
    (t.F = s.F ∧ ∀ m, s.S.MEM = some m → m.instr.isAlu = true) ∨
    (∃ m k, s.S.MEM = some m ∧ m.instr.isAlu = false ∧ m.idx = some k ∧
      t.F = if validIndex s.cfg k then s.F
        else s.F ++ [⟨s.cyc + 1, if m.instr.isLw then .read else .write, k, m.id⟩]) := by
  rcases stageSubStep_MEM_next h with ⟨e, rfl⟩ | ⟨r, e, halu, rfl⟩ | ⟨r, k, e, hlw, hk, rfl⟩ |
    ⟨r, rs2, rs1, imm, k, e, hi, hk, rfl⟩
  · exact .inl ⟨rfl, by simp [e]⟩
  · exact .inl ⟨rfl, by rw [e]; rintro m ⟨⟩; exact halu⟩
  · have halu : r.instr.isAlu = false := by
      cases hi : r.instr <;> simp_all [Instr.isAlu, Instr.isLw]
    exact .inr ⟨r, k, e, halu, hk, by rw [hlw]; exact memReadAt_F (s.enter .MEM) k r.id⟩
  · exact .inr ⟨r, k, e, by simp [hi, Instr.isAlu], hk, by rw [hi]; exact memWriteAt_F (s.enter .MEM) k _ r.id⟩

/-! ### STEP -/

/-- Registers and completed log of a STEP are those its WB sub-step leaves, memory and fault log those its MEM sub-step
leaves, and the parameters stay. -/
theorem clock_next {s t : State} (h : clock s = .next t) :
    ∃ s1 s2, stageSubStep .WB s.clearOut = .next s1 ∧ stageSubStep .MEM s1 = .next s2 ∧
      t.cfg = s.cfg ∧ t.RF = s1.RF ∧ t.L = s1.L ∧ t.DM = s2.DM ∧ t.F = s2.F := by
  obtain ⟨s1, s2, s3, hwb, hmem, hex, rfl⟩ := clock_eq_next.mp h
  have fwb := stageSubStep_frame hwb
  have fmem := stageSubStep_frame hmem
  have fex := stageSubStep_frame hex
  refine ⟨s1, s2, hwb, hmem, ?_, ?_, ?_, ?_, ?_⟩
  · simpa using fex.cfg.trans (fmem.cfg.trans fwb.cfg)
  · simpa using (fex.RF nofun).trans (fmem.RF nofun)
  · simpa using (fex.L nofun).trans (fmem.L nofun)
  · simpa using fex.DM nofun
  · simpa using fex.F nofun

/-- A clock edge is a command on the state, but for the host's list. -/
theorem step_eq_command (s : State) : ∃ c cs, step s = command c { s with host := cs } := by
  cases e : s.host with
  | nil => exact ⟨.step, s.host, step_idle e⟩
  | cons c cs => exact ⟨c, cs, step_command e⟩

/-- SUBMIT touches neither the parameters nor the memory (R102). -/
theorem submit_cfg_DM (w : BitVec 32) (s : State) : (submit w s).cfg = s.cfg ∧ (submit w s).DM = s.DM := by
  rcases submit_cases w s with h | h | ⟨i, -, -, h⟩ <;> rw [h] <;> exact ⟨rfl, rfl⟩

/-- No command changes a parameter (R20). -/
theorem command_cfg {c : Command} {s t : State} (h : command c s = .next t) : t.cfg = s.cfg := by
  cases c with
  | none => cases h; rfl
  | submit w => cases h; exact (submit_cfg_DM w s).1
  | step =>
    obtain ⟨s1, s2, -, -, hcfg, -⟩ := clock_next h
    exact hcfg
  | reset => cases h; rfl

/-- Every command keeps the canonical form of the memory. -/
theorem command_wf {c : Command} {s t : State} (h : command c s = .next t) (hwf : Memory.wf s.cfg s.DM = true) :
    Memory.wf t.cfg t.DM = true := by
  cases c with
  | none => cases h; exact hwf
  | submit w =>
    cases h
    obtain ⟨hcfg, hDM⟩ := submit_cfg_DM w s
    rwa [hcfg, hDM]
  | step =>
    obtain ⟨s1, s2, hwb, hmem, hcfg, -, -, hDM, -⟩ := clock_next h
    have fwb := stageSubStep_frame hwb
    have fmem := stageSubStep_frame hmem
    have hwf1 : Memory.wf s1.cfg s1.DM = true := by rw [fwb.cfg, fwb.DM nofun]; exact hwf
    have hcfg2 : s2.cfg = s.cfg := fmem.cfg.trans fwb.cfg
    rw [hcfg, hDM, ← hcfg2]
    exact stageSubStep_MEM_wf hmem hwf1
  | reset => cases h; exact initial_wf s.cfg

/-! ### The forwarding unit reads parameters, registers, memory and stages only -/

theorem resolveWithin_congr {s t : State} (hcfg : t.cfg = s.cfg) (hRF : t.RF = s.RF) (hDM : t.DM = s.DM)
    (hS : t.S = s.S) (n : Nat) (r : Reg) (c : Stage) : resolveWithin n t r c = resolveWithin n s r c := by
  have hreg : t.reg = s.reg := funext (reg_of_RF hcfg hRF)
  have hdm : t.dm = s.dm := funext (dm_of_DM hcfg hDM)
  have hpeek : peek t = peek s := by funext k; simp only [peek, hcfg, hdm]
  have hproducerAt : producerAt t = producerAt s := by funext r c st; simp only [producerAt, hcfg, hS]
  have hproducer : producer t = producer s := by funext r c; simp only [producer, hproducerAt]
  induction n generalizing r c with
  | zero => simp only [resolveWithin, hcfg, hreg]
  | succ n ih => simp only [resolveWithin, hcfg, hreg, hpeek, hproducer, ih]

@[simp] theorem resolve_enter (s : State) (st : Stage) (r : Reg) (c : Stage) (d : Nat) :
    resolve (s.enter st) r c d = resolve s r c d :=
  resolveWithin_congr (s := s) (t := s.enter st) rfl rfl rfl rfl _ r c

end Sys2Proof.Machine
end

section
/-! Proofs of the statements of 10_state.md about commands: what an instruction, a STEP and a clock edge change in the
registers, the memory, the logs and the parameters (R20 to R38). -/

namespace Sys2Proof.Machine

/-- Settles O19: the frame of the sub-step, with the register and the memory word that may change. -/
theorem instructionFrame : Obligations.InstructionFrame := by
  intro i s t h
  have f := exec_frame h
  exact ⟨fun _ => exec_reg h, fun _ => exec_dm h, f.L, f.F, f.cfg, f.IF, f.ID, f.Q, f.cyc, f.nextId, f.sub, f.host,
    f.subResp⟩

/-- Settles O20, by the laws of read after write. -/
theorem registerPrimitives : Obligations.RegisterPrimitives := by
  intro s v
  refine ⟨reg_zero s, ?_, ?_, fun r q hne => reg_setReg_ne s v hne, fun _ => rfl⟩
  · simp [State.setReg]
  · intro r u hr hu
    have hlen : r.val < s.RF.length := (List.getElem?_eq_some_iff.mp hu).1
    refine ⟨?_, ?_, ?_⟩
    · simp [State.reg, regGet, hr, List.getD_eq_getElem?_getD, hu]
    · simp [reg_setReg r v hlen, hr]
    · simp [regSet, hr, hlen]

/-- Settles O21: after its WB sub-step a STEP writes no register. -/
theorem stepWritesOnlyTheRetiringRegister : Obligations.StepWritesOnlyTheRetiringRegister := by
  intro s t hhost hstep q
  rw [step_idle hhost] at hstep
  obtain ⟨s1, s2, hwb, -, hcfg, hRF, -⟩ := clock_next hstep
  have hcfg1 : s1.cfg = s.cfg := (stageSubStep_frame hwb).cfg
  have hreg : t.reg q = s1.reg q := reg_of_RF (hcfg.trans hcfg1.symm) hRF q
  refine ⟨?_, ?_, ?_⟩
  · intro r v e hrd hz hlen hv
    rw [stageSubStep_WB_commit (s := s.clearOut) e hrd hz hv] at hwb
    cases hwb
    rw [hreg, reg_setReg q v (by simpa using hlen)]
    simp [hz]
  · intro hq
    exact hreg.trans (stageSubStep_WB_reg hwb hq)
  · rintro rfl
    rw [← hcfg]
    exact reg_zero t

/-- Settles O22: the MEM sub-step is the only one that writes memory, and the WB sub-step has moved nothing in front of
it. -/
theorem stepWritesOnlyTheStoredWord : Obligations.StepWritesOnlyTheStoredWord := by
  intro s t hhost hstep k
  rw [step_idle hhost] at hstep
  obtain ⟨s1, s2, hwb, hmem, hcfg, -, -, hDM, -⟩ := clock_next hstep
  have fwb := stageSubStep_frame hwb
  have hcfg1 : s1.cfg = s.cfg := fwb.cfg
  have hMEM : s1.S.MEM = s.S.MEM := by rw [stageSubStep_WB_S hwb]; rfl
  have hdm : t.dm k = s2.dm k :=
    dm_of_DM (hcfg.trans ((stageSubStep_frame hmem).cfg.trans fwb.cfg).symm) hDM k
  refine ⟨?_, ?_⟩
  · intro r rs2 rs1 imm s1' e hi hidx hk hwb'
    obtain rfl : s1 = s1' := by simpa [hwb] using hwb'
    have hvalid : validIndex s1.cfg k = true := by rw [validIndex_iff, hcfg1]; omega
    rw [stageSubStep_MEM_store (hMEM.trans e) hi hidx] at hmem
    cases hmem
    calc t.dm k = (memWriteAt (s1.enter .MEM) k (resolve (s1.enter .MEM) rs2 .MEM 0) r.id).dm k := hdm
      _ = resolve s1 rs2 .MEM 0 := by simp [dm_memWriteAt, hvalid]
  · intro hk
    rw [← hMEM] at hk
    calc t.dm k = s2.dm k := hdm
      _ = s1.dm k := stageSubStep_MEM_dm hmem hk
      _ = s.dm k := dm_of_DM hcfg1 (fwb.DM nofun) k

/-- Settles O29: the completed log grows in WB only and the fault log in MEM only. -/
theorem stepLogsExactly : Obligations.StepLogsExactly := by
  intro s t hhost hstep
  rw [step_idle hhost] at hstep
  obtain ⟨s1, s2, hwb, hmem, -, -, hL, -, hF⟩ := clock_next hstep
  have fwb := stageSubStep_frame hwb
  have hF1 : s1.F = s.F := fwb.F nofun
  have hcyc : s1.cyc = s.cyc := fwb.cyc
  have hcfg : s1.cfg = s.cfg := fwb.cfg
  have hMEM : s1.S.MEM = s.S.MEM := by rw [stageSubStep_WB_S hwb]; rfl
  have hlog := stageSubStep_MEM_F hmem
  rw [hMEM, hF1, hcyc, hcfg, ← hF] at hlog
  refine ⟨hL.trans (stageSubStep_WB_L (s := s.clearOut) hwb), ?_, ?_⟩
  · intro m k e halu hk hinvalid
    rcases hlog with ⟨-, hAlu⟩ | ⟨m', k', e', -, hk', hlog⟩
    · exact absurd (hAlu m e) (by simp [halu])
    · obtain rfl : m = m' := Option.some.inj (e.symm.trans e')
      obtain rfl : k = k' := Option.some.inj (hk.symm.trans hk')
      rw [hlog, if_neg (by rwa [validIndex_iff])]
  · intro hvalid
    rcases hlog with ⟨hlog, -⟩ | ⟨m, k, e, halu, hk, hlog⟩
    · exact hlog
    · rw [hlog, if_pos ((validIndex_iff s.cfg k).mpr (hvalid m k e halu hk))]

/-- Settles O48: every command keeps the canonical form, and the memory of RESET has it. -/
theorem memoryStaysCanonical : Obligations.MemoryStaysCanonical := by
  refine ⟨fun s t hwf hstep => ?_, initial_wf Config.reference⟩
  obtain ⟨c, cs, hc⟩ := step_eq_command s
  exact command_wf (hc.symm.trans hstep) hwf

/-- Settles O49: a clock edge is a command, and no command changes a parameter. -/
theorem parametersNeverChange : Obligations.ParametersNeverChange := by
  intro s t hstep
  obtain ⟨c, cs, hc⟩ := step_eq_command s
  exact command_cfg (s := { s with host := cs }) (hc.symm.trans hstep)

end Sys2Proof.Machine
end

section
/-! Proofs of the statements about the state at power-on and after RESET (10_state.md R39, 70_reset_and_hazards.md R230,
R234): its values, and that it meets the invariant. -/

namespace Sys2Proof.Machine

/-! ### The records of a program -/

theorem mem_numbered {r : Record} {n : Nat} {p : List Instr} (h : r ∈ numbered n p) :
    ∃ k, ∃ i ∈ p, r = Record.fresh k i := by
  induction p generalizing n with
  | nil => cases h
  | cons i p ih =>
    rcases List.mem_cons.mp h with rfl | h
    · exact ⟨n, i, by simp, rfl⟩
    · obtain ⟨k, j, hj, rfl⟩ := ih h
      exact ⟨k, j, by simp [hj], rfl⟩

/-- The ids of a program's records count up (R37). -/
theorem map_id_numbered (n : Nat) (p : List Instr) : (numbered n p).map Record.id = List.range' n p.length := by
  induction p generalizing n with
  | nil => rfl
  | cons i p ih => simp [numbered, Record.fresh, List.range'_succ, ih]

theorem length_numbered (n : Nat) (p : List Instr) : (numbered n p).length = p.length := by
  simpa using congrArg List.length (map_id_numbered n p)

/-! ### The values of the reset table -/

theorem initial_reg {c : Config} {r : Reg} {v : Word} (hr : r ≠ c.zero) (hv : c.resetRegs[r.val]? = some v) :
    (State.initial c).reg r = v := by
  have hne : c.zero.val ≠ r.val := fun e => hr (Fin.ext e.symm)
  simp [State.reg, State.initial, regGet, hr, List.getD_eq_getElem?_getD, List.getElem?_set_ne hne, hv]

theorem initial_dm {c : Config} {k : Nat} {v : Word} (hv : c.resetMem[k]? = some v) : (State.initial c).dm k = v := by
  simp [State.dm, State.initial, memGet, Config.resetWord, List.getD_eq_getElem?_getD, hv]

/-- Power-on is RESET (R234), but for the host's list. -/
theorem powerOn_or_reset {c : Config} {s : State}
    (h : s = State.initial c ∨ ∃ u : State, u.cfg = c ∧ command .reset u = .next s) :
    ∃ cs, s = { State.initial c with host := cs } := by
  rcases h with rfl | ⟨u, rfl, hu⟩
  · exact ⟨[], rfl⟩
  · cases hu; exact ⟨u.host, rfl⟩

/-- Settles O6: each entry of the table is read off the reset state; no entry depends on the host's list. -/
theorem powerOnValues : Obligations.PowerOnValues := by
  refine ⟨?_, rfl, by decide⟩
  intro c hz h1 h2 h5 h6 hm hp s hs
  obtain ⟨cs, rfl⟩ := powerOn_or_reset hs
  have hreg (r : Reg) (v : Word) (hr : r ≠ 0) (hv : c.resetRegs[r.val]? = some v) : (State.initial c).reg r = v :=
    initial_reg (hz ▸ hr) hv
  have hzero : (State.initial c).reg 0 = 0 := hz ▸ reg_zero (State.initial c)
  have hQ : numbered 0 c.defaultProg = numbered 0 defaultProgram := by rw [hp]
  have hlen : c.defaultProg.length = 5 := by rw [hp]; rfl
  exact ⟨hzero, hreg 1 15 (by decide) h1, hreg 2 200 (by decide) h2, hreg 5 25 (by decide) h5, hreg 6 30 (by decide) h6,
    initial_dm hm, hreg, fun _ _ => initial_dm, rfl, hQ, rfl, rfl, hlen, rfl⟩

/-! ### The invariant at reset -/

/-- In the reset state every accepted record waits in the queue. -/
theorem initial_accepted (c : Config) : (State.initial c).accepted = numbered 0 c.defaultProg := rfl

theorem initial_RF_length (c : Config) : (State.initial c).RF.length = c.resetRegs.length := List.length_set

theorem initial_RF_zero (c : Config) : (State.initial c).RF.getD c.zero.val 0 = 0 := by
  simp only [State.initial, List.getD_eq_getElem?_getD, List.getElem?_set_self']
  cases c.resetRegs[c.zero.val]? <;> rfl

/-- Every register of the reset state is a word. -/
theorem initial_RF_sized {c : Config} (h : c.resetRegs.all (inWidth c.xlen) = true) :
    (State.initial c).RF.all (inWidth c.xlen) = true := by
  rw [List.all_eq_true] at h ⊢
  intro v hv
  rcases List.mem_or_eq_of_mem_set hv with hv | rfl
  · exact h v hv
  · exact inWidth_zero c.xlen

theorem initial_inOrder (c : Config) : (State.initial c).InOrder := by
  rw [State.InOrder, initial_accepted, map_id_numbered, List.range_eq_range']
  rfl

theorem initial_named {c : Config} (h : c.defaultProg.all (Instr.wellFormed c.nreg c.immW) = true) :
    (State.initial c).Named := by
  intro r hr
  rw [initial_accepted] at hr
  obtain ⟨k, i, hi, rfl⟩ := mem_numbered hr
  exact List.all_eq_true.mp h i hi

theorem initial_sized {c : Config} (h : c.resetRegs.all (inWidth c.xlen) = true) : (State.initial c).Sized := by
  refine ⟨initial_RF_sized h, nofun, fun r hr => ?_⟩
  rw [initial_accepted] at hr
  obtain ⟨k, i, -, rfl⟩ := mem_numbered hr
  rfl

/-- The reset state of an admissible configuration meets the invariant. -/
theorem initial_inv {c : Config} (hc : c.Valid) : (State.initial c).Inv := by
  have ⟨_, _, _, _, _, _, _, _, hfits, hlen, hregs, _, _, _, hprog⟩ := hc
  have hqueue : ∀ r ∈ numbered 0 c.defaultProg, r.blank = true ∧ r.stall = false := by
    intro r hr
    obtain ⟨k, i, -, rfl⟩ := mem_numbered hr
    exact ⟨rfl, rfl⟩
  have hcapacity : c.fits (numbered 0 c.defaultProg).length = true := by rwa [length_numbered]
  exact ⟨hc, rfl, (initial_RF_length c).trans hlen, initial_RF_zero c, initial_wf c, ⟨nofun, nofun, nofun, nofun, nofun⟩,
    hqueue, hcapacity, nofun, initial_inOrder c, initial_named hprog, initial_sized hregs, nofun, .nil⟩

/-- Settles O45: R10 gives what the invariant asks of the registers, the queue and the program; the reference configuration
meets R10. -/
theorem invAtReset : Obligations.InvAtReset :=
  ⟨fun _ hc => initial_inv hc, initial_inv (c := Config.reference) (by decide)⟩

end Sys2Proof.Machine
end

section
/-! Where a STEP moves the occupants of EX and MEM, what a load brings along, and when a STEP goes on (40_pipeline.md R105
to R107, R132, R133). -/

namespace Sys2Proof.Machine

/-! ### Word indices and loads -/

theorem validIndex_eq_false {c : Config} {k : Int} (h : ¬(0 ≤ k ∧ k < (c.memWords : Int))) : validIndex c k = false := by
  rwa [← Bool.not_eq_true, validIndex_iff]

theorem validIndex_natCast {c : Config} {k : Nat} (h : k < c.memWords) : validIndex c k = true := by
  rw [validIndex_iff]; omega

theorem isLw_iff {i : Instr} : i.isLw = true ↔ ∃ rd rs1 imm, i = .lw rd rs1 imm := by
  cases i <;> simp [Instr.isLw]

/-! ### The stage holders after an access and after the front end -/

@[simp] theorem memReadAt_S (s : State) (k : Int) (id : Nat) : (memReadAt s k id).2.S = s.S := by
  unfold memReadAt; split <;> rfl

@[simp] theorem memWriteAt_S (s : State) (k : Int) (v : Word) (id : Nat) : (memWriteAt s k v id).S = s.S := by
  unfold memWriteAt; split <;> rfl

section FrontEnd

variable (s : State)

@[simp] theorem idToEx_MEM (h : Bool) : (idToEx h s).S.MEM = s.S.MEM := by
  unfold idToEx; repeat' split
  all_goals rfl

@[simp] theorem idToEx_WB (h : Bool) : (idToEx h s).S.WB = s.S.WB := by
  unfold idToEx; repeat' split
  all_goals rfl

@[simp] theorem ifToId_MEM : (ifToId s).S.MEM = s.S.MEM := by
  unfold ifToId; repeat' split
  all_goals rfl

@[simp] theorem ifToId_WB : (ifToId s).S.WB = s.S.WB := by
  unfold ifToId; repeat' split
  all_goals rfl

@[simp] theorem fetch_MEM : (fetch s).S.MEM = s.S.MEM := by
  unfold fetch; split <;> rfl

@[simp] theorem fetch_WB : (fetch s).S.WB = s.S.WB := by
  unfold fetch; split <;> rfl

@[simp] theorem advance_MEM (x : Option Record) : (advance x s).S.MEM = s.S.MEM := by simp [advance]

@[simp] theorem advance_WB (x : Option Record) : (advance x s).S.WB = s.S.WB := by simp [advance]

end FrontEnd

/-! ### The moves of the MEM and EX sub-steps -/

theorem stageSubStep_MEM_EX {s t : State} (h : stageSubStep .MEM s = .next t) : t.S.EX = s.S.EX := by
  rcases stageSubStep_MEM_next h with ⟨-, rfl⟩ | ⟨r, -, -, rfl⟩ | ⟨r, k, -, -, -, rfl⟩ |
    ⟨r, rs2, rs1, imm, k, -, -, -, rfl⟩ <;> simp

/-- The MEM sub-step moves its occupant to WB (R106). -/
theorem stageSubStep_MEM_moves {s t : State} (h : stageSubStep .MEM s = .next t) {r : Record} (e : s.S.MEM = some r) :
    ∃ p, t.S.WB = some p ∧ p.id = r.id ∧ p.instr = r.instr := by
  rcases stageSubStep_MEM_next h with ⟨e', -⟩ | ⟨r', e', -, rfl⟩ | ⟨r', k, e', -, -, rfl⟩ |
    ⟨r', rs2, rs1, imm, k, e', -, -, rfl⟩ <;> cases e.symm.trans e' <;> exact ⟨_, rfl, rfl, rfl⟩

/-- The MEM sub-step of an LW with a word index. -/
theorem stageSubStep_MEM_load {s : State} {r : Record} {k : Int} (e : s.S.MEM = some r) (hlw : r.instr.isLw = true)
    (hk : r.idx = some k) :
    stageSubStep .MEM s =
      .next ((memReadAt (s.enter .MEM) k r.id).2.memToWb
        { r with result := some (memReadAt (s.enter .MEM) k r.id).1 }) := by
  obtain ⟨rd, rs1, imm, hi⟩ := isLw_iff.mp hlw
  rw [stageSubStep_occupied (st := .MEM) e, exec_at_MEM _ e]
  simp only [hi, memLoad, hk]

theorem stageSubStep_EX_WB {s t : State} (h : stageSubStep .EX s = .next t) : t.S.WB = s.S.WB := by
  rcases stageSubStep_EX_next h with ⟨-, rfl⟩ | ⟨r, v, -, -, rfl⟩ | ⟨r, ea, -, -, rfl⟩ <;> rfl

/-- The EX sub-step moves its occupant to MEM, an LW or SW with a word index (R107). -/
theorem stageSubStep_EX_moves {s t : State} (h : stageSubStep .EX s = .next t) {r : Record} (e : s.S.EX = some r) :
    ∃ p, t.S.MEM = some p ∧ p.id = r.id ∧ p.instr = r.instr ∧ (r.instr.isAlu = false → p.idx.isSome = true) := by
  rcases stageSubStep_EX_next h with ⟨e', -⟩ | ⟨r', v, e', halu, rfl⟩ | ⟨r', ea, e', -, rfl⟩
  · cases e.symm.trans e'
  · cases e.symm.trans e'
    exact ⟨_, rfl, rfl, rfl, by simp [halu]⟩
  · cases e.symm.trans e'
    exact ⟨_, rfl, rfl, rfl, fun _ => rfl⟩

/-! ### When a sub-step and a STEP go on -/

/-- A record that has left MEM holds the value of the register it writes (R132). -/
theorem result_isSome_of_complete {r : Record} {rd : Reg} (h : r.complete = true) (hrd : r.instr.rd? = some rd) :
    r.result.isSome = true := by
  cases hi : r.instr <;> simp_all [Record.complete, Instr.isAlu, Instr.isLw, Instr.rd?]

/-- The WB sub-step goes on unless the value to write is missing (R133). -/
theorem stageSubStep_WB_total {s : State}
    (h : ∀ r, s.S.WB = some r → ∀ rd, r.instr.rd? = some rd → r.result.isSome = true) :
    ∃ t, stageSubStep .WB s = .next t := by
  cases e : s.S.WB with
  | none => exact ⟨_, stageSubStep_empty (st := .WB) e⟩
  | some r =>
    rw [stageSubStep_occupied (st := .WB) e, exec_at_WB _ e]
    cases hrd : r.instr.rd? with
    | none => exact ⟨_, rfl⟩
    | some rd =>
      by_cases hz : rd = s.cfg.zero
      · subst hz; exact ⟨_, wbCommit_zero r (s.enter .WB)⟩
      · obtain ⟨v, hv⟩ := Option.isSome_iff_exists.mp (h r e rd hrd)
        exact ⟨_, wbCommit_value (s := s.enter .WB) hz hv⟩

/-- The MEM sub-step goes on unless the index of an LW or SW is missing. -/
theorem stageSubStep_MEM_total {s : State}
    (h : ∀ r, s.S.MEM = some r → r.instr.isAlu = false → r.idx.isSome = true) :
    ∃ t, stageSubStep .MEM s = .next t := by
  cases e : s.S.MEM with
  | none => exact ⟨_, stageSubStep_empty (st := .MEM) e⟩
  | some r =>
    have hidx := h r e
    cases hi : r.instr with
    | lw rd rs1 imm =>
      obtain ⟨k, hk⟩ := Option.isSome_iff_exists.mp (hidx (by simp [hi, Instr.isAlu]))
      exact ⟨_, stageSubStep_MEM_load e (by simp [hi, Instr.isLw]) hk⟩
    | sw rs2 rs1 imm =>
      obtain ⟨k, hk⟩ := Option.isSome_iff_exists.mp (hidx (by simp [hi, Instr.isAlu]))
      exact ⟨_, stageSubStep_MEM_store e hi hk⟩
    | _ =>
      rw [stageSubStep_occupied (st := .MEM) e, exec_at_MEM _ e, hi]
      exact ⟨_, rfl⟩

/-- A STEP goes on unless one of the two values is missing: the WB sub-step leaves MEM alone, and EX always goes on. -/
theorem clock_total {s : State} (hWB : ∀ r, s.S.WB = some r → ∀ rd, r.instr.rd? = some rd → r.result.isSome = true)
    (hMEM : ∀ r, s.S.MEM = some r → r.instr.isAlu = false → r.idx.isSome = true) : ∃ t, clock s = .next t := by
  obtain ⟨s1, hwb⟩ := stageSubStep_WB_total (s := s.clearOut) hWB
  obtain ⟨s2, hmem⟩ := stageSubStep_MEM_total (s := s1) (by rw [stageSubStep_WB_S hwb]; exact hMEM)
  obtain ⟨s3, hex⟩ := stageSubStep_EX_total s2
  exact ⟨_, clock_eq_next.mpr ⟨s1, s2, s3, hwb, hmem, hex, rfl⟩⟩

/-! ### The moves of a STEP -/

theorem clock_host {s t : State} (h : clock s = .next t) : t.host = s.host := by
  obtain ⟨s1, s2, s3, hwb, hmem, hex, rfl⟩ := clock_eq_next.mp h
  have hhost := (stageSubStep_frame hex).host.trans ((stageSubStep_frame hmem).host.trans (stageSubStep_frame hwb).host)
  simpa using hhost

/-- A STEP moves the occupant of MEM to WB. -/
theorem clock_moves_MEM {s t : State} (h : clock s = .next t) {r : Record} (e : s.S.MEM = some r) :
    ∃ p, t.S.WB = some p ∧ p.id = r.id ∧ p.instr = r.instr := by
  obtain ⟨s1, s2, s3, hwb, hmem, hex, rfl⟩ := clock_eq_next.mp h
  rw [advance_WB, stageSubStep_EX_WB hex]
  exact stageSubStep_MEM_moves hmem (by rw [stageSubStep_WB_S hwb]; exact e)

/-- A STEP moves the occupant of EX to MEM, an LW or SW with a word index. -/
theorem clock_moves_EX {s t : State} (h : clock s = .next t) {r : Record} (e : s.S.EX = some r) :
    ∃ p, t.S.MEM = some p ∧ p.id = r.id ∧ p.instr = r.instr ∧ (r.instr.isAlu = false → p.idx.isSome = true) := by
  obtain ⟨s1, s2, s3, hwb, hmem, hex, rfl⟩ := clock_eq_next.mp h
  rw [advance_MEM]
  exact stageSubStep_EX_moves hex (by rw [stageSubStep_MEM_EX hmem, stageSubStep_WB_S hwb]; exact e)

/-- A load of a valid index gets the word that stands in memory when the STEP begins (R54, R106). -/
theorem clock_load {s t : State} (h : clock s = .next t) {r : Record} {k : Nat} (e : s.S.MEM = some r)
    (hlw : r.instr.isLw = true) (hidx : r.idx = some (k : Int)) (hk : k < s.cfg.memWords) :
    t.S.WB = some { r with result := some (s.dm k) } := by
  obtain ⟨s1, s2, s3, hwb, hmem, hex, rfl⟩ := clock_eq_next.mp h
  have fwb := stageSubStep_frame hwb
  have hcfg : s1.cfg = s.cfg := fwb.cfg
  have hdm : s1.dm k = s.dm k := dm_of_DM hcfg (fwb.DM nofun) k
  have hvalid : validIndex (s1.enter .MEM).cfg k = true := validIndex_natCast (by simpa [hcfg] using hk)
  have hMEM : s1.S.MEM = some r := by rw [stageSubStep_WB_S hwb]; exact e
  rw [stageSubStep_MEM_load hMEM hlw hidx, memReadAt_valid r.id hvalid] at hmem
  cases hmem
  rw [advance_WB, stageSubStep_EX_WB hex, ← hdm]
  rfl

end Sys2Proof.Machine
end

section
/-! Proofs of the statements of 20_memory.md: the access primitives (R53 to R55), the word index of a byte address (R52,
R57), and a load behind a store (R63). -/

namespace Sys2Proof.Machine

/-- Settles O23: a valid access is a read or a write of the word, an invalid one is `logFault`. -/
theorem memoryAccessPrimitives : Obligations.MemoryAccessPrimitives := by
  refine ⟨validIndex_iff, ?_, ?_, ?_, ?_⟩
  · intro s k id hk
    exact memReadAt_valid id (validIndex_natCast hk)
  · intro s k id hk
    exact memReadAt_invalid id (validIndex_eq_false hk)
  · intro s k id v hk
    have hvalid : validIndex s.cfg k = true := validIndex_natCast hk
    refine ⟨by simp [dm_memWriteAt, hvalid], fun j hj => by simp [dm_memWriteAt, hj], ?_⟩
    rw [memWriteAt_valid v id hvalid]
    rfl
  · intro s k id v hk
    exact memWriteAt_invalid v id (validIndex_eq_false hk)

/-- R57: the four byte addresses of a word. -/
theorem wordIndex_eq_iff (ea k : Int) : wordIndex ea = k ↔ 4 * k ≤ ea ∧ ea ≤ 4 * k + 3 := by
  rw [wordIndex]; omega

/-- Settles O25: floor division by 4, and a negative address is below the memory. -/
theorem wordIndexOfByteAddress : Obligations.WordIndexOfByteAddress :=
  ⟨wordIndex_eq_iff, fun _ hneg _ => validIndex_wordIndex_eq_false (.inl hneg), fun _ => wordIndex_toInt⟩

/-- Settles O27: the first STEP stores the word and brings the LW to MEM; the second lets the SW retire and reads the word
back before anything writes memory again. -/
theorem loadReadsTheStoreAhead : Obligations.LoadReadsTheStoreAhead := by
  intro s m e rs2 rs1 imm k hinv hhost hm hi hidx hk he hlw
  obtain ⟨-, -, -, -, -, ⟨-, -, -, -, hcomplete⟩, -⟩ := hinv
  have hresult : ∀ r, s.S.WB = some r → ∀ rd, r.instr.rd? = some rd → r.result.isSome = true :=
    fun r hr rd => result_isSome_of_complete (hcomplete r hr)
  have halu : e.instr.isAlu = false := by
    obtain ⟨rd, base, off, he'⟩ := isLw_iff.mp hlw
    simp [he', Instr.isAlu]
  obtain ⟨t, hst⟩ := clock_total hresult (by rw [hm]; rintro r ⟨⟩ -; simp [hidx])
  obtain ⟨s1, s2, hwb, -, hcfg, -⟩ := clock_next hst
  have hstep : step s = .next t := (step_idle hhost).trans hst
  have hword : t.dm k = resolve s1 rs2 .MEM 0 :=
    (stepWritesOnlyTheStoredWord s t hhost hstep k).1 m rs2 rs1 imm s1 hm hi hidx hk hwb
  obtain ⟨l, hl, hlid, hlinstr, hlidx⟩ := clock_moves_EX hst he
  obtain ⟨w, hw, -, hwinstr⟩ := clock_moves_MEM hst hm
  obtain ⟨u, htu⟩ : ∃ u, clock t = .next u := by
    refine clock_total ?_ ?_
    · rw [hw]; rintro r ⟨⟩ rd hrd; simp [hwinstr, hi, Instr.rd?] at hrd
    · rw [hl]; rintro r ⟨⟩ -; exact hlidx halu
  have hstep' : step t = .next u := (step_idle ((clock_host hst).trans hhost)).trans htu
  refine ⟨s1, t, u, l, hwb, hstep, hl, hlid, hstep', hword, fun hlk => ?_⟩
  have hload := clock_load htu hl (hlinstr ▸ hlw) hlk (hcfg ▸ hk)
  exact ⟨_, hload, hlid, congrArg some hword⟩

end Sys2Proof.Machine
end

section
/-! Proofs of the statements of 30_encoding.md: a word decodes to an instruction exactly when it shows the fixed bits of
the instruction's row, holds its operands in the named fields and they are well-formed (R80); so decoder and encoder are
inverse to each other (R82). -/

namespace Sys2Proof

/-! ### Fields of a word -/

theorem regField_eq_iff {w : BitVec 32} {lo : Nat} {r : Reg} :
    regField w lo = r ↔ r.val = (w.extractLsb' lo 5).toNat :=
  Fin.ext_iff.trans eq_comm

/-- Writing back the register a field names gives the field. -/
theorem regBits_regField (w : BitVec 32) (lo : Nat) : regBits (regField w lo) = w.extractLsb' lo 5 :=
  (BitVec.ofNat_toNat ..).trans (BitVec.setWidth_eq _)

theorem immI_eq_iff {w : BitVec 32} {imm : Imm} : immI w = imm ↔ imm = (w.extractLsb 31 20).toInt := eq_comm

theorem immS_eq_iff {w : BitVec 32} {imm : Imm} :
    immS w = imm ↔ imm = (w.extractLsb 31 25 ++ w.extractLsb 11 7).toInt := eq_comm

theorem immBits_immI (w : BitVec 32) : immBits (immI w) = w.extractLsb' 20 12 := BitVec.ofInt_toInt

theorem immBits_immS (w : BitVec 32) : immBits (immS w) = w.extractLsb' 25 7 ++ w.extractLsb' 7 5 := BitVec.ofInt_toInt

/-- An immediate in the 12-bit range is the value of its field (R77, R78). -/
theorem toInt_immBits {imm : Imm} (h : inWidth 12 imm = true) : (immBits imm).toInt = imm :=
  Machine.wrap_of_inWidth h

/-- A field whose bits all stand in the mask of a pattern is, in a word of the pattern, the field of the match. -/
theorem field_of_pattern {w mask pat : BitVec 32} (h : w &&& mask = pat) {lo len : Nat} {x : BitVec len}
    (hx : mask.extractLsb' lo len = BitVec.allOnes len ∧ pat.extractLsb' lo len = x) : w.extractLsb' lo len = x := by
  obtain ⟨hmask, hpat⟩ := hx
  rw [← hpat, ← h, BitVec.extractLsb'_and, hmask, BitVec.and_allOnes]

/-- A word of one pattern is of no other that differs from it in a bit both masks look at. -/
theorem not_pattern_of_pattern {w m n a b : BitVec 32} (h : w &&& m = a) (hne : a &&& n ≠ b &&& m) :
    w &&& n ≠ b := by
  rintro rfl
  exact hne (by rw [← h, BitVec.and_assoc, BitVec.and_assoc, BitVec.and_comm m n])

/-- A word is its fields, high to low. -/
theorem append_fields (w : BitVec 32) :
    w.extractLsb' 25 7 ++ w.extractLsb' 20 5 ++ w.extractLsb' 15 5 ++ w.extractLsb' 12 3 ++ w.extractLsb' 7 5 ++
      w.extractLsb' 0 7 = w := by
  rw [BitVec.extractLsb'_append_extractLsb'_eq_extractLsb' (show 25 = 20 + 5 from rfl),
    BitVec.extractLsb'_append_extractLsb'_eq_extractLsb' (show 20 = 15 + 5 from rfl),
    BitVec.extractLsb'_append_extractLsb'_eq_extractLsb' (show 15 = 12 + 3 from rfl),
    BitVec.extractLsb'_append_extractLsb'_eq_extractLsb' (show 12 = 7 + 5 from rfl),
    BitVec.extractLsb'_append_extractLsb'_eq_extractLsb' (show 7 = 0 + 7 from rfl)]
  exact BitVec.extractLsb'_eq_self

/-! ### A word in each format, from its own fields -/

theorem formatR_fields {w : BitVec 32} {f op : BitVec 7} {g : BitVec 3} (hf : w.extractLsb' 25 7 = f)
    (hg : w.extractLsb' 12 3 = g) (hop : w.extractLsb' 0 7 = op) :
    formatR f (regField w 20) (regField w 15) g (regField w 7) op = w := by
  simp only [formatR, regBits_regField, ← hf, ← hg, ← hop]
  exact append_fields w

theorem formatI_fields {w : BitVec 32} {op : BitVec 7} {g : BitVec 3} (hg : w.extractLsb' 12 3 = g)
    (hop : w.extractLsb' 0 7 = op) : formatI (immBits (immI w)) (regField w 15) g (regField w 7) op = w := by
  have himm : w.extractLsb' 20 12 = w.extractLsb' 25 7 ++ w.extractLsb' 20 5 :=
    (BitVec.extractLsb'_append_extractLsb'_eq_extractLsb' (show 25 = 20 + 5 from rfl)).symm
  simp only [formatI, regBits_regField, immBits_immI, himm, ← hg, ← hop]
  exact append_fields w

theorem formatS_fields {w : BitVec 32} {op : BitVec 7} {g : BitVec 3} (hg : w.extractLsb' 12 3 = g)
    (hop : w.extractLsb' 0 7 = op) : formatS (immBits (immS w)) (regField w 20) (regField w 15) g op = w := by
  have hhigh : (immBits (immS w)).extractLsb' 5 7 = w.extractLsb' 25 7 := by
    rw [immBits_immS]; exact BitVec.extractLsb'_append_eq_left
  have hlow : (immBits (immS w)).extractLsb' 0 5 = w.extractLsb' 7 5 := by
    rw [immBits_immS]; exact BitVec.extractLsb'_append_eq_right
  simp only [formatS, regBits_regField, hhigh, hlow, ← hg, ← hop]
  exact append_fields w

/-! ### The operands of a word in each format -/

theorem extractLsb'_eq_of_bits {w : BitVec 32} {lo len : Nat} {x : BitVec len}
    (h : ∀ j, j < len → w.getLsbD (lo + j) = x.getLsbD j) : w.extractLsb' lo len = x := by
  refine BitVec.eq_of_getLsbD_eq fun j hj => ?_
  rw [BitVec.getLsbD_extractLsb', decide_eq_true hj, Bool.true_and, h j hj]

theorem regField_eq_of_bits {w : BitVec 32} {lo : Nat} {r : Reg}
    (h : ∀ j, j < 5 → w.getLsbD (lo + j) = (regBits r).getLsbD j) : regField w lo = r := by
  rw [regField, extractLsb'_eq_of_bits h, regBits_toFin]

theorem formatR_operands (f : BitVec 7) (rs2 rs1 rd : Reg) (g : BitVec 3) (op : BitVec 7) :
    regField (formatR f rs2 rs1 g rd op) 7 = rd ∧ regField (formatR f rs2 rs1 g rd op) 15 = rs1 ∧
      regField (formatR f rs2 rs1 g rd op) 20 = rs2 := by
  refine ⟨regField_eq_of_bits fun j hj => ?_, regField_eq_of_bits fun j hj => ?_,
    regField_eq_of_bits fun j hj => ?_⟩
  all_goals simp (disch := omega) only [formatR_bit, if_neg, if_pos, Nat.add_sub_cancel_left]

theorem formatI_operands (imm : BitVec 12) (rs1 rd : Reg) (g : BitVec 3) (op : BitVec 7) :
    regField (formatI imm rs1 g rd op) 7 = rd ∧ regField (formatI imm rs1 g rd op) 15 = rs1 ∧
      immI (formatI imm rs1 g rd op) = imm.toInt := by
  refine ⟨regField_eq_of_bits fun j hj => ?_, regField_eq_of_bits fun j hj => ?_,
    congrArg BitVec.toInt (extractLsb'_eq_of_bits fun j hj => ?_)⟩
  all_goals simp (disch := omega) only [formatI_bit, if_neg, if_pos, Nat.add_sub_cancel_left]

theorem formatS_operands (imm : BitVec 12) (rs2 rs1 : Reg) (g : BitVec 3) (op : BitVec 7) :
    regField (formatS imm rs2 rs1 g op) 20 = rs2 ∧ regField (formatS imm rs2 rs1 g op) 15 = rs1 ∧
      immS (formatS imm rs2 rs1 g op) = imm.toInt := by
  have hfields : regField (formatS imm rs2 rs1 g op) 20 = rs2 ∧ regField (formatS imm rs2 rs1 g op) 15 = rs1 ∧
      (formatS imm rs2 rs1 g op).extractLsb' 25 7 = imm.extractLsb' 5 7 ∧
      (formatS imm rs2 rs1 g op).extractLsb' 7 5 = imm.extractLsb' 0 5 := by
    refine ⟨regField_eq_of_bits fun j hj => ?_, regField_eq_of_bits fun j hj => ?_,
      extractLsb'_eq_of_bits fun j hj => ?_, extractLsb'_eq_of_bits fun j hj => ?_⟩
    all_goals simp (disch := omega) only [formatS_bit, if_neg, if_pos, Nat.add_sub_cancel_left]
  obtain ⟨hrs2, hrs1, hhigh, hlow⟩ := hfields
  refine ⟨hrs2, hrs1, ?_⟩
  rw [immS, hhigh, hlow, BitVec.extractLsb'_append_extractLsb'_eq_extractLsb' (show 5 = 0 + 5 from rfl)]
  exact congrArg BitVec.toInt BitVec.extractLsb'_eq_self

/-! ### The operand set of an instruction, read from a word -/

/-- The instruction of the same form whose operands are what the form's fields hold in `w` (R73 to R75, R77, R78). -/
def Instr.readFrom (w : BitVec 32) : Instr → Instr
  | .add _ _ _ => .add (regField w 7) (regField w 15) (regField w 20)
  | .sub _ _ _ => .sub (regField w 7) (regField w 15) (regField w 20)
  | .addi _ _ _ => .addi (regField w 7) (regField w 15) (immI w)
  | .lw _ _ _ => .lw (regField w 7) (regField w 15) (immI w)
  | .sw _ _ _ => .sw (regField w 20) (regField w 15) (immS w)

/-- `w` matches the row of R79 of the instruction's form. -/
def Instr.Matches (i : Instr) (w : BitVec 32) : Prop := w &&& rowMask i = rowMatch i

section Rows

variable {rd rs1 rs2 : Reg} {imm : Imm} {w : BitVec 32}

@[simp] theorem matches_add : (Instr.add rd rs1 rs2).Matches w ↔ w &&& 0xFE00707F#32 = 0x00000033#32 := Iff.rfl

@[simp] theorem matches_sub : (Instr.sub rd rs1 rs2).Matches w ↔ w &&& 0xFE00707F#32 = 0x40000033#32 := Iff.rfl

@[simp] theorem matches_addi : (Instr.addi rd rs1 imm).Matches w ↔ w &&& 0x0000707F#32 = 0x00000013#32 := Iff.rfl

@[simp] theorem matches_lw : (Instr.lw rd rs1 imm).Matches w ↔ w &&& 0x0000707F#32 = 0x00002003#32 := Iff.rfl

@[simp] theorem matches_sw : (Instr.sw rs2 rs1 imm).Matches w ↔ w &&& 0x0000707F#32 = 0x00002023#32 := Iff.rfl

end Rows

theorem matches_readFrom {i : Instr} {w : BitVec 32} : (i.readFrom w).Matches w ↔ i.Matches w := by
  cases i <;> rfl

theorem readFrom_readFrom (i : Instr) (w : BitVec 32) : (i.readFrom w).readFrom w = i.readFrom w := by
  cases i <;> rfl

/-- The fixed bits of every instruction, from the law of each (R79). -/
theorem encode_matches (i : Instr) : i.Matches (encode i) := by
  cases i with
  | add rd rs1 rs2 => exact Laws.FixedBits.add rd rs1 rs2
  | sub rd rs1 rs2 => exact Laws.FixedBits.sub rd rs1 rs2
  | addi rd rs1 imm => exact Laws.FixedBits.addi rd rs1 imm
  | lw rd rs1 imm => exact Laws.FixedBits.lw rd rs1 imm
  | sw rs2 rs1 imm => exact Laws.FixedBits.sw rs2 rs1 imm

/-- The encoded word holds every operand; only an immediate can be too large for its field. -/
theorem readFrom_encode {i : Instr} (himm : i.immFits 12 = true) : i.readFrom (encode i) = i := by
  cases i with
  | add | sub => simp only [Instr.readFrom, encode, formatR_operands]
  | addi | lw => simp only [Instr.readFrom, encode, formatI_operands, toInt_immBits himm]
  | sw => simp only [Instr.readFrom, encode, formatS_operands, toInt_immBits himm]

/-- A word that shows the fixed bits of a form is the encoding of the operands its fields hold. -/
theorem encode_readFrom {i : Instr} {w : BitVec 32} (h : i.Matches w) : encode (i.readFrom w) = w := by
  cases i with
  | add =>
    rw [matches_add] at h
    exact formatR_fields (field_of_pattern h (by decide)) (field_of_pattern h (by decide))
      (field_of_pattern h (by decide))
  | sub =>
    rw [matches_sub] at h
    exact formatR_fields (field_of_pattern h (by decide)) (field_of_pattern h (by decide))
      (field_of_pattern h (by decide))
  | addi =>
    rw [matches_addi] at h
    exact formatI_fields (field_of_pattern h (by decide)) (field_of_pattern h (by decide))
  | lw =>
    rw [matches_lw] at h
    exact formatI_fields (field_of_pattern h (by decide)) (field_of_pattern h (by decide))
  | sw =>
    rw [matches_sw] at h
    exact formatS_fields (field_of_pattern h (by decide)) (field_of_pattern h (by decide))

/-! ### The decoder -/

theorem wellFormed_iff {nreg immW : Nat} {i : Instr} :
    i.wellFormed nreg immW = true ↔
      (∀ r ∈ i.named, r.val < nreg) ∧ ∀ imm ∈ i.imm?, inWidth immW imm = true := by
  simp [Instr.wellFormed, Instr.registersExist, Instr.immFits, Option.all_eq_true]

theorem checkOperands_eq_ok_iff {nreg immW : Nat} {i j : Instr} :
    checkOperands nreg immW j = .ok i ↔ j = i ∧ i.wellFormed nreg immW = true := by
  rw [checkOperands, Instr.wellFormed]
  constructor
  · intro h
    split at h
    · split at h
      · cases h
        exact ⟨rfl, by simp [*]⟩
      · cases h
    · cases h
  · rintro ⟨rfl, h⟩
    obtain ⟨hregs, himm⟩ := Bool.and_eq_true_iff.mp h
    rw [if_pos hregs, if_pos himm]

/-- A word of a form reaches that form's operand check: it fails each test that stands before its own (R80). -/
theorem decode_of_matches {i : Instr} {w : BitVec 32} (nreg immW : Nat) (h : i.Matches w) :
    decode nreg immW w = checkOperands nreg immW (i.readFrom w) := by
  rw [decode]
  cases i with
  | add => exact if_pos h
  | sub =>
    rw [matches_sub] at h
    rw [if_neg (not_pattern_of_pattern h (by decide))]
    exact if_pos h
  | addi =>
    rw [matches_addi] at h
    iterate 2 rw [if_neg (not_pattern_of_pattern h (by decide))]
    exact if_pos h
  | lw =>
    rw [matches_lw] at h
    iterate 3 rw [if_neg (not_pattern_of_pattern h (by decide))]
    exact if_pos h
  | sw =>
    rw [matches_sw] at h
    iterate 4 rw [if_neg (not_pattern_of_pattern h (by decide))]
    exact if_pos h

/-- A word that decodes matches one of the five rows. -/
theorem exists_matches_of_decode {nreg immW : Nat} {w : BitVec 32} {i : Instr} (h : decode nreg immW w = .ok i) :
    ∃ j : Instr, j.Matches w := by
  rw [decode] at h
  split_ifs at h with hadd hsub haddi hlw hsw
  · exact ⟨.add 0 0 0, hadd⟩
  · exact ⟨.sub 0 0 0, hsub⟩
  · exact ⟨.addi 0 0 0, haddi⟩
  · exact ⟨.lw 0 0 0, hlw⟩
  · exact ⟨.sw 0 0 0, hsw⟩

/-- R80, said once for all five forms. -/
theorem decode_eq_ok_iff {nreg immW : Nat} {w : BitVec 32} {i : Instr} :
    decode nreg immW w = .ok i ↔ i.Matches w ∧ i.readFrom w = i ∧ i.wellFormed nreg immW = true := by
  constructor
  · intro h
    obtain ⟨j, hj⟩ := exists_matches_of_decode h
    rw [decode_of_matches nreg immW hj, checkOperands_eq_ok_iff] at h
    obtain ⟨rfl, hwf⟩ := h
    exact ⟨matches_readFrom.mpr hj, readFrom_readFrom j w, hwf⟩
  · rintro ⟨hmatch, hread, hwf⟩
    rw [decode_of_matches nreg immW hmatch, checkOperands_eq_ok_iff]
    exact ⟨hread, hwf⟩

/-! ### The statements -/

/-- Settles O1: the decoder evaluated on each word. -/
theorem sampleWordsDecode : Obligations.SampleWordsDecode := by
  refine ⟨?_, ?_, ?_, ?_, ?_, ?_, ?_, ?_, ?_, ?_, ?_, ?_⟩
  all_goals decide

/-- Settles O2: the encoded word shows the fixed bits of its row and holds the operands. -/
theorem decodeOfEncode : Obligations.DecodeOfEncode := fun _ _ i hwf himm =>
  decode_eq_ok_iff.mpr ⟨encode_matches i, readFrom_encode himm, hwf⟩

/-- Settles O3: a decoded instruction's operands are the fields of the word. -/
theorem encodeOfDecode : Obligations.EncodeOfDecode := by
  intro nreg immW w i h
  obtain ⟨hmatch, hread, -⟩ := decode_eq_ok_iff.mp h
  rw [← hread, encode_readFrom hmatch]

/-- R102, R205: the decode check comes before the queue check. -/
theorem submit_of_not_decoded {w : BitVec 32} {s : Machine.State}
    (h : ∀ i, decode s.cfg.nreg s.cfg.immW w ≠ .ok i) : Machine.submit w s = s.respond .malformed := by
  cases hd : decode s.cfg.nreg s.cfg.immW w with
  | error e => rw [Machine.submit, hd]
  | ok i => exact absurd hd (h i)

theorem not_matches_zero_and_ones (i : Instr) : ¬ i.Matches 0x00000000#32 ∧ ¬ i.Matches 0xFFFFFFFF#32 := by
  cases i <;> simp

/-- Settles O4: `decode_eq_ok_iff` with each form's row, fields and register names written out. -/
theorem decodeIsTheFivePatterns : Obligations.DecodeIsTheFivePatterns := by
  refine ⟨fun nreg immW w => ?_, fun w s h => congrArg _ (submit_of_not_decoded h), fun nreg immW i => ?_⟩
  · simp only [decode_eq_ok_iff, wellFormed_iff]
    refine ⟨?_, ?_, ?_, ?_, ?_⟩ <;> intro _ _ _ <;>
      simp [Instr.readFrom, regField_eq_iff, immI_eq_iff, immS_eq_iff, Instr.named, Instr.imm?, and_assoc]
  · obtain ⟨hzero, hones⟩ := not_matches_zero_and_ones i
    exact ⟨fun h => hzero (decode_eq_ok_iff.mp h).1, fun h => hones (decode_eq_ok_iff.mp h).1⟩

end Sys2Proof
end

section
/-! What the commands of the port answer (40_pipeline.md R101 to R104, R112, R127): SUBMIT, NONE, a STEP of an empty pipeline,
the counter; and the accessors (R129). -/

namespace Sys2Proof.Machine

/-! ### SUBMIT -/

theorem queueFull_iff {s : State} : s.queueFull = true ↔ s.cfg.qdepth = some s.Q.length := by
  unfold State.queueFull
  cases s.cfg.qdepth with
  | none => simp
  | some d => simp [eq_comm]

theorem submit_full {w : BitVec 32} {s : State} {i : Instr} (hd : decode s.cfg.nreg s.cfg.immW w = .ok i)
    (hq : s.cfg.qdepth = some s.Q.length) : submit w s = s.respond .queueFull := by
  simp only [submit, hd, if_pos (queueFull_iff.mpr hq)]

theorem submit_accepted {w : BitVec 32} {s : State} {i : Instr} (hd : decode s.cfg.nreg s.cfg.immW w = .ok i)
    (hq : s.cfg.qdepth ≠ some s.Q.length) :
    submit w s = { s.respond .accepted with Q := s.Q ++ [Record.fresh s.nextId i], nextId := s.nextId + 1 } := by
  simp only [submit, hd, if_neg (mt queueFull_iff.mp hq)]

/-! ### A STEP whose older stages are empty -/

/-- With MEM and WB empty a STEP is the EX sub-step and the front end. -/
theorem clock_of_MEM_WB_empty {s : State} (hMEM : s.S.MEM = none) (hWB : s.S.WB = none) :
    clock s = andThen (stageSubStep .EX (s.clearOut.enter .MEM)) fun t => .next (advance s.S.EX t) := by
  unfold clock
  rw [stageSubStep_empty (st := .WB) (by exact hWB), andThen_next,
    stageSubStep_empty (st := .MEM) (by exact hMEM), andThen_next]
  rfl

/-- With every stage empty a STEP fetches and counts. -/
theorem clock_empty {s : State} (h : s.S = Stages.empty) : clock s = .next (count (fetch (s.clearOut.enter .IF))) := by
  rw [clock_of_MEM_WB_empty (by rw [h]; rfl) (by rw [h]; rfl),
    stageSubStep_empty (st := .EX) (by rw [State.enter_S, State.clearOut_S, h]; rfl), andThen_next, advance,
    idToEx_empty _ (by simp [h, Stages.empty]), ifToId_empty (by simp [h, Stages.empty])]
  rfl

/-- The EX sub-step of an occupant that stands alone is its instruction. -/
theorem clock_alone {s : State} {r : Record} (hEX : s.S.EX = some r) (hMEM : s.S.MEM = none) (hWB : s.S.WB = none) :
    clock s = andThen (exec r.instr (s.clearOut.enter .EX)) fun t => .next (advance (some r) t) := by
  rw [clock_of_MEM_WB_empty hMEM hWB, stageSubStep_occupied (st := .EX) (by exact hEX), hEX]
  rfl

/-- A word that decodes is placed in EX as a fresh record, in front of a STEP. -/
theorem withFetchWord_of_decode {s : State} {nbits w : Nat} {i : Instr}
    (hd : decode s.cfg.nreg s.cfg.immW (tableWord nbits w) = .ok i) :
    (s.withFetchWord nbits w).host = [] ∧ (s.withFetchWord nbits w).S.EX = some (Record.fresh s.nextId i) ∧
      (s.withFetchWord nbits w).S.MEM = s.S.MEM ∧ (s.withFetchWord nbits w).S.WB = s.S.WB := by
  simp [State.withFetchWord, State.placeWord, hd]

/-- Sequencing is associative. -/
theorem andThen_assoc (o : Result) (f g : State → Result) :
    andThen (andThen o f) g = andThen o fun s => andThen (f s) g := by
  cases o <;> rfl

/-! ### The counter -/

theorem clock_cyc {s t : State} (h : clock s = .next t) : t.cyc = s.cyc + 1 := by
  obtain ⟨s1, s2, s3, hwb, hmem, hex, rfl⟩ := clock_eq_next.mp h
  have hcyc := (stageSubStep_frame hex).cyc.trans ((stageSubStep_frame hmem).cyc.trans (stageSubStep_frame hwb).cyc)
  simpa using hcyc

theorem run_succ (n : Nat) (s : State) : run (n + 1) s = andThen (step s) (run n) := rfl

/-- `n` STEPs with no other command count `n`. -/
theorem run_cyc (n : Nat) {s t : State} (hhost : s.host = []) (h : run n s = .next t) : t.cyc = s.cyc + n := by
  induction n generalizing s with
  | zero => cases h; rfl
  | succ n ih =>
    rw [run_succ, step_idle hhost] at h
    obtain ⟨u, hu, hrun⟩ := andThen_eq_next.mp h
    rw [ih ((clock_host hu).trans hhost) hrun, clock_cyc hu]
    omega

/-! ### The statements -/

/-- Settles O8: the decode check, the queue check and the append, one case each; the one queued record is fetched. -/
theorem submitAppendsOrRefuses : Obligations.SubmitAppendsOrRefuses := by
  refine ⟨fun w s h => congrArg _ (submit_of_not_decoded h), fun w s i hd hq => congrArg _ (submit_full hd hq),
    fun w s i hd hq => congrArg _ (submit_accepted hd hq), fun w s i hd hq hquiet => ?_⟩
  obtain ⟨hQ, hS⟩ := hquiet
  refine ⟨_, _, congrArg Host.Outcome.next (submit_accepted hd hq), clock_empty (by simpa using hS), ?_⟩
  have hqueue : s.Q ++ [Record.fresh s.nextId i] = [Record.fresh s.nextId i] := by rw [hQ]; rfl
  rw [fetch_take (by exact hqueue) (by simp [hS, Stages.empty])]
  exact ⟨rfl, rfl⟩

/-- Settles O30: a STEP counts in its last sub-step only; by induction on the number of STEPs. -/
theorem cycleCounterCountsSteps : Obligations.CycleCounterCountsSteps :=
  ⟨fun _ _ => clock_cyc, fun n _ _ => run_cyc n, fun n _ _ h => (run_cyc n rfl h).trans (Nat.zero_add n)⟩

/-- Settles O10: NONE only answers. -/
theorem noneChangesNothing : Obligations.NoneChangesNothing := fun _ => rfl

/-- Settles O11: a clock edge is a command, a STEP its three sub-steps and the front end, and with MEM and WB empty the
instruction in EX is the first that runs. -/
theorem stepRunsTheDecodedInstruction : Obligations.StepRunsTheDecodedInstruction := by
  refine ⟨fun s => step_idle, fun s c cs => step_command, fun s st r => stageSubStep_occupied, fun s => ?_, ?_, ?_⟩
  · rw [andThen_assoc, andThen_assoc]
    rfl
  · rintro s w i r hhost - hEX rfl hMEM hWB
    rw [step_idle hhost, clock_alone hEX hMEM hWB]
  · intro s nbits w i hd hMEM hWB
    obtain ⟨hhost, hEX, hplaceMEM, hplaceWB⟩ := withFetchWord_of_decode hd
    rw [step_idle hhost, clock_alone hEX (hplaceMEM.trans hMEM) (hplaceWB.trans hWB)]
    rfl

/-- Settles O18: the two sub-steps that no instruction has a part in. -/
theorem fetchAndDecodeComputeNothing : Obligations.FetchAndDecodeComputeNothing := fun i _ => exec_front i

/-- Settles O50: with no record to move and none to fetch, only the counter and the cleared outputs are left. -/
theorem quiescentStepOnlyCounts : Obligations.QuiescentStepOnlyCounts := by
  rintro s hhost hsub ⟨hQ, hS⟩
  rw [step_idle hhost, clock_empty hS, fetch_dry (by exact hQ), enter_eq_self (by exact hsub)]
  rfl

/-- Settles O44: the map of the register names and of the word indices. -/
theorem accessorsShowTheState : Obligations.AccessorsShowTheState := by
  intro s hnreg
  refine ⟨?_, fun r hr => ?_, ?_, fun k hk => ?_, rfl, rfl, rfl, rfl, rfl, rfl, rfl⟩
  · simp [observe, registerMap, hnreg]
  · simp [observe, registerMap, hr]
  · simp [observe, memoryArray]
  · simp [observe, memoryArray, hk]

end Sys2Proof.Machine
end

section
/-! Proofs of the statements about the hazard unit, the front end and the stops of an instruction (40_pipeline.md R109 to
R111, R122, R133). -/

namespace Sys2Proof.Machine

/-! ### The hazard unit -/

/-- The hazard of two records (R122). -/
theorem detect_some_iff (i l : Record) :
    detect (some i) (some l) = true ↔ ∃ rd b imm, l.instr = .lw rd b imm ∧
      (rd = i.instr.rs1 ∨ (i.instr.isSw = true ∧ i.instr.rs2? = some rd)) := by
  cases hl : l.instr with
  | lw rd b imm =>
    cases hi : i.instr with
    | sw rs2 rs1 off => simp [detect, hl, hi, Instr.rs1, Instr.rs2?, Instr.isSw, eq_comm (a := rs2)]
    | _ => simp [detect, hl, hi, Instr.isSw]
  | _ => simp [detect, hl]

/-- Settles O33: both stages must be occupied; then `detect_some_iff`. -/
theorem hazardUnit : Obligations.HazardUnit := by
  intro id x
  cases id with
  | none => simp
  | some i =>
    cases x with
    | none => simp
    | some l => simp [detect_some_iff]

/-! ### The front-end sub-steps -/

/-- ID is free when it is empty or its occupant is not stalled (R110). -/
theorem idFree_of_not_stalled {S : Stages} (h : S.ID = none ∨ ∃ i, S.ID = some i ∧ i.stall = false) : S.idFree = true := by
  rcases h with h | ⟨i, h, hi⟩ <;> simp [Stages.idFree, *]

theorem idFree_of_stalled {S : Stages} {i : Record} (h : S.ID = some i) (hi : i.stall = true) : S.idFree = false := by
  simp [Stages.idFree, h, hi]

/-- After the ID-to-EX sub-step an occupied ID is stalled (R109, R110). -/
theorem idToEx_ID_stalled {h : Bool} {s : State} {i : Record} (e : (idToEx h s).S.ID = some i) : i.stall = true := by
  cases hID : s.S.ID with
  | none => rw [idToEx_empty h hID, hID] at e; cases e
  | some r =>
    cases h with
    | true => rw [idToEx_stall hID] at e; cases e; rfl
    | false => rw [idToEx_move hID] at e; cases e

@[simp] theorem idToEx_IF (h : Bool) (s : State) : (idToEx h s).S.IF = s.S.IF := by
  unfold idToEx; repeat' split
  all_goals rfl

/-- Settles O34: each sub-step by its cases, and R110's consequence since after R109 an occupied ID is stalled. -/
theorem frontEndSubSteps : Obligations.FrontEndSubSteps := by
  refine ⟨fun s r e => by simp [idToEx, e], fun s h => idToEx_empty h,
    fun s r e hfree => by simp [ifToId, e, idFree_of_not_stalled hfree], fun s hblock => ?_, fun s h r e => ⟨?_, ?_⟩,
    fun s r q => fetch_take, fun s hdry => ?_⟩
  · rcases hblock with e | ⟨i, e, hi⟩
    · exact ifToId_empty e
    · exact ifToId_block (idFree_of_stalled e hi)
  · intro hID
    rw [ifToId_move ((idToEx_IF h s).trans e) (idFree_of_not_stalled (.inl hID))]
    exact ⟨rfl, rfl⟩
  · intro hID
    obtain ⟨i, hi⟩ := Option.ne_none_iff_exists'.mp hID
    exact ifToId_block (idFree_of_stalled hi (idToEx_ID_stalled hi))
  · rcases hdry with e | e
    · exact fetch_dry e
    · obtain ⟨r, hr⟩ := Option.ne_none_iff_exists'.mp e
      exact fetch_block hr

/-! ### Where an instruction stops -/

theorem wbCommit_eq_fault {rd : Reg} {r : Record} {s : State} {f : Fault} :
    wbCommit rd r s = .fault f ↔ f = .unreachable ∧ r.result = none ∧ rd ≠ s.cfg.zero := by
  unfold wbCommit
  split
  · simp [*]
  · cases r.result <;> simp [*, eq_comm]

/-- A stop in WB is R133's. -/
theorem exec_WB_fault {i : Instr} {s : State} {f : Fault} (hsub : s.sub = .WB) :
    exec i s = .fault f ↔ f = .unreachable ∧ ∃ r, s.S.WB = some r ∧ r.result = none ∧
      ∃ rd, i.rd? = some rd ∧ rd ≠ s.cfg.zero := by
  cases e : s.S.WB with
  | none => simp [exec_empty i hsub e]
  | some r =>
    have hexec := exec_at_WB i e
    rw [enter_eq_self hsub] at hexec
    cases hrd : i.rd? <;> simp [hexec, hrd, wbPlain, wbCommit_eq_fault]

/-- A stop in MEM is that of a missing index. -/
theorem exec_MEM_fault {i : Instr} {s : State} {f : Fault} (hsub : s.sub = .MEM) :
    exec i s = .fault f ↔ f = .noIndex ∧ ∃ r, s.S.MEM = some r ∧ r.idx = none ∧ i.isAlu = false := by
  cases e : s.S.MEM with
  | none => simp [exec_empty i hsub e]
  | some r =>
    have hexec := exec_at_MEM i e
    rw [enter_eq_self hsub] at hexec
    cases i with
    | lw | sw => cases hidx : r.idx <;> simp [hexec, memLoad, memStore, hidx, Instr.isAlu, eq_comm]
    | _ => simp [hexec, memPass, Instr.isAlu]

/-- EX goes on. -/
theorem exec_EX_total (i : Instr) {s : State} (hsub : s.sub = .EX) : ∃ t, exec i s = .next t := by
  cases e : s.S.EX with
  | none => exact ⟨s, exec_empty i hsub e⟩
  | some r =>
    rw [← enter_eq_self hsub, exec_at_EX i e]
    cases i <;> exact ⟨_, rfl⟩

theorem memLoad_ne_refused (r : Record) (s : State) (x : Refusal) : memLoad r s ≠ .refused x := by
  unfold memLoad; split <;> exact nofun

theorem memStore_ne_refused (v : Word) (r : Record) (s : State) (x : Refusal) : memStore v r s ≠ .refused x := by
  unfold memStore; split <;> exact nofun

theorem wbCommit_ne_refused (rd : Reg) (r : Record) (s : State) (x : Refusal) : wbCommit rd r s ≠ .refused x := by
  unfold wbCommit; repeat' split
  all_goals exact nofun

/-- No instruction is without a meaning. -/
theorem exec_ne_refused (i : Instr) (s : State) (x : Refusal) : exec i s ≠ .refused x := by
  cases hsub : s.sub with
  | IF | ID => simp [exec_front i (s := s) (by simp [hsub])]
  | EX =>
    obtain ⟨t, ht⟩ := exec_EX_total i hsub
    simp [ht]
  | MEM =>
    cases e : s.S.MEM with
    | none => simp [exec_empty i hsub e]
    | some r =>
      rw [← enter_eq_self hsub, exec_at_MEM i e]
      cases i with
      | lw => exact memLoad_ne_refused r _ x
      | sw => exact memStore_ne_refused _ r _ x
      | _ => exact nofun
  | WB =>
    cases e : s.S.WB with
    | none => simp [exec_empty i hsub e]
    | some r =>
      rw [← enter_eq_self hsub, exec_at_WB i e]
      cases i.rd? with
      | none => exact nofun
      | some rd => exact wbCommit_ne_refused rd r _ x

/-- Settles O17: WB stops with the one fault, MEM with the other, and the other sub-steps go on. -/
theorem stopsOnlyWhereAFieldIsMissing : Obligations.StopsOnlyWhereAFieldIsMissing := by
  intro i s
  cases hsub : s.sub with
  | IF | ID => simp [exec_front i (s := s) (by simp [hsub])]
  | EX =>
    obtain ⟨t, ht⟩ := exec_EX_total i hsub
    simp [ht]
  | MEM => simp [exec_MEM_fault hsub, exec_ne_refused]
  | WB => simp [exec_WB_fault hsub, exec_ne_refused]

end Sys2Proof.Machine
end

section
/-! The forwarding unit (40_pipeline.md R115, R116): which producer its search returns, what the producer gives, and R115's
statement. -/

namespace Sys2Proof.Machine

/-! ### The search -/

/-- Stage `st` holds a usable producer `p` of `r` for a consumer in stage `c` (R115, R116). -/
def Offers (s : State) (r : Reg) (c st : Stage) (p : Record) : Prop :=
  (st = .EX ∨ st = .MEM ∨ st = .WB) ∧ s.S.get st = some p ∧ (s.cfg.fwdScope = .olderOnly → c.rank < st.rank) ∧
    p.instr.rd? = some r ∧ ¬(p.instr.isLw = true ∧ st = .EX)

theorem candidate_iff {f : FwdScope} {st c : Stage} : candidate f st c = true ↔ (f = .olderOnly → c.rank < st.rank) := by
  cases f <;> simp [candidate]

theorem producerAt_iff_offers {s : State} {r : Reg} {c st : Stage} (hst : st = .EX ∨ st = .MEM ∨ st = .WB)
    {x : Stage × Record} : producerAt s r c st = some x ↔ ∃ p, Offers s r c st p ∧ x = (st, p) := by
  simp only [producerAt_eq_some, candidate_iff, usable_iff, Offers, hst, true_and, and_assoc]

theorem producer_eq_none_iff {s : State} {r : Reg} {c : Stage} :
    producer s r c = none ↔ ∀ st p, ¬Offers s r c st p := by
  rw [producer, List.findSome?_eq_none_iff]
  constructor
  · intro h st p hp
    have hnone := h st (by rcases hp.1 with rfl | rfl | rfl <;> simp)
    rw [(producerAt_iff_offers hp.1).mpr ⟨p, hp, rfl⟩] at hnone
    cases hnone
  · intro h st hst
    have hst : st = .EX ∨ st = .MEM ∨ st = .WB := by simpa using hst
    rw [Option.eq_none_iff_forall_ne_some]
    intro x hx
    obtain ⟨p, hp, -⟩ := (producerAt_iff_offers hst).mp hx
    exact h st p hp

/-- What the search returns stands in the stage it names, and no stage before that one offers anything. -/
theorem offers_of_producer {s : State} {r : Reg} {c st : Stage} {p : Record} (h : producer s r c = some (st, p)) :
    Offers s r c st p ∧ ∀ st' p', Offers s r c st' p' → st.rank ≤ st'.rank := by
  have hoffer {st' : Stage} {p' : Record} (hp : Offers s r c st' p') : producerAt s r c st' ≠ none := by
    rw [(producerAt_iff_offers hp.1).mpr ⟨p', hp, rfl⟩]; exact nofun
  rw [producer_eq, Option.or_eq_some_iff, Option.or_eq_some_iff] at h
  rcases h with h | ⟨hEX, h | ⟨hMEM, h⟩⟩
  · obtain ⟨p', hp, ⟨⟩⟩ := (producerAt_iff_offers (.inl rfl)).mp h
    refine ⟨hp, fun st' p' hp' => ?_⟩
    rcases hp'.1 with rfl | rfl | rfl <;> decide
  · obtain ⟨p', hp, ⟨⟩⟩ := (producerAt_iff_offers (.inr (.inl rfl))).mp h
    refine ⟨hp, fun st' p' hp' => ?_⟩
    rcases hp'.1 with rfl | rfl | rfl
    · exact absurd hEX (hoffer hp')
    all_goals decide
  · obtain ⟨p', hp, ⟨⟩⟩ := (producerAt_iff_offers (.inr (.inr rfl))).mp h
    refine ⟨hp, fun st' p' hp' => ?_⟩
    rcases hp'.1 with rfl | rfl | rfl
    · exact absurd hEX (hoffer hp')
    · exact absurd hMEM (hoffer hp')
    · decide

/-- A stage is known by its rank. -/
theorem rank_injective : Function.Injective Stage.rank := by
  intro a b h
  cases a <;> cases b <;> simp_all [Stage.rank]

theorem offers_unique {s : State} {r : Reg} {c st st' : Stage} {p p' : Record} (h : Offers s r c st p)
    (h' : Offers s r c st' p') (hrank : st.rank = st'.rank) : st = st' ∧ p = p' := by
  obtain rfl := rank_injective hrank
  exact ⟨rfl, Option.some.inj (h.2.1.symm.trans h'.2.1)⟩

/-- The first usable producer in the search order decides (R115). -/
theorem producer_eq_some_iff {s : State} {r : Reg} {c st : Stage} {p : Record} :
    producer s r c = some (st, p) ↔ Offers s r c st p ∧ ∀ st' p', Offers s r c st' p' → st.rank ≤ st'.rank := by
  refine ⟨offers_of_producer, fun ⟨hp, hfirst⟩ => ?_⟩
  cases hx : producer s r c with
  | none => exact absurd hp (producer_eq_none_iff.mp hx st p)
  | some x =>
    obtain ⟨hp', hfirst'⟩ := offers_of_producer hx
    obtain ⟨rfl, rfl⟩ := offers_unique hp hp' (le_antisymm (hfirst _ _ hp') (hfirst' _ _ hp))
    rfl

/-! ### What the search's answer gives -/

theorem resolve_zero (s : State) (c : Stage) (d : Nat) : resolve s s.cfg.zero c d = 0 := resolveWithin_zero _ s c

theorem resolve_committed {s : State} {r : Reg} {c : Stage} (d : Nat) (h : producer s r c = none) :
    resolve s r c d = s.reg r := resolveWithin_committed _ h

theorem resolve_at_bound {s : State} {r : Reg} {d : Nat} (c : Stage) (hr : r ≠ s.cfg.zero) (hd : s.cfg.maxDepth ≤ d) :
    resolve s r c d = s.reg r := by
  rw [resolve, Nat.sub_eq_zero_of_le hd, resolveWithin, if_neg hr]

section Producer

variable {s : State} {r : Reg} {c st : Stage} {d : Nat} {p : Record}

/-- Below the depth bound one level of the recursion is left to unfold (R115). -/
theorem resolve_below_bound (r : Reg) (c : Stage) (hd : d < s.cfg.maxDepth) :
    resolve s r c d = resolveWithin (s.cfg.maxDepth - (d + 1) + 1) s r c := by
  rw [resolve, show s.cfg.maxDepth - (d + 1) + 1 = s.cfg.maxDepth - d by omega]

theorem resolve_result {v : Word} (hr : r ≠ s.cfg.zero) (hd : d < s.cfg.maxDepth) (hp : producer s r c = some (st, p))
    (hv : p.result = some v) : resolve s r c d = v := by
  rw [resolve_below_bound r c hd, resolveWithin, if_neg hr]
  simp only [hp, hv]

theorem resolve_add {rd a b : Reg} (hr : r ≠ s.cfg.zero) (hd : d < s.cfg.maxDepth) (hp : producer s r c = some (st, p))
    (hv : p.result = none) (hi : p.instr = .add rd a b) :
    resolve s r c d = wrap s.cfg.xlen (resolve s a st (d + 1) + resolve s b st (d + 1)) := by
  rw [resolve_below_bound r c hd, resolveWithin, if_neg hr]
  simp only [hp, hv, hi, aluAdd, resolve]

theorem resolve_sub {rd a b : Reg} (hr : r ≠ s.cfg.zero) (hd : d < s.cfg.maxDepth) (hp : producer s r c = some (st, p))
    (hv : p.result = none) (hi : p.instr = .sub rd a b) :
    resolve s r c d = wrap s.cfg.xlen (resolve s a st (d + 1) - resolve s b st (d + 1)) := by
  rw [resolve_below_bound r c hd, resolveWithin, if_neg hr]
  simp only [hp, hv, hi, aluSub, resolve]

theorem resolve_addi {rd a : Reg} {imm : Imm} (hr : r ≠ s.cfg.zero) (hd : d < s.cfg.maxDepth)
    (hp : producer s r c = some (st, p)) (hv : p.result = none) (hi : p.instr = .addi rd a imm) :
    resolve s r c d = wrap s.cfg.xlen (resolve s a st (d + 1) + sext s.cfg.xlen imm) := by
  rw [resolve_below_bound r c hd, resolveWithin, if_neg hr]
  simp only [hp, hv, hi, aluAdd, resolve]

theorem resolve_load {k : Int} (hr : r ≠ s.cfg.zero) (hd : d < s.cfg.maxDepth) (hp : producer s r c = some (st, p))
    (hv : p.result = none) (hlw : p.instr.isLw = true) (hk : p.idx = some k) :
    resolve s r c d = if 0 ≤ k ∧ k < (s.cfg.memWords : Int) then s.dm k.toNat else 0 := by
  obtain ⟨rd, a, imm, hi⟩ := isLw_iff.mp hlw
  rw [resolve_below_bound r c hd, resolveWithin, if_neg hr]
  simp only [hp, hv, hi, hk, peek, validIndex_iff]

end Producer

/-- Settles O37: the search returns the first usable producer, and a producer gives its result, its recomputed value or the
word of its index. -/
theorem forwardingSearch : Obligations.ForwardingSearch := by
  intro s r c d offered hoffered
  replace hoffered : ∀ st p, offered st p ↔ Offers s r c st p := hoffered
  simp only [hoffered]
  refine ⟨?_, fun hr hd => resolve_at_bound c hr hd, fun _ hnone => resolve_committed d (producer_eq_none_iff.mpr hnone),
    fun st p hr hd hp hfirst => ?_⟩
  · rintro rfl
    exact resolve_zero s c d
  · have hsearch := producer_eq_some_iff.mpr ⟨hp, hfirst⟩
    exact ⟨fun v => resolve_result hr hd hsearch, fun hv rd a b => resolve_add hr hd hsearch hv,
      fun hv rd a b => resolve_sub hr hd hsearch hv, fun hv rd a imm => resolve_addi hr hd hsearch hv,
      fun hv hlw k => resolve_load hr hd hsearch hv hlw⟩

end Sys2Proof.Machine
end

section
/-! The invariant of the states between commands (40_pipeline.md R126): its part that also holds in the middle of a STEP, that
every sub-step and every command keeps it, and that a STEP from a state of the invariant goes on (R132, R133). -/

namespace Sys2Proof.Machine

/-! ### The accepted records -/

/-- `l` lists records of the machine of configuration `c`, with words in their computed fields, whose ids are `0` to
`n - 1` in order. -/
structure Accounted (c : Config) (n : Nat) (l : List Record) : Prop where
  inOrder : l.map Record.id = List.range n
  named : ∀ r ∈ l, r.instr.wellFormed c.nreg c.immW = true
  sized : ∀ r ∈ l, r.sized c.xlen = true

namespace Accounted

variable {c : Config} {n : Nat} {r r' : Record}

/-- A record may change in its place but for its id and its instruction. -/
theorem replace {A B : List Record} (h : Accounted c n (A ++ r :: B)) (hid : r'.id = r.id) (hinstr : r'.instr = r.instr)
    (hsized : r'.sized c.xlen = true) : Accounted c n (A ++ r' :: B) := by
  obtain ⟨hinOrder, hnamed, hsizes⟩ := h
  simp only [List.forall_mem_append, List.forall_mem_cons] at hnamed hsizes
  constructor
  · simpa [hid] using hinOrder
  · simp only [List.forall_mem_append, List.forall_mem_cons, hinstr]
    exact hnamed
  · simp only [List.forall_mem_append, List.forall_mem_cons]
    exact ⟨hsizes.1, hsized, hsizes.2.2⟩

/-- The next record is numbered `n` (R37). -/
theorem append_fresh {l : List Record} {i : Instr} (h : Accounted c n l) (hi : i.wellFormed c.nreg c.immW = true) :
    Accounted c (n + 1) (l ++ [Record.fresh n i]) := by
  constructor
  · simp [h.inOrder, List.range_succ, Record.fresh]
  · exact List.forall_mem_append.mpr ⟨h.named, List.forall_mem_singleton.mpr hi⟩
  · exact List.forall_mem_append.mpr ⟨h.sized, List.forall_mem_singleton.mpr rfl⟩

end Accounted

section Accepted

variable {s : State} {r : Record}

theorem mem_accepted_of_stage {st : Stage} (e : s.S.get st = some r) : r ∈ s.accepted := by
  cases st <;> simp only [Stages.get] at e <;> simp [State.accepted, e]

theorem accepted_retire (e : s.S.WB = some r) : (s.retire r).accepted = s.accepted := by
  simp [State.accepted, e]

theorem accepted_MEM (eMEM : s.S.MEM = some r) (eWB : s.S.WB = none) : s.accepted =
    s.L ++ r :: (s.S.EX.toList ++ s.S.ID.toList ++ s.S.IF.toList ++ s.Q) := by
  simp [State.accepted, eMEM, eWB]

theorem accepted_memToWb (s : State) (r : Record) : (s.memToWb r).accepted =
    s.L ++ r :: (s.S.EX.toList ++ s.S.ID.toList ++ s.S.IF.toList ++ s.Q) := by
  simp [State.accepted]

theorem accepted_EX (eEX : s.S.EX = some r) (eMEM : s.S.MEM = none) : s.accepted =
    (s.L ++ s.S.WB.toList) ++ r :: (s.S.ID.toList ++ s.S.IF.toList ++ s.Q) := by
  simp [State.accepted, eEX, eMEM]

theorem accepted_exToMem (s : State) (r : Record) : (s.exToMem r).accepted =
    (s.L ++ s.S.WB.toList) ++ r :: (s.S.ID.toList ++ s.S.IF.toList ++ s.Q) := by
  simp [State.accepted]

theorem accepted_ID (eID : s.S.ID = some r) (eEX : s.S.EX = none) : s.accepted =
    (s.L ++ s.S.WB.toList ++ s.S.MEM.toList) ++ r :: (s.S.IF.toList ++ s.Q) := by
  simp [State.accepted, eID, eEX]

/-- The ID-to-EX sub-step only sets the stall flag of a record. -/
theorem accepted_idToEx (h : Bool) (eID : s.S.ID = some r) (eEX : s.S.EX = none) : (idToEx h s).accepted =
    (s.L ++ s.S.WB.toList ++ s.S.MEM.toList) ++ { r with stall := h } :: (s.S.IF.toList ++ s.Q) := by
  cases h with
  | true => simp [State.accepted, idToEx_stall eID, eEX]
  | false => simp [State.accepted, idToEx_move eID]

theorem accepted_ifToId (hID : ∀ i, s.S.ID = some i → i.stall = true) : (ifToId s).accepted = s.accepted := by
  cases eID : s.S.ID with
  | some i => rw [ifToId_block (idFree_of_stalled eID (hID i eID))]
  | none =>
    cases eIF : s.S.IF with
    | none => rw [ifToId_empty eIF]
    | some f => simp [State.accepted, ifToId_move eIF (idFree_of_not_stalled (.inl eID)), eIF, eID]

end Accepted

/-! ### What a record has in each stage -/

/-- A record with no computed field and no stall is as it entered the queue (R31). -/
theorem fresh_eq_self {r : Record} (hblank : r.blank = true) (hstall : r.stall = false) :
    Record.fresh r.id r.instr = r := by
  obtain ⟨id, i, stall, result, ea, idx⟩ := r
  simp_all [Record.blank, Record.fresh]

section Fields

variable {r : Record}

theorem result_of_blank (h : r.blank = true) : r.result = none := by
  simp only [Record.blank, Bool.and_eq_true, Option.isNone_iff_eq_none] at h
  exact h.1.1

theorem stall_of_executed (h : r.executed = true) : r.stall = false := by
  simp only [Record.executed, Bool.and_eq_true, Bool.not_eq_true'] at h
  exact h.1

theorem stall_of_complete (h : r.complete = true) : r.stall = false := by
  simp only [Record.complete, Bool.and_eq_true, Bool.not_eq_true'] at h
  exact h.1

theorem idx_isSome_of_executed (h : r.executed = true) (hi : r.instr.isAlu = false) : r.idx.isSome = true := by
  have hidx : r.ea.isSome = true ∧ r.idx = r.ea.map wordIndex := by simp_all [Record.executed]
  rw [hidx.2, Option.isSome_map, hidx.1]

/-- EX brings an ADD, SUB or ADDI its result. -/
theorem executed_of_result (hblank : r.blank = true) (hstall : r.stall = false) (hi : r.instr.isAlu = true) (v : Word) :
    ({ r with result := some v } : Record).executed = true := by
  simp_all [Record.blank, Record.executed]

/-- EX brings an LW or SW its address and index. -/
theorem executed_of_address (hblank : r.blank = true) (hstall : r.stall = false) (hi : r.instr.isAlu = false) (ea : Word) :
    ({ r with ea := some ea, idx := some (wordIndex ea) } : Record).executed = true := by
  simp_all [Record.blank, Record.executed]

/-- MEM brings an LW its result. -/
theorem complete_of_load (h : r.executed = true) (hlw : r.instr.isLw = true) (v : Word) :
    ({ r with result := some v } : Record).complete = true := by
  obtain ⟨rd, rs1, imm, hi⟩ := isLw_iff.mp hlw
  simp_all [Record.executed, Record.complete, Instr.isAlu]

/-- MEM brings the others nothing. -/
theorem complete_of_executed (h : r.executed = true) (hlw : r.instr.isLw = false) : r.complete = true := by
  simp only [Record.executed, Record.complete, hlw, Bool.and_eq_true] at h ⊢
  refine ⟨h.1, ?_⟩
  split <;> simp_all

theorem sized_iff {xlen : Nat} :
    r.sized xlen = true ↔ (∀ v, r.result = some v → inWidth xlen v = true) ∧ ∀ v, r.ea = some v → inWidth xlen v = true := by
  simp [Record.sized, Option.all_eq_true]

end Fields

/-! ### The invariant inside a STEP -/

/-- The invariant without the sub-step marker and the fault log: what also holds between the sub-steps of a STEP. -/
structure State.Sound (s : State) : Prop where
  cfg : s.cfg.Valid
  length : s.RF.length = s.cfg.nreg
  zero : s.RF.getD s.cfg.zero.val 0 = 0
  registers : s.RF.all (inWidth s.cfg.xlen) = true
  memory : Memory.wf s.cfg s.DM = true
  words : ∀ e ∈ s.DM, inWidth s.cfg.xlen e.2 = true
  staged : s.S.Staged
  queue : ∀ r ∈ s.Q, r.blank = true ∧ r.stall = false
  capacity : s.cfg.fits s.Q.length = true
  completed : ∀ r ∈ s.L, r.complete = true
  accounted : Accounted s.cfg s.nextId s.accepted

theorem inv_iff {s : State} : s.Inv ↔ s.Sound ∧ s.sub = .IF ∧ s.Logged := by
  constructor
  · rintro ⟨hcfg, hsub, hlength, hzero, hmem, hstaged, hqueue, hcapacity, hL, hinOrder, hnamed, hwords, hlog⟩
    obtain ⟨hRF, hDM, hsized⟩ := hwords
    exact ⟨⟨hcfg, hlength, hzero, hRF, hmem, hDM, hstaged, hqueue, hcapacity, hL, ⟨hinOrder, hnamed, hsized⟩⟩, hsub, hlog⟩
  · rintro ⟨h, hsub, hlog⟩
    exact ⟨h.cfg, hsub, h.length, h.zero, h.memory, h.staged, h.queue, h.capacity, h.completed, h.accounted.inOrder,
      h.accounted.named, ⟨h.registers, h.words, h.accounted.sized⟩, hlog⟩

namespace State.Sound

variable {s t : State} {r r' : Record}

/-! ### The updates -/

theorem enter (h : s.Sound) (st : Stage) : (s.enter st).Sound := { h with }

theorem clearOut (h : s.Sound) : s.clearOut.Sound := { h with }

theorem respond (h : s.Sound) (a : SubResp) : (s.respond a).Sound := { h with }

theorem count (h : s.Sound) : (count s).Sound := { h with }

theorem logFault (h : s.Sound) (kind : AccessKind) (k : Int) (id : Nat) : (s.logFault kind k id).Sound := { h with }

/-- The computed words of a record in a stage are words. -/
theorem sized_of_stage (h : s.Sound) {st : Stage} (e : s.S.get st = some r) : r.sized s.cfg.xlen = true :=
  h.accounted.sized r (mem_accepted_of_stage e)

/-- The destination of a record in a stage is one of the registers. -/
theorem rd_lt_of_stage (h : s.Sound) {st : Stage} (e : s.S.get st = some r) {rd : Reg} (hrd : r.instr.rd? = some rd) :
    rd.val < s.RF.length := by
  have hregs := (wellFormed_iff.mp (h.accounted.named r (mem_accepted_of_stage e))).1
  rw [h.length]
  refine hregs rd ?_
  cases hi : r.instr <;> simp_all [Instr.rd?, Instr.named]

theorem setReg (h : s.Sound) {rd : Reg} {v : Word} (hz : rd ≠ s.cfg.zero) (hv : inWidth s.cfg.xlen v = true) :
    (s.setReg rd v).Sound :=
  { h with
    length := (length_regSet ..).trans h.length
    zero := by
      have hne : rd.val ≠ s.cfg.zero.val := fun e => hz (Fin.ext e)
      have hzero := h.zero
      rw [List.getD_eq_getElem?_getD] at hzero ⊢
      rwa [State.setReg_RF, State.setReg_cfg, regSet, if_neg hz, List.getElem?_set_ne hne]
    registers := by
      have hregs := List.all_eq_true.mp h.registers
      rw [List.all_eq_true, State.setReg_RF, regSet, if_neg hz]
      intro x hx
      rcases List.mem_or_eq_of_mem_set hx with hx | rfl
      · exact hregs x hx
      · exact hv }

theorem setDm (h : s.Sound) {k : Nat} {v : Word} (hk : k < s.cfg.memWords) (hv : inWidth s.cfg.xlen v = true) :
    (s.setDm k v).Sound :=
  { h with
    memory := memSet_wf v hk h.memory
    words := by
      intro e he
      rw [State.setDm_DM, memSet] at he
      split at he
      · exact h.words e (List.mem_of_mem_filter he)
      · rcases mem_cellsSet he with rfl | he
        · exact hv
        · exact h.words e he }

theorem memReadAt (h : s.Sound) (k : Int) (id : Nat) :
    (memReadAt s k id).2.Sound ∧ inWidth s.cfg.xlen (memReadAt s k id).1 = true := by
  cases hk : validIndex s.cfg k with
  | true =>
    obtain ⟨-, -, -, -, -, -, -, -, -, -, -, -, -, hresetMem, -⟩ := h.cfg
    rw [memReadAt_valid id hk]
    exact ⟨h, inWidth_memGet hresetMem h.words k.toNat⟩
  | false =>
    rw [memReadAt_invalid id hk]
    exact ⟨h.logFault .read k id, inWidth_zero _⟩

theorem memWriteAt (h : s.Sound) (k : Int) {v : Word} (hv : inWidth s.cfg.xlen v = true) (id : Nat) :
    (memWriteAt s k v id).Sound := by
  cases hk : validIndex s.cfg k with
  | true => rw [memWriteAt_valid v id hk]; exact h.setDm (validIndex_toNat hk) hv
  | false => rw [memWriteAt_invalid v id hk]; exact h.logFault .write k id

/-- The forwarding unit gives words. -/
theorem inWidth_resolve (h : s.Sound) (q : Reg) (c : Stage) (d : Nat) : inWidth s.cfg.xlen (resolve s q c d) = true := by
  obtain ⟨-, -, -, -, -, -, -, -, -, -, -, -, -, hresetMem, -⟩ := h.cfg
  exact inWidth_resolveWithin hresetMem h.registers h.words
    (fun _ _ v e => (sized_iff.mp (h.sized_of_stage e)).1 v) _ q c

theorem retire (h : s.Sound) (e : s.S.WB = some r) : (s.retire r).Sound := by
  obtain ⟨hIF, hID, hEX, hMEM, hWB⟩ := h.staged
  exact
    { h with
      staged := ⟨hIF, hID, hEX, hMEM, nofun⟩
      completed := List.forall_mem_append.mpr ⟨h.completed, List.forall_mem_singleton.mpr (hWB r e)⟩
      accounted := by rw [accepted_retire e]; exact h.accounted }

theorem memToWb (h : s.Sound) (eMEM : s.S.MEM = some r) (eWB : s.S.WB = none) (hid : r'.id = r.id)
    (hinstr : r'.instr = r.instr) (hcomplete : r'.complete = true) (hsized : r'.sized s.cfg.xlen = true) :
    (s.memToWb r').Sound := by
  obtain ⟨hIF, hID, hEX, -, -⟩ := h.staged
  have haccounted := accepted_MEM eMEM eWB ▸ h.accounted
  exact
    { h with
      staged := ⟨hIF, hID, hEX, nofun, by rintro _ ⟨⟩; exact hcomplete⟩
      accounted := accepted_memToWb s r' ▸ haccounted.replace hid hinstr hsized }

theorem exToMem (h : s.Sound) (eEX : s.S.EX = some r) (eMEM : s.S.MEM = none) (hid : r'.id = r.id)
    (hinstr : r'.instr = r.instr) (hexecuted : r'.executed = true) (hsized : r'.sized s.cfg.xlen = true) :
    (s.exToMem r').Sound := by
  obtain ⟨hIF, hID, -, -, hWB⟩ := h.staged
  have haccounted := accepted_EX eEX eMEM ▸ h.accounted
  exact
    { h with
      staged := ⟨hIF, fun i hi => ⟨(hID i hi).1, fun _ => rfl⟩, nofun, by rintro _ ⟨⟩; exact hexecuted, hWB⟩
      accounted := accepted_exToMem s r' ▸ haccounted.replace hid hinstr hsized }

end State.Sound

end Sys2Proof.Machine
end

section
/-! Every clock edge keeps the invariant, and from a state of the invariant every run goes on (40_pipeline.md R126, R132,
R133): the sub-steps of a STEP in their order, then the other commands. -/

namespace Sys2Proof.Machine

/-! ### The log of a STEP -/

theorem memReadAt_log (s : State) (k : Int) (id : Nat) :
    memReadAt s k id = (s.dm k.toNat, s) ∨
      (validIndex s.cfg k = false ∧ memReadAt s k id = (0, s.logFault .read k id)) := by
  cases hk : validIndex s.cfg k with
  | true => exact .inl (memReadAt_valid id hk)
  | false => exact .inr ⟨rfl, memReadAt_invalid id hk⟩

theorem memWriteAt_log (s : State) (k : Int) (v : Word) (id : Nat) :
    memWriteAt s k v id = s.setDm k.toNat v ∨
      (validIndex s.cfg k = false ∧ memWriteAt s k v id = s.logFault .write k id) := by
  cases hk : validIndex s.cfg k with
  | true => exact .inl (memWriteAt_valid v id hk)
  | false => exact .inr ⟨rfl, memWriteAt_invalid v id hk⟩

/-- The MEM sub-step logs nothing, or one entry of an invalid index, which the fault outputs report (R38, R131). -/
theorem stageSubStep_MEM_log {s t : State} (h : stageSubStep .MEM s = .next t) :
    (t.F = s.F ∧ t.out = s.out) ∨
    (∃ kind k id, validIndex s.cfg k = false ∧ t.F = s.F ++ [⟨s.cyc + 1, kind, k, id⟩] ∧
      t.out = { s.out with fault := some (kind, wrap s.cfg.xlen k) }) := by
  rcases stageSubStep_MEM_next h with ⟨-, rfl⟩ | ⟨r, -, -, rfl⟩ | ⟨r, k, -, -, -, rfl⟩ |
    ⟨r, rs2, rs1, imm, k, -, -, -, rfl⟩
  · exact .inl ⟨rfl, rfl⟩
  · exact .inl ⟨rfl, rfl⟩
  · rcases memReadAt_log (s.enter .MEM) k r.id with hread | ⟨hk, hread⟩ <;> rw [hread]
    · exact .inl ⟨rfl, rfl⟩
    · exact .inr ⟨.read, k, r.id, hk, rfl, rfl⟩
  · rcases memWriteAt_log (s.enter .MEM) k (resolve (s.enter .MEM) rs2 .MEM 0) r.id with hwrite | ⟨hk, hwrite⟩ <;>
      rw [hwrite]
    · exact .inl ⟨rfl, rfl⟩
    · exact .inr ⟨.write, k, r.id, hk, rfl, rfl⟩

/-- The WB sub-step reports the retirement of its occupant (R105, R131). -/
theorem stageSubStep_WB_out {s t : State} (h : stageSubStep .WB s = .next t) :
    t.out = { s.out with retired := (s.S.WB.map Record.id).or s.out.retired } := by
  rcases stageSubStep_WB_next h with ⟨e, rfl⟩ | ⟨r, e, rfl, -⟩ | ⟨r, rd, v, e, -, -, -, rfl⟩ <;> simp [e]

theorem stageSubStep_EX_out {s t : State} (h : stageSubStep .EX s = .next t) : t.out = s.out := by
  rcases stageSubStep_EX_next h with ⟨-, rfl⟩ | ⟨r, v, -, -, rfl⟩ | ⟨r, ea, -, -, rfl⟩ <;> rfl

/-- What a STEP retires and logs, and that the outputs report it. -/
theorem clock_log {s t : State} (h : clock s = .next t) :
    t.L = s.L ++ s.S.WB.toList ∧ t.out.retired = s.S.WB.map Record.id ∧
    ((t.F = s.F ∧ t.out.fault = none) ∨
      (∃ kind k id, validIndex s.cfg k = false ∧ t.F = s.F ++ [⟨s.cyc + 1, kind, k, id⟩] ∧
        t.out.fault = some (kind, wrap s.cfg.xlen k))) := by
  obtain ⟨s1, s2, s3, hwb, hmem, hex, rfl⟩ := clock_eq_next.mp h
  have fwb := stageSubStep_frame hwb
  have fmem := stageSubStep_frame hmem
  have fex := stageSubStep_frame hex
  have hcfg : s1.cfg = s.cfg := fwb.cfg
  have hcyc : s1.cyc = s.cyc := fwb.cyc
  have hF1 : s1.F = s.F := fwb.F nofun
  have hF3 : s3.F = s2.F := fex.F nofun
  have hL : s3.L = s1.L := (fex.L nofun).trans (fmem.L nofun)
  have hout : s1.out = ⟨.none, s.S.WB.map Record.id, none⟩ := by simpa [Outputs.idle] using stageSubStep_WB_out hwb
  have hmemLog := stageSubStep_MEM_log hmem
  rw [← stageSubStep_EX_out hex, ← hF3, hout, hF1, hcfg, hcyc] at hmemLog
  rw [advance_L, hL, stageSubStep_WB_L hwb, advance_out, advance_F]
  rcases hmemLog with ⟨hF, hout3⟩ | ⟨kind, k, id, hk, hF, hout3⟩
  · exact ⟨rfl, by rw [hout3], .inl ⟨hF, by rw [hout3]⟩⟩
  · exact ⟨rfl, by rw [hout3], .inr ⟨kind, k, id, hk, hF, by rw [hout3]⟩⟩

/-- Settles O28: a STEP retires the occupant of WB and logs at most the one access of MEM. -/
theorem outputsReportTheStep : Obligations.OutputsReportTheStep := by
  intro s t hhost hstep
  rw [step_idle hhost] at hstep
  obtain ⟨hL, hretired, hF⟩ := clock_log hstep
  refine ⟨⟨s.S.WB.toList, Option.length_toList_le, hL, ?_⟩, ?_⟩
  · rw [hretired]
    cases s.S.WB <;> rfl
  · rcases hF with ⟨hF, hfault⟩ | ⟨kind, k, id, -, hF, hfault⟩
    · exact ⟨[], Nat.zero_le 1, by simp [hF], by simp [hfault]⟩
    · exact ⟨_, le_refl 1, hF, hfault⟩

/-- A STEP keeps the fault log sound: the one entry it can add carries the counter's new value. -/
theorem clock_logged {s t : State} (h : clock s = .next t) (hlog : s.Logged) : t.Logged := by
  have hcyc := clock_cyc h
  have hcfg : t.cfg = s.cfg := command_cfg (c := .step) h
  obtain ⟨hentries, hpairwise⟩ := hlog
  obtain ⟨-, -, ⟨hF, -⟩ | ⟨kind, k, id, hk, hF, -⟩⟩ := clock_log h
  · rw [State.Logged, hF, hcyc, hcfg]
    exact ⟨fun e he => ⟨(hentries e he).1, Nat.le_succ_of_le (hentries e he).2⟩, hpairwise⟩
  · rw [State.Logged, hF, hcyc, hcfg]
    constructor
    · rw [List.forall_mem_append, List.forall_mem_singleton]
      exact ⟨fun e he => ⟨(hentries e he).1, Nat.le_succ_of_le (hentries e he).2⟩, hk, le_refl _⟩
    · rw [List.map_append, List.pairwise_append]
      refine ⟨hpairwise, List.pairwise_singleton .., ?_⟩
      simp only [List.mem_map, List.map_cons, List.map_nil, List.mem_singleton]
      rintro _ ⟨e, he, rfl⟩ _ rfl
      exact Nat.lt_succ_of_le (hentries e he).2

/-! ### The sub-steps of a STEP -/

/-- The EX sub-step as in `stageSubStep_EX_next`, with what it computes a word. -/
theorem stageSubStep_EX_words {s t : State} (h : stageSubStep .EX s = .next t) :
    (s.S.EX = none ∧ t = s.enter .EX) ∨
    (∃ r v, s.S.EX = some r ∧ r.instr.isAlu = true ∧ inWidth s.cfg.xlen v = true ∧
      t = (s.enter .EX).exToMem { r with result := some v }) ∨
    (∃ r ea, s.S.EX = some r ∧ r.instr.isAlu = false ∧ inWidth s.cfg.xlen ea = true ∧
      t = (s.enter .EX).exToMem { r with ea := some ea, idx := some (wordIndex ea) }) := by
  cases e : s.S.EX with
  | none =>
    rw [stageSubStep_empty (st := .EX) e] at h
    cases h
    exact .inl ⟨rfl, rfl⟩
  | some r =>
    rw [stageSubStep_occupied (st := .EX) e, exec_at_EX _ e] at h
    cases hi : r.instr <;> rw [hi] at h <;> cases h
    case some.add.refl | some.addi.refl => exact .inr (.inl ⟨r, _, rfl, by rw [hi]; rfl, inWidth_aluAdd .., rfl⟩)
    case some.sub.refl => exact .inr (.inl ⟨r, _, rfl, by rw [hi]; rfl, inWidth_aluSub .., rfl⟩)
    case some.lw.refl | some.sw.refl => exact .inr (.inr ⟨r, _, rfl, by rw [hi]; rfl, inWidth_effectiveAddress .., rfl⟩)

theorem isAlu_iff {i : Instr} : i.isAlu = true ↔ i.rd?.isSome = true ∧ i.isLw = false := by
  cases i <;> simp [Instr.isAlu, Instr.rd?, Instr.isLw]

/-- The MEM sub-step leaves MEM empty (R106). -/
theorem stageSubStep_MEM_empties {s t : State} (h : stageSubStep .MEM s = .next t) : t.S.MEM = none := by
  rcases stageSubStep_MEM_next h with ⟨e, rfl⟩ | ⟨r, -, -, rfl⟩ | ⟨r, k, -, -, -, rfl⟩ |
    ⟨r, rs2, rs1, imm, k, -, -, -, rfl⟩
  · exact e
  all_goals rfl

/-- The EX sub-step leaves EX empty (R107). -/
theorem stageSubStep_EX_empties {s t : State} (h : stageSubStep .EX s = .next t) : t.S.EX = none := by
  rcases stageSubStep_EX_next h with ⟨e, rfl⟩ | ⟨r, v, -, -, rfl⟩ | ⟨r, ea, -, -, rfl⟩
  · exact e
  all_goals rfl

theorem fits_of_le {c : Config} {m n : Nat} (hmn : m ≤ n) (h : c.fits n = true) : c.fits m = true := by
  unfold Config.fits at h ⊢
  cases hd : c.qdepth with
  | none => rfl
  | some d =>
    simp only [hd, decide_eq_true_eq] at h ⊢
    omega

/-- A queue that is not full has room for one record more. -/
theorem fits_succ {s : State} (h : s.cfg.fits s.Q.length = true) (hq : s.queueFull = false) :
    s.cfg.fits (s.Q.length + 1) = true := by
  unfold Config.fits at h ⊢
  unfold State.queueFull at hq
  cases hd : s.cfg.qdepth with
  | none => rfl
  | some d =>
    simp only [hd, decide_eq_true_eq, decide_eq_false_iff_not] at h hq ⊢
    omega

namespace State.Sound

variable {s t : State}

theorem subStep_WB (h : s.Sound) (hstep : stageSubStep .WB s = .next t) : t.Sound := by
  rcases stageSubStep_WB_next hstep with ⟨-, rfl⟩ | ⟨r, e, rfl, -⟩ | ⟨r, rd, v, e, -, hz, hv, rfl⟩
  · exact h.enter .WB
  · exact (h.enter .WB).retire e
  · exact ((h.enter .WB).retire e).setReg hz ((sized_iff.mp (h.sized_of_stage (st := .WB) e)).1 v hv)

theorem subStep_MEM (h : s.Sound) (hWB : s.S.WB = none) (hstep : stageSubStep .MEM s = .next t) : t.Sound := by
  have hsound := h.enter .MEM
  obtain ⟨-, -, -, hexecuted, -⟩ := h.staged
  rcases stageSubStep_MEM_next hstep with ⟨-, rfl⟩ | ⟨r, e, halu, rfl⟩ | ⟨r, k, e, hlw, -, rfl⟩ |
    ⟨r, rs2, rs1, imm, k, e, hi, -, rfl⟩
  · exact hsound
  · exact hsound.memToWb e hWB rfl rfl (complete_of_executed (hexecuted r e) (isAlu_iff.mp halu).2)
      (h.sized_of_stage (st := .MEM) e)
  · obtain ⟨hread, hword⟩ := hsound.memReadAt k r.id
    have hea := (sized_iff.mp (h.sized_of_stage (st := .MEM) e)).2
    refine hread.memToWb (r := r) (by simpa using e) (by simpa using hWB) rfl rfl
      (complete_of_load (hexecuted r e) hlw _) ?_
    rw [sized_iff, memReadAt_cfg]
    exact ⟨by rintro _ ⟨⟩; exact hword, hea⟩
  · have hwrite := hsound.memWriteAt k (hsound.inWidth_resolve rs2 .MEM 0) r.id
    refine hwrite.memToWb (r := r) (by simpa using e) (by simpa using hWB) rfl rfl
      (complete_of_executed (hexecuted r e) (by simp [hi, Instr.isLw])) ?_
    rw [(SubStepFrame.memWriteAt rfl k _ r.id).cfg]
    exact h.sized_of_stage (st := .MEM) e

theorem subStep_EX (h : s.Sound) (hMEM : s.S.MEM = none) (hstep : stageSubStep .EX s = .next t) : t.Sound := by
  have hsound := h.enter .EX
  obtain ⟨-, -, hEX, -, -⟩ := h.staged
  rcases stageSubStep_EX_words hstep with ⟨-, rfl⟩ | ⟨r, v, e, halu, hv, rfl⟩ | ⟨r, ea, e, halu, hea, rfl⟩
  · exact hsound
  · obtain ⟨hblank, hstall⟩ := hEX r e
    have hsized := sized_iff.mp (h.sized_of_stage (st := .EX) e)
    exact hsound.exToMem e hMEM rfl rfl (executed_of_result hblank hstall halu v)
      (sized_iff.mpr ⟨by rintro _ ⟨⟩; exact hv, hsized.2⟩)
  · obtain ⟨hblank, hstall⟩ := hEX r e
    have hsized := sized_iff.mp (h.sized_of_stage (st := .EX) e)
    exact hsound.exToMem e hMEM rfl rfl (executed_of_address hblank hstall halu ea)
      (sized_iff.mpr ⟨hsized.1, by rintro _ ⟨⟩; exact hea⟩)

/-- Only the stage holders differ. -/
theorem moveStages (h : s.Sound) (hcfg : t.cfg = s.cfg) (hRF : t.RF = s.RF) (hDM : t.DM = s.DM) (hQ : t.Q = s.Q)
    (hL : t.L = s.L) (hnextId : t.nextId = s.nextId) (hstaged : t.S.Staged)
    (haccounted : Accounted s.cfg s.nextId t.accepted) : t.Sound := by
  cases s
  cases t
  simp only at hcfg hRF hDM hQ hL hnextId
  subst hcfg hRF hDM hQ hL hnextId
  exact { h with staged := hstaged, accounted := haccounted }

theorem idToEx (h : s.Sound) (hEX : s.S.EX = none) (b : Bool) : (idToEx b s).Sound := by
  cases eID : s.S.ID with
  | none => rw [idToEx_empty b eID]; exact h
  | some r =>
    obtain ⟨hIF, hID, -, hMEM, hWB⟩ := h.staged
    have hblank := (hID r eID).1
    have hsized := h.sized_of_stage (st := .ID) eID
    refine h.moveStages (by simp) (by simp) (by simp) (by simp) (by simp) (by simp) ?_ ?_
    · cases b with
      | true =>
        rw [idToEx_stall eID]
        exact ⟨hIF, by rintro _ ⟨⟩; exact ⟨hblank, fun _ => hEX⟩, by simp [hEX], hMEM, hWB⟩
      | false =>
        rw [idToEx_move eID]
        exact ⟨hIF, nofun, by rintro _ ⟨⟩; exact ⟨hblank, rfl⟩, hMEM, hWB⟩
    · exact accepted_idToEx b eID hEX ▸ (accepted_ID eID hEX ▸ h.accounted).replace rfl rfl hsized

theorem ifToId (h : s.Sound) (hstalled : ∀ i, s.S.ID = some i → i.stall = true) : (ifToId s).Sound := by
  obtain ⟨hIF, hID, hEX, hMEM, hWB⟩ := h.staged
  refine h.moveStages (by simp) (by simp) (by simp) (by simp) (by simp) (by simp) ?_
    ((accepted_ifToId hstalled).symm ▸ h.accounted)
  cases eID : s.S.ID with
  | some i => rw [ifToId_block (idFree_of_stalled eID (hstalled i eID))]; exact h.staged
  | none =>
    cases eIF : s.S.IF with
    | none => rw [ifToId_empty eIF]; exact h.staged
    | some f =>
      obtain ⟨hblank, hstall⟩ := hIF f eIF
      rw [ifToId_move eIF (idFree_of_not_stalled (.inl eID))]
      exact ⟨nofun, by rintro _ ⟨⟩; exact ⟨hblank, by simp [hstall]⟩, hEX, hMEM, hWB⟩

theorem fetch (h : s.Sound) : (fetch s).Sound := by
  cases eIF : s.S.IF with
  | some f => rw [fetch_block eIF]; exact h
  | none =>
    cases eQ : s.Q with
    | nil => rw [fetch_dry eQ]; exact h
    | cons r q =>
      obtain ⟨-, hID, hEX, hMEM, hWB⟩ := h.staged
      have hqueue := h.queue
      have hcapacity := h.capacity
      have haccounted := h.accounted
      rw [eQ, List.forall_mem_cons] at hqueue
      rw [eQ] at hcapacity
      obtain ⟨⟨hblank, hstall⟩, hrest⟩ := hqueue
      rw [fetch_take eQ eIF, fresh_eq_self hblank hstall]
      exact
        { h with
          staged := ⟨by rintro _ ⟨⟩; exact ⟨hblank, hstall⟩, hID, hEX, hMEM, hWB⟩
          queue := hrest
          capacity := fits_of_le (Nat.le_succ _) hcapacity
          accounted := by simpa [State.accepted, eQ, eIF] using haccounted }

theorem advance (h : s.Sound) (hEX : s.S.EX = none) (x : Option Record) : (advance x s).Sound :=
  ((((h.idToEx hEX _).enter .IF).ifToId fun _ => idToEx_ID_stalled).fetch).count

theorem clock (h : s.Sound) (hstep : clock s = .next t) : t.Sound := by
  obtain ⟨s1, s2, s3, hwb, hmem, hex, rfl⟩ := clock_eq_next.mp hstep
  have h1 := h.clearOut.subStep_WB hwb
  have h2 := h1.subStep_MEM (by rw [stageSubStep_WB_S hwb]) hmem
  have h3 := h2.subStep_EX (stageSubStep_MEM_empties hmem) hex
  exact h3.advance (stageSubStep_EX_empties hex) _

/-- An accepted word waits at the end of the queue under the next id (R102). -/
theorem submit (h : s.Sound) (w : BitVec 32) : (submit w s).Sound := by
  rcases submit_cases w s with hw | hw | ⟨i, hd, hq, hw⟩ <;> rw [hw]
  · exact h.respond .malformed
  · exact h.respond .queueFull
  · obtain ⟨-, -, hwf⟩ := decode_eq_ok_iff.mp hd
    exact
      { h with
        queue := List.forall_mem_append.mpr ⟨h.queue, List.forall_mem_singleton.mpr ⟨rfl, rfl⟩⟩
        capacity := by simpa using fits_succ h.capacity hq
        accounted := by simpa [State.accepted] using h.accounted.append_fresh hwf }

end State.Sound

/-! ### The commands -/

theorem submit_inv {s : State} (w : BitVec 32) (h : s.Inv) : (submit w s).Inv := by
  obtain ⟨hsound, hsub, hlog⟩ := inv_iff.mp h
  refine inv_iff.mpr ⟨hsound.submit w, ?_, ?_⟩ <;> rcases submit_cases w s with hw | hw | ⟨i, -, -, hw⟩ <;> rw [hw]
  exacts [hsub, hsub, hsub, hlog, hlog, hlog]

theorem clock_inv {s t : State} (h : s.Inv) (hstep : clock s = .next t) : t.Inv := by
  obtain ⟨hsound, -, hlog⟩ := inv_iff.mp h
  refine inv_iff.mpr ⟨hsound.clock hstep, ?_, clock_logged hstep hlog⟩
  obtain ⟨s1, s2, s3, -, -, -, rfl⟩ := clock_eq_next.mp hstep
  exact advance_sub ..

theorem command_inv {c : Command} {s t : State} (h : s.Inv) (hc : command c s = .next t) : t.Inv := by
  cases c with
  | none => cases hc; exact h
  | submit w => cases hc; exact submit_inv w h
  | step => exact clock_inv h hc
  | reset => cases hc; exact initial_inv h.1

/-- Settles O46: a clock edge is a command, but for the host's list, which the invariant does not read; NONE and SUBMIT touch
little of it, RESET establishes it (O45), and a STEP keeps it sub-step by sub-step. -/
theorem everyStepKeepsInv : Obligations.EveryStepKeepsInv := by
  intro s t h hstep
  obtain ⟨c, cs, hc⟩ := step_eq_command s
  exact command_inv (s := { s with host := cs }) h (hc.symm.trans hstep)

/-- From a state of the invariant a STEP goes on (R132, R133). -/
theorem clock_total_of_inv {s : State} (h : s.Inv) : ∃ t, clock s = .next t := by
  obtain ⟨-, -, -, hexecuted, hcomplete⟩ := (inv_iff.mp h).1.staged
  exact clock_total (fun r e _ => result_isSome_of_complete (hcomplete r e))
    fun r e => idx_isSome_of_executed (hexecuted r e)

theorem step_total_of_inv {s : State} (h : s.Inv) : ∃ t, step s = .next t := by
  obtain ⟨c, cs, hc⟩ := step_eq_command s
  rw [hc]
  cases c with
  | step => exact clock_total_of_inv (s := { s with host := cs }) h
  | none | submit w | reset => exact ⟨_, rfl⟩

/-- Settles O47: by induction on the number of clock edges; each goes on and keeps the invariant. -/
theorem noRunStops : Obligations.NoRunStops := by
  intro s n h
  induction n generalizing s with
  | zero => exact ⟨s, rfl⟩
  | succ n ih =>
    obtain ⟨t, ht⟩ := step_total_of_inv h
    obtain ⟨u, hu⟩ := ih t (everyStepKeepsInv s t h ht)
    exact ⟨u, by rw [run_succ, ht, andThen_next, hu]⟩

end Sys2Proof.Machine
end

section
/-! The flow through the stages in a STEP (40_pipeline.md R106 to R111), and the stall and the bubble it leaves (R124, R125). -/

namespace Sys2Proof.Machine

/-! ### The front end -/

@[simp] theorem ifToId_EX (s : State) : (ifToId s).S.EX = s.S.EX := by
  unfold ifToId; repeat' split
  all_goals rfl

@[simp] theorem fetch_ID (s : State) : (fetch s).S.ID = s.S.ID := by
  unfold fetch; split <;> rfl

@[simp] theorem fetch_EX (s : State) : (fetch s).S.EX = s.S.EX := by
  unfold fetch; split <;> rfl

@[simp] theorem advance_EX (x : Option Record) (s : State) :
    (advance x s).S.EX = (idToEx (detect s.S.ID x) s).S.EX := by simp [advance]

/-- Under a hazard ID and EX keep their occupants, ID with its flag set, and an occupied IF blocks the fetch (R109 to
R111). -/
theorem advance_stall {x : Option Record} {s : State} {i : Record} (eID : s.S.ID = some i)
    (hd : detect s.S.ID x = true) :
    (advance x s).S.ID = some { i with stall := true } ∧ (advance x s).S.EX = s.S.EX ∧
      ∀ f, s.S.IF = some f → (advance x s).S.IF = some f ∧ (advance x s).Q = s.Q := by
  have hblock : ifToId ((idToEx true s).enter .IF) = (idToEx true s).enter .IF :=
    ifToId_block (idFree_of_stalled (by rw [State.enter_S, idToEx_stall eID]) rfl)
  have hadvance : advance x s = count (fetch ((idToEx true s).enter .IF)) := by rw [advance, hd, hblock]
  refine ⟨?_, ?_, fun f hf => ?_⟩
  · simp [hadvance, idToEx_stall eID]
  · simp [hd, idToEx_stall eID]
  · rw [hadvance, fetch_block (by rw [State.enter_S, idToEx_IF, hf])]
    simp [hf]

/-- Without a hazard ID moves to EX with its flag clear, and IF to ID (R109, R110). -/
theorem advance_move {x : Option Record} {s : State} (hEX : s.S.EX = none) (hd : detect s.S.ID x = false) :
    (advance x s).S.EX = s.S.ID.map (fun i => { i with stall := false }) ∧ (advance x s).S.ID = s.S.IF := by
  have hfree : (idToEx false s).S.ID = none ∧ (idToEx false s).S.EX = s.S.ID.map fun i => { i with stall := false } := by
    cases eID : s.S.ID with
    | none => rw [idToEx_empty _ eID]; exact ⟨eID, hEX⟩
    | some i => rw [idToEx_move eID]; exact ⟨rfl, rfl⟩
  refine ⟨by rw [advance_EX, hd, hfree.2], ?_⟩
  have hIF : (ifToId ((idToEx false s).enter .IF)).S.ID = s.S.IF := by
    cases eIF : s.S.IF with
    | none => rw [ifToId_empty (by simpa using eIF)]; exact hfree.1
    | some f =>
      rw [ifToId_move (s := (idToEx false s).enter .IF) (by simpa using eIF) (idFree_of_not_stalled (.inl hfree.1))]
  simpa [advance, hd] using hIF

/-! ### The flow in a STEP -/

section Flow

variable {s t : State}

/-- The older stages leave the front end as it was, with EX empty. -/
theorem clock_advance (h : clock s = .next t) :
    ∃ s3, t = advance s.S.EX s3 ∧ s3.S.IF = s.S.IF ∧ s3.S.ID = s.S.ID ∧ s3.S.EX = none ∧ s3.Q = s.Q := by
  obtain ⟨s1, s2, s3, hwb, hmem, hex, rfl⟩ := clock_eq_next.mp h
  have fwb := stageSubStep_frame hwb
  have fmem := stageSubStep_frame hmem
  have fex := stageSubStep_frame hex
  exact ⟨s3, rfl, fex.IF.trans (fmem.IF.trans fwb.IF), fex.ID.trans (fmem.ID.trans fwb.ID), stageSubStep_EX_empties hex,
    fex.Q.trans (fmem.Q.trans fwb.Q)⟩

/-- A STEP under a hazard (R124). -/
theorem clock_stall (h : clock s = .next t) {i : Record} (eID : s.S.ID = some i) (hd : detect s.S.ID s.S.EX = true) :
    t.S.ID = some { i with stall := true } ∧ t.S.EX = none ∧
      ∀ f, s.S.IF = some f → t.S.IF = some f ∧ t.Q = s.Q := by
  obtain ⟨s3, rfl, hIF, hID, hEX, hQ⟩ := clock_advance h
  rw [← hID] at eID hd
  rw [← hIF, ← hQ, ← hEX]
  exact advance_stall eID hd

/-- A STEP without a hazard. -/
theorem clock_move (h : clock s = .next t) (hd : detect s.S.ID s.S.EX = false) :
    t.S.EX = s.S.ID.map (fun i => { i with stall := false }) ∧ t.S.ID = s.S.IF := by
  obtain ⟨s3, rfl, hIF, hID, hEX, -⟩ := clock_advance h
  rw [← hID] at hd
  rw [← hIF, ← hID]
  exact advance_move hEX hd

/-- An empty EX is an empty MEM one STEP later. -/
theorem clock_MEM_of_EX_empty (h : clock s = .next t) (hEX : s.S.EX = none) : t.S.MEM = none := by
  obtain ⟨s1, s2, s3, hwb, hmem, hex, rfl⟩ := clock_eq_next.mp h
  have hEX2 : s2.S.EX = none := by rw [stageSubStep_MEM_EX hmem, stageSubStep_WB_S hwb]; exact hEX
  rw [stageSubStep_empty (st := .EX) hEX2] at hex
  cases hex
  rw [advance_MEM, State.enter_S]
  exact stageSubStep_MEM_empties hmem

/-- An empty MEM leaves WB as it was. -/
theorem stageSubStep_MEM_WB_of_empty (h : stageSubStep .MEM s = .next t) (hMEM : s.S.MEM = none) : t.S.WB = s.S.WB := by
  rw [stageSubStep_empty (st := .MEM) hMEM] at h
  cases h
  rfl

/-- An empty MEM is an empty WB one STEP later. -/
theorem clock_WB_of_MEM_empty (h : clock s = .next t) (hMEM : s.S.MEM = none) : t.S.WB = none := by
  obtain ⟨s1, s2, s3, hwb, hmem, hex, rfl⟩ := clock_eq_next.mp h
  have hMEM1 : s1.S.MEM = none := by rw [stageSubStep_WB_S hwb]; exact hMEM
  rw [advance_WB, stageSubStep_EX_WB hex, stageSubStep_MEM_WB_of_empty hmem hMEM1, stageSubStep_WB_S hwb]

/-- From a state of the invariant a STEP goes on to a state of the invariant, with no other command listed. -/
theorem step_of_inv (h : s.Inv) (hhost : s.host = []) :
    ∃ t, step s = .next t ∧ clock s = .next t ∧ t.Inv ∧ t.host = [] := by
  obtain ⟨t, ht⟩ := clock_total_of_inv h
  exact ⟨t, (step_idle hhost).trans ht, ht, clock_inv h ht, (clock_host ht).trans hhost⟩

/-- A record that has stalled has no hazard any more: EX is empty (R125). -/
theorem detect_of_stalled (h : s.Inv) {i : Record} (eID : s.S.ID = some i) (hi : i.stall = true) :
    detect s.S.ID s.S.EX = false := by
  obtain ⟨-, hID, -⟩ := (inv_iff.mp h).1.staged
  rw [(hID i eID).2 hi, detect_none_right]

/-- After a STEP the flag of ID's occupant says whether the STEP stalled (R125). -/
theorem stall_iff_detect (h : s.Inv) (hstep : clock s = .next t) {i : Record} (ei : t.S.ID = some i) :
    i.stall = true ↔ detect s.S.ID s.S.EX = true := by
  cases hd : detect s.S.ID s.S.EX with
  | true =>
    obtain ⟨r, l, er, -⟩ := detect_true hd
    rw [(clock_stall hstep er hd).1] at ei
    cases ei
    exact ⟨fun _ => rfl, fun _ => rfl⟩
  | false =>
    obtain ⟨hIF, -⟩ := (inv_iff.mp h).1.staged
    rw [(clock_move hstep hd).2] at ei
    simp [(hIF i ei).2]

end Flow

/-! ### The statements -/

/-- Settles O35: under the hazard the STEP stalls and leaves EX empty, so that the next one does not. -/
theorem stallsForExactlyOneStep : Obligations.StallsForExactlyOneStep := by
  refine ⟨fun s i l hinv hhost eID eEX hd => ?_, fun s i hinv hhost eID hfree => ?_⟩
  · rw [← eID, ← eEX] at hd
    obtain ⟨t, hst, hclock, htinv, hthost⟩ := step_of_inv hinv hhost
    obtain ⟨u, htu, hclock', -⟩ := step_of_inv htinv hthost
    obtain ⟨htID, htEX, hblocked⟩ := clock_stall hclock eID hd
    obtain ⟨m, hm, hmid, hminstr, -⟩ := clock_moves_EX hclock eEX
    obtain ⟨huEX, huID⟩ := clock_move hclock' (detect_of_stalled htinv htID rfl)
    exact ⟨t, u, hst, htID, htEX, ⟨m, hm, hmid, hminstr⟩, hblocked, htu, by rw [huEX, htID]; rfl, huID⟩
  · have hd : detect s.S.ID s.S.EX = false := by
      rcases hfree with hstall | hd
      · exact detect_of_stalled hinv eID hstall
      · rwa [eID]
    obtain ⟨t, hst, hclock, -⟩ := step_of_inv hinv hhost
    obtain ⟨htEX, htID⟩ := clock_move hclock hd
    exact ⟨t, hst, by rw [htEX, eID]; rfl, htID⟩

/-- Settles O36: the empty EX moves on with each STEP; and in the stages behind ID the invariant has no record stalled. -/
theorem stallLeavesABubble : Obligations.StallLeavesABubble := by
  refine ⟨fun s hinv hhost hd => ?_, fun s t hinv hhost hstep => ?_⟩
  · obtain ⟨i, l, eID, -⟩ := detect_true hd
    obtain ⟨t, hst, hs, htinv, hthost⟩ := step_of_inv hinv hhost
    obtain ⟨u, htu, ht, huinv, huhost⟩ := step_of_inv htinv hthost
    obtain ⟨v, huv, hu, hvinv, hvhost⟩ := step_of_inv huinv huhost
    obtain ⟨x, hvx, hv, -⟩ := step_of_inv hvinv hvhost
    have htEX := (clock_stall hs eID hd).2.1
    have huMEM := clock_MEM_of_EX_empty ht htEX
    have hvWB := clock_WB_of_MEM_empty hu huMEM
    obtain ⟨hxL, hxretired, -⟩ := clock_log hv
    exact ⟨t, u, v, x, hst, htu, huv, hvx, htEX, huMEM, hvWB, by simp [hxretired, hvWB], by simp [hxL, hvWB]⟩
  · rw [step_idle hhost] at hstep
    have hsound := (inv_iff.mp (clock_inv hinv hstep)).1
    obtain ⟨-, -, hEX, hMEM, hWB⟩ := hsound.staged
    refine ⟨fun i => stall_iff_detect hinv hstep, ?_⟩
    rintro r (e | e | e | e)
    · exact (hEX r e).2
    · exact stall_of_executed (hMEM r e)
    · exact stall_of_complete (hWB r e)
    · exact stall_of_complete (hsound.completed r e)

end Sys2Proof.Machine
end

section
/-! Proofs of the statements about what the EX and MEM sub-steps and the status summary resolve (40_pipeline.md R118, R119,
R130). -/

namespace Sys2Proof.Machine

/-! ### Which stage the search returns -/

section Search

variable {s : State} {r : Reg} {c : Stage} {p : Record}

/-- An offer of EX decides: the search begins there. -/
theorem producer_of_EX (h : Offers s r c .EX p) : producer s r c = some (.EX, p) := by
  refine producer_eq_some_iff.mpr ⟨h, fun st' p' h' => ?_⟩
  rcases h'.1 with rfl | rfl | rfl <;> decide

/-- An offer of WB decides when EX and MEM have none. -/
theorem producer_of_WB (h : Offers s r c .WB p) (hEX : ∀ p', ¬Offers s r c .EX p') (hMEM : ∀ p', ¬Offers s r c .MEM p') :
    producer s r c = some (.WB, p) := by
  refine producer_eq_some_iff.mpr ⟨h, fun st' p' h' => ?_⟩
  rcases h'.1 with rfl | rfl | rfl
  · exact absurd h' (hEX p')
  · exact absurd h' (hMEM p')
  · exact le_refl _

theorem producer_none (hEX : ∀ p, ¬Offers s r c .EX p) (hMEM : ∀ p, ¬Offers s r c .MEM p) (hWB : ∀ p, ¬Offers s r c .WB p) :
    producer s r c = none := by
  refine producer_eq_none_iff.mpr fun st p h => ?_
  rcases h.1 with rfl | rfl | rfl
  exacts [hEX p h, hMEM p h, hWB p h]

/-- An empty stage offers nothing. -/
theorem not_offers_of_empty {st : Stage} (e : s.S.get st = none) (p : Record) : ¬Offers s r c st p := by
  rintro ⟨-, e', -⟩
  cases e.symm.trans e'

/-- To a consumer in EX or in MEM, EX offers its ADD, SUB or ADDI, and only under LITERAL (R116). -/
theorem offers_EX_iff (hc : c = .EX ∨ c = .MEM) :
    Offers s r c .EX p ↔ s.S.EX = some p ∧ s.cfg.fwdScope = .literal ∧ p.instr.isAlu = true ∧ p.instr.rd? = some r := by
  have hscope : (s.cfg.fwdScope = .olderOnly → c.rank < Stage.EX.rank) ↔ s.cfg.fwdScope = .literal := by
    rcases hc with rfl | rfl <;> cases s.cfg.fwdScope <;> simp [Stage.rank]
  simp only [Offers, hscope, isAlu_iff, Stages.get]
  cases hrd : p.instr.rd? <;> simp [and_comm]

/-- To a consumer in EX, WB offers its occupant in both settings. -/
theorem offers_EX_WB_iff : Offers s r .EX .WB p ↔ s.S.WB = some p ∧ p.instr.rd? = some r := by
  simp [Offers, Stages.get, Stage.rank]

/-- An SW offers nothing. -/
theorem not_offers_of_sw {st : Stage} {m : Record} {rs2 rs1 : Reg} {imm : Imm} (e : s.S.get st = some m)
    (hi : m.instr = .sw rs2 rs1 imm) (p : Record) : ¬Offers s r c st p := by
  rintro ⟨-, e', -, hrd, -⟩
  cases e.symm.trans e'
  simp [hi, Instr.rd?] at hrd

end Search

/-! ### What the sub-steps see -/

section SubSteps

variable {s s1 s2 : State}

theorem maxDepth_pos (h : s.Sound) : 0 < s.cfg.maxDepth := by
  obtain ⟨-, -, -, -, -, -, -, hdepth, -⟩ := h.cfg
  exact hdepth

/-- What leaves WB is in the register file when the WB sub-step is over (R105). -/
theorem reg_of_retired (h : s.Sound) (hwb : stageSubStep .WB s = .next s1) {p : Record} {q : Reg} (e : s.S.WB = some p)
    (hrd : p.instr.rd? = some q) (hz : q ≠ s.cfg.zero) : some (s1.reg q) = p.result := by
  obtain ⟨-, -, -, -, hcomplete⟩ := h.staged
  obtain ⟨v, hv⟩ := Option.isSome_iff_exists.mp (result_isSome_of_complete (hcomplete p e) hrd)
  rw [stageSubStep_WB_commit e hrd hz hv] at hwb
  cases hwb
  rw [reg_setReg (s := (s.enter .WB).retire p) q v (h.rd_lt_of_stage (st := .WB) e hrd), hv]
  simp [hz]

theorem stageSubStep_MEM_reg (hmem : stageSubStep .MEM s1 = .next s2) (q : Reg) : s2.reg q = s1.reg q :=
  have f := stageSubStep_frame hmem
  reg_of_RF f.cfg (f.RF nofun) q

/-- With WB empty the MEM sub-step leaves its own occupant in WB, by id. -/
theorem stageSubStep_MEM_WB_id (hmem : stageSubStep .MEM s1 = .next s2) (hWB : s1.S.WB = none) :
    s2.S.WB.map Record.id = s1.S.MEM.map Record.id := by
  cases e : s1.S.MEM with
  | none => rw [stageSubStep_MEM_WB_of_empty hmem e, hWB]
  | some m =>
    obtain ⟨p, hp, hid, -⟩ := stageSubStep_MEM_moves hmem e
    rw [hp, Option.map_some, Option.map_some, hid]

end SubSteps

/-! ### The statements -/

/-- Settles O38: the self match is the one offer EX can make, MEM is empty, and WB's record is complete. -/
theorem resolveInEX : Obligations.ResolveInEX := by
  intro s s1 s2 e hinv _ eEX hwb hmem
  have hsound := (inv_iff.mp hinv).1.clearOut
  obtain ⟨-, -, hblank, -⟩ := hsound.staged
  have hnone := result_of_blank (hblank e eEX).1
  have hS1 := stageSubStep_WB_S hwb
  have hWB1 : s1.S.WB = none := by rw [hS1]
  have hsound2 := (hsound.subStep_WB hwb).subStep_MEM hWB1 hmem
  have hcfg : s2.cfg = s.cfg := (stageSubStep_frame hmem).cfg.trans (stageSubStep_frame hwb).cfg
  have hEX2 : s2.S.EX = some e := by rw [stageSubStep_MEM_EX hmem, hS1]; exact eEX
  have hMEM2 := stageSubStep_MEM_empties hmem
  obtain ⟨-, -, -, -, hcomplete⟩ := hsound2.staged
  have hdepth := maxDepth_pos hsound2
  have hMEM (r : Reg) (p : Record) : ¬Offers s2 r .EX .MEM p := not_offers_of_empty (st := .MEM) hMEM2 p
  refine ⟨hEX2, hMEM2, ?_, hcomplete, fun p q ep hrd hz => ?_, fun r hr => ?_⟩
  · rw [stageSubStep_MEM_WB_id hmem hWB1, hS1]; rfl
  · rw [stageSubStep_MEM_reg hmem]
    exact reg_of_retired hsound hwb ep hrd hz
  · rw [← hcfg] at hr ⊢
    have hself (hlit : s2.cfg.fwdScope = .literal) (halu : e.instr.isAlu = true) (hrd : e.instr.rd? = some r) :
        producer s2 r .EX = some (.EX, e) := producer_of_EX ((offers_EX_iff (.inl rfl)).mpr ⟨hEX2, hlit, halu, hrd⟩)
    refine ⟨?_, ?_, ?_, fun hother => ?_⟩
    · rintro hlit rd a b hi rfl
      exact resolve_add hr hdepth (hself hlit (by rw [hi]; rfl) (by rw [hi]; rfl)) hnone hi
    · rintro hlit rd a b hi rfl
      exact resolve_sub hr hdepth (hself hlit (by rw [hi]; rfl) (by rw [hi]; rfl)) hnone hi
    · rintro hlit rd a imm hi rfl
      exact resolve_addi hr hdepth (hself hlit (by rw [hi]; rfl) (by rw [hi]; rfl)) hnone hi
    · have hEX (p : Record) : ¬Offers s2 r .EX .EX p := by
        rw [offers_EX_iff (.inl rfl), hEX2]
        rintro ⟨⟨⟩, hmatch⟩
        exact hother hmatch
      refine ⟨fun p ep hrd => ?_, fun hno => ?_⟩
      · obtain ⟨v, hv⟩ := Option.isSome_iff_exists.mp (result_isSome_of_complete (hcomplete p ep) hrd)
        rw [resolve_result hr hdepth (producer_of_WB (offers_EX_WB_iff.mpr ⟨ep, hrd⟩) hEX (hMEM r)) hv, hv]
      · exact resolve_committed 0 (producer_none hEX (hMEM r) fun p hp =>
          hno p (offers_EX_WB_iff.mp hp).1 (offers_EX_WB_iff.mp hp).2)

/-- Settles O39: of the stages the search looks at, MEM holds the SW itself and WB nothing, so only EX can offer. -/
theorem resolveStoreDataInMEM : Obligations.ResolveStoreDataInMEM := by
  intro s s1 m rs2 rs1 imm hinv _ eMEM hi hwb
  have hsound := (inv_iff.mp hinv).1.clearOut
  have hsound1 := hsound.subStep_WB hwb
  have hS1 := stageSubStep_WB_S hwb
  have hWB1 : s1.S.WB = none := by rw [hS1]
  have hMEM1 : s1.S.MEM = some m := by rw [hS1]; exact eMEM
  have hEX1 : s1.S.EX = s.S.EX := by rw [hS1]; rfl
  have hcfg : s1.cfg = s.cfg := (stageSubStep_frame hwb).cfg
  obtain ⟨-, -, hblank, -⟩ := hsound1.staged
  have hnone (e : Record) (he : s1.S.EX = some e) : e.result = none := result_of_blank (hblank e he).1
  have hdepth := maxDepth_pos hsound1
  refine ⟨hWB1, hMEM1, hEX1, hnone, fun p q => reg_of_retired hsound hwb, ?_, ?_⟩
  · rw [← hcfg, ← hEX1]
    intro hlit hr e he
    have hfollower (halu : e.instr.isAlu = true) (hrd : e.instr.rd? = some rs2) :
        producer s1 rs2 .MEM = some (.EX, e) := producer_of_EX ((offers_EX_iff (.inr rfl)).mpr ⟨he, hlit, halu, hrd⟩)
    refine ⟨fun a b hi => ?_, fun a b hi => ?_, fun a k hi => ?_⟩
    · exact resolve_add hr hdepth (hfollower (by rw [hi]; rfl) (by rw [hi]; rfl)) (hnone e he) hi
    · exact resolve_sub hr hdepth (hfollower (by rw [hi]; rfl) (by rw [hi]; rfl)) (hnone e he) hi
    · exact resolve_addi hr hdepth (hfollower (by rw [hi]; rfl) (by rw [hi]; rfl)) (hnone e he) hi
  · rw [← hcfg, ← hEX1]
    intro hother
    by_cases hr : rs2 = s1.cfg.zero
    · rw [hr, resolve_zero, reg_zero]
    · refine resolve_committed 0 (producer_none (fun p hp => ?_) (not_offers_of_sw (st := .MEM) hMEM1 hi)
        (not_offers_of_empty (st := .WB) hWB1))
      obtain ⟨he, hlit, hmatch⟩ := (offers_EX_iff (.inr rfl)).mp hp
      rcases hother with hscope | hzero | hother
      · cases hlit.symm.trans hscope
      · exact hr hzero
      · exact hother p he hmatch

/-! ### The status summary -/

/-- The summary shows the stage of the producer (R130). -/
theorem fwdSource_eq_stage_iff {s : State} {r : Reg} {st : Stage} (hr : r ≠ s.cfg.zero) (hdepth : 1 ≤ s.cfg.maxDepth) :
    fwdSource s r = .stage st ↔ ∃ p, producer s r .ID = some (st, p) := by
  unfold fwdSource
  rw [if_neg hr, if_neg (Nat.ne_of_gt hdepth)]
  cases producer s r .ID with
  | none => simp
  | some x => simp [Prod.ext_iff]

/-- Every stage the search looks at is older than ID, so both settings offer the same to a consumer there. -/
theorem offers_ID_iff {s : State} {r : Reg} {st : Stage} {p : Record} :
    Offers s r .ID st p ↔ (st = .EX ∨ st = .MEM ∨ st = .WB) ∧ s.S.get st = some p ∧ p.instr.rd? = some r ∧
      ¬(p.instr.isLw = true ∧ st = .EX) := by
  have holder : (st = .EX ∨ st = .MEM ∨ st = .WB) → Stage.ID.rank < st.rank := by
    rintro (rfl | rfl | rfl) <;> decide
  constructor
  · rintro ⟨hst, e, -, hrd, hlw⟩
    exact ⟨hst, e, hrd, hlw⟩
  · rintro ⟨hst, e, hrd, hlw⟩
    exact ⟨hst, e, fun _ => holder hst, hrd, hlw⟩

/-- The hazard is pending exactly when the next STEP stalls ID's occupant (R130). -/
theorem detect_iff_next_stalls {s : State} (hinv : s.Inv) (hhost : s.host = []) :
    detect s.S.ID s.S.EX = true ↔
      ∃ t i, step s = .next t ∧ t.S.ID = some i ∧ i.stall = true ∧ s.S.ID.map Record.id = some i.id := by
  constructor
  · intro hd
    obtain ⟨i, l, eID, -⟩ := detect_true hd
    obtain ⟨t, hst, hclock, -⟩ := step_of_inv hinv hhost
    exact ⟨t, _, hst, (clock_stall hclock eID hd).1, rfl, by rw [eID]; rfl⟩
  · rintro ⟨t, i, hst, ei, hi, -⟩
    rw [step_idle hhost] at hst
    exact (stall_iff_detect hinv hst ei).mp hi

/-- Settles O43: `detect_iff_next_stalls`, and the source shown is the stage of the producer that the search returns. -/
theorem statusSummary : Obligations.StatusSummary := by
  refine ⟨fun _ => rfl, fun s => detect_iff_next_stalls, fun s eID => ?_, fun s i eID => ⟨?_, fun r hr => ?_, fun hr => ?_⟩,
    fun s => if_pos rfl, fun s r st hr hdepth => ?_⟩
  · simp [summary, eID]
  · simp [summary, eID, operandView]
  · simp [summary, eID, hr, operandView]
  · simp [summary, eID, hr]
  · simp only [fwdSource_eq_stage_iff hr hdepth, producer_eq_some_iff, offers_ID_iff]
    constructor
    · rintro ⟨p, ⟨hst, e, hrd, hlw⟩, hfirst⟩
      exact ⟨hst, ⟨p, e, hrd, hlw⟩, fun st' p' hst' e' hrd' hlw' => hfirst st' p' ⟨hst', e', hrd', hlw'⟩⟩
    · rintro ⟨hst, ⟨p, e, hrd, hlw⟩, hfirst⟩
      exact ⟨p, ⟨hst, e, hrd, hlw⟩, fun st' p' ⟨hst', e', hrd', hlw'⟩ => hfirst st' p' hst' e' hrd' hlw'⟩

end Sys2Proof.Machine
end

section
/-! Proofs of the statements of 41_arith.md: what the encoded word of each format holds, what an ALU instruction answers in
each of its sub-steps, and R152 to R154 put together from these. -/

namespace Sys2Proof.Machine

/-! ### The fields of an encoded word -/

/-- The register fields of format R (R73, R76). -/
theorem formatR_field_values (f : BitVec 7) (rs2 rs1 rd : Reg) (g : BitVec 3) (op : BitVec 7) :
    ((formatR f rs2 rs1 g rd op).extractLsb 11 7).toNat = rd.val ∧
      ((formatR f rs2 rs1 g rd op).extractLsb 19 15).toNat = rs1.val ∧
      ((formatR f rs2 rs1 g rd op).extractLsb 24 20).toNat = rs2.val := by
  obtain ⟨hrd, hrs1, hrs2⟩ := formatR_operands f rs2 rs1 rd g op
  exact ⟨(regField_eq_iff.mp hrd).symm, (regField_eq_iff.mp hrs1).symm, (regField_eq_iff.mp hrs2).symm⟩

/-- The fields of format I (R74, R76, R77): an immediate of any size shows as the 12-bit value it wraps to. -/
theorem formatI_field_values (imm : Imm) (rs1 rd : Reg) (g : BitVec 3) (op : BitVec 7) :
    ((formatI (immBits imm) rs1 g rd op).extractLsb 11 7).toNat = rd.val ∧
      ((formatI (immBits imm) rs1 g rd op).extractLsb 19 15).toNat = rs1.val ∧
      ((formatI (immBits imm) rs1 g rd op).extractLsb 31 20).toInt = wrap 12 imm := by
  obtain ⟨hrd, hrs1, himm⟩ := formatI_operands (immBits imm) rs1 rd g op
  exact ⟨(regField_eq_iff.mp hrd).symm, (regField_eq_iff.mp hrs1).symm, himm⟩

/-! ### What an instruction answers in EX, MEM and WB -/

theorem setReg_of_ne {s : State} {rd : Reg} (v : Word) (h : rd ≠ s.cfg.zero) :
    s.setReg rd v = { s with RF := s.RF.set rd.val v } := by
  rw [State.setReg, regSet, if_neg h]

section SubSteps

variable {i : Instr} {s : State} {r : Record} {rd : Reg}

theorem exec_EX_add (rd rs1 rs2 : Reg) (hsub : s.sub = .EX) (e : s.S.EX = some r) :
    exec (.add rd rs1 rs2) s =
      .next (s.exToMem { r with result := some (wrap s.cfg.xlen (resolve s rs1 .EX 0 + resolve s rs2 .EX 0)) }) := by
  rw [← enter_eq_self hsub, exec_at_EX _ e]
  rfl

theorem exec_EX_sub (rd rs1 rs2 : Reg) (hsub : s.sub = .EX) (e : s.S.EX = some r) :
    exec (.sub rd rs1 rs2) s =
      .next (s.exToMem { r with result := some (wrap s.cfg.xlen (resolve s rs1 .EX 0 - resolve s rs2 .EX 0)) }) := by
  rw [← enter_eq_self hsub, exec_at_EX _ e]
  rfl

theorem exec_EX_addi (rd rs1 : Reg) (imm : Imm) (hsub : s.sub = .EX) (e : s.S.EX = some r) :
    exec (.addi rd rs1 imm) s =
      .next (s.exToMem { r with result := some (wrap s.cfg.xlen (resolve s rs1 .EX 0 + sext s.cfg.xlen imm)) }) := by
  rw [← enter_eq_self hsub, exec_at_EX _ e]
  rfl

/-- MEM of an ALU instruction only moves the record (R106). -/
theorem exec_MEM_alu (halu : i.isAlu = true) (hsub : s.sub = .MEM) (e : s.S.MEM = some r) :
    exec i s = .next (s.memToWb r) := by
  rw [← enter_eq_self hsub, exec_at_MEM i e]
  cases i with
  | add | sub | addi => rfl
  | lw | sw => cases halu

/-- WB with a destination is the commit of that register (R105). -/
theorem exec_WB_commit (hrd : i.rd? = some rd) (hsub : s.sub = .WB) (e : s.S.WB = some r) :
    exec i s = wbCommit rd r s := by
  rw [← enter_eq_self hsub, exec_at_WB i e, hrd]

/-- WB with destination `ZERO` retires the record and writes nothing, whatever result it carries. -/
theorem exec_WB_zero (hrd : i.rd? = some rd) (hsub : s.sub = .WB) (e : s.S.WB = some r) (hz : rd = s.cfg.zero) :
    exec i s = .next (s.retire r) := by
  rw [exec_WB_commit hrd hsub e, hz, wbCommit_zero]

/-- WB with any other destination retires the record and writes its result there. -/
theorem exec_WB_value {v : Word} (hrd : i.rd? = some rd) (hsub : s.sub = .WB) (e : s.S.WB = some r)
    (hz : rd ≠ s.cfg.zero) (hv : r.result = some v) :
    exec i s = .next { s.retire r with RF := s.RF.set rd.val v } := by
  rw [exec_WB_commit hrd hsub e, wbCommit_value hz hv]
  exact congrArg Host.Outcome.next (setReg_of_ne (s := s.retire r) v hz)

end SubSteps

/-! ### The statements -/

/-- Settles O12: the fixed bits and fields of format R, then one equation per sub-step. -/
theorem addInEachSubStep : Obligations.AddInEachSubStep := fun rd rs1 rs2 =>
  ⟨⟨encode_matches (.add rd rs1 rs2), formatR_field_values ..⟩,
    fun _ _ => exec_EX_add rd rs1 rs2,
    fun _ _ => exec_MEM_alu rfl,
    fun _ _ => exec_WB_zero rfl,
    fun _ _ _ => exec_WB_value rfl,
    resolve_zero⟩

/-- Settles O13: as O12, with the difference in EX. -/
theorem subInEachSubStep : Obligations.SubInEachSubStep := fun rd rs1 rs2 =>
  ⟨⟨encode_matches (.sub rd rs1 rs2), formatR_field_values ..⟩,
    fun _ _ => exec_EX_sub rd rs1 rs2,
    fun _ _ => exec_MEM_alu rfl,
    fun _ _ => exec_WB_zero rfl,
    fun _ _ _ => exec_WB_value rfl⟩

/-- Settles O14: the fields of format I, and the sign-extended immediate as the second operand in EX. -/
theorem addiInEachSubStep : Obligations.AddiInEachSubStep := fun rd rs1 imm =>
  ⟨⟨encode_matches (.addi rd rs1 imm), formatI_field_values ..⟩,
    fun _ _ => exec_EX_addi rd rs1 imm,
    fun _ _ => exec_MEM_alu rfl,
    fun _ _ => exec_WB_zero rfl,
    fun _ _ _ => exec_WB_value rfl⟩

end Sys2Proof.Machine
end

section
/-! Proofs of the statements of 42_loadstore.md: what the encoded word of format S holds, what LW and SW answer in EX, MEM
and WB, and R170 and R171 put together from these. -/

namespace Sys2Proof.Machine

/-! ### The fields of an encoded word -/

/-- The fields of format S (R75, R76, R78): an immediate of any size shows as the 12-bit value it wraps to. -/
theorem formatS_field_values (imm : Imm) (rs2 rs1 : Reg) (g : BitVec 3) (op : BitVec 7) :
    ((formatS (immBits imm) rs2 rs1 g op).extractLsb 24 20).toNat = rs2.val ∧
      ((formatS (immBits imm) rs2 rs1 g op).extractLsb 19 15).toNat = rs1.val ∧
      ((formatS (immBits imm) rs2 rs1 g op).extractLsb 31 25 ++
        (formatS (immBits imm) rs2 rs1 g op).extractLsb 11 7).toInt = wrap 12 imm := by
  obtain ⟨hrs2, hrs1, himm⟩ := formatS_operands (immBits imm) rs2 rs1 g op
  exact ⟨(regField_eq_iff.mp hrs2).symm, (regField_eq_iff.mp hrs1).symm, himm⟩

/-! ### What LW and SW answer in EX, MEM and WB -/

theorem memLoad_some {r : Record} {k : Int} (s : State) (hk : r.idx = some k) :
    memLoad r s = .next ((memReadAt s k r.id).2.memToWb { r with result := some (memReadAt s k r.id).1 }) := by
  simp only [memLoad, hk]

theorem memStore_some {r : Record} {k : Int} (v : Word) (s : State) (hk : r.idx = some k) :
    memStore v r s = .next ((memWriteAt s k v r.id).memToWb r) := by
  simp only [memStore, hk]

section SubSteps

variable {i : Instr} {s : State} {r : Record} {rd rs1 rs2 : Reg} {imm : Imm}

/-- EX of LW and SW records the address and its word index (R51, R52, R172). -/
theorem exec_EX_access {ea : Word} (halu : i.isAlu = false) (himm : i.imm? = some imm) (hsub : s.sub = .EX)
    (e : s.S.EX = some r) (hea : ea = wrap s.cfg.xlen (resolve s i.rs1 .EX 0 + sext s.cfg.xlen imm)) :
    exec i s = .next (s.exToMem { r with ea := some ea, idx := some (wordIndex ea) }) := by
  rw [← enter_eq_self hsub, exec_at_EX i e, enter_eq_self hsub]
  cases i with
  | add | sub | addi => cases halu
  | lw | sw =>
    cases himm
    rw [hea]
    rfl

/-- MEM of LW is the read at the record's index (R54). -/
theorem exec_MEM_lw {k : Int} (hsub : s.sub = .MEM) (e : s.S.MEM = some r) (hk : r.idx = some k) :
    exec (.lw rd rs1 imm) s =
      .next ((memReadAt s k r.id).2.memToWb { r with result := some (memReadAt s k r.id).1 }) := by
  rw [← enter_eq_self hsub, exec_at_MEM _ e, enter_eq_self hsub]
  exact memLoad_some s hk

/-- MEM of SW is the write of the data register, as MEM sees it, at the record's index (R55, R174). -/
theorem exec_MEM_sw {k : Int} (hsub : s.sub = .MEM) (e : s.S.MEM = some r) (hk : r.idx = some k) :
    exec (.sw rs2 rs1 imm) s = .next ((memWriteAt s k (resolve s rs2 .MEM 0) r.id).memToWb r) := by
  rw [← enter_eq_self hsub, exec_at_MEM _ e, enter_eq_self hsub]
  exact memStore_some _ s hk

theorem exec_MEM_lw_valid {k : Nat} (hsub : s.sub = .MEM) (e : s.S.MEM = some r) (hk : r.idx = some (k : Int))
    (hvalid : k < s.cfg.memWords) :
    exec (.lw rd rs1 imm) s = .next (s.memToWb { r with result := some (s.dm k) }) := by
  rw [exec_MEM_lw hsub e hk, memReadAt_valid r.id (validIndex_natCast hvalid), Int.toNat_natCast]

/-- A read at an invalid index gives 0 and is logged (R54, R202). -/
theorem exec_MEM_lw_invalid {k : Int} (hsub : s.sub = .MEM) (e : s.S.MEM = some r) (hk : r.idx = some k)
    (hinvalid : ¬(0 ≤ k ∧ k < (s.cfg.memWords : Int))) :
    exec (.lw rd rs1 imm) s = .next ((s.logFault .read k r.id).memToWb { r with result := some 0 }) := by
  rw [exec_MEM_lw hsub e hk, memReadAt_invalid r.id (validIndex_eq_false hinvalid)]

theorem exec_MEM_sw_valid {k : Nat} (hsub : s.sub = .MEM) (e : s.S.MEM = some r) (hk : r.idx = some (k : Int))
    (hvalid : k < s.cfg.memWords) :
    exec (.sw rs2 rs1 imm) s = .next ((s.setDm k (resolve s rs2 .MEM 0)).memToWb r) := by
  rw [exec_MEM_sw hsub e hk, memWriteAt_valid _ r.id (validIndex_natCast hvalid), Int.toNat_natCast]

/-- A write at an invalid index is skipped and logged (R55, R202). -/
theorem exec_MEM_sw_invalid {k : Int} (hsub : s.sub = .MEM) (e : s.S.MEM = some r) (hk : r.idx = some k)
    (hinvalid : ¬(0 ≤ k ∧ k < (s.cfg.memWords : Int))) :
    exec (.sw rs2 rs1 imm) s = .next ((s.logFault .write k r.id).memToWb r) := by
  rw [exec_MEM_sw hsub e hk, memWriteAt_invalid _ r.id (validIndex_eq_false hinvalid)]

/-- WB without a destination only retires the record (R105). -/
theorem exec_WB_plain (hrd : i.rd? = none) (hsub : s.sub = .WB) (e : s.S.WB = some r) :
    exec i s = .next (s.retire r) := by
  rw [← enter_eq_self hsub, exec_at_WB i e, hrd]
  rfl

end SubSteps

/-! ### The statements -/

/-- Settles O15: the fixed bits and fields of format I, then one equation per sub-step, two of them for the read. -/
theorem lwInEachSubStep : Obligations.LwInEachSubStep := fun rd rs1 imm =>
  ⟨⟨encode_matches (.lw rd rs1 imm), formatI_field_values ..⟩,
    fun _ _ _ => exec_EX_access (i := .lw rd rs1 imm) rfl rfl,
    fun _ _ _ => exec_MEM_lw_valid,
    fun _ _ _ => exec_MEM_lw_invalid,
    fun _ _ => exec_WB_zero rfl,
    fun _ _ _ => exec_WB_value rfl⟩

/-- Settles O16: the fields of format S, and in MEM the write, which read-after-write says word by word. -/
theorem swInEachSubStep : Obligations.SwInEachSubStep := by
  intro rs2 rs1 imm
  refine ⟨⟨encode_matches (.sw rs2 rs1 imm), formatS_field_values ..⟩,
    fun _ _ _ => exec_EX_access (i := .sw rs2 rs1 imm) rfl rfl,
    fun s r k hsub e hk hvalid => ⟨_, exec_MEM_sw_valid hsub e hk hvalid, ?_, fun j hj => ?_, rfl⟩,
    fun _ _ _ => exec_MEM_sw_invalid,
    fun _ _ => exec_WB_plain rfl⟩
  · exact (dm_setDm s k k _).trans (if_pos rfl)
  · exact (dm_setDm s k j _).trans (if_neg hj)

end Sys2Proof.Machine
end

section
/-! Proofs of the statements of 60_exceptions.md: what an invalid access leaves behind (R202), the answer of a full queue
(R204), and the error kinds the outputs show (R201, R205). -/

namespace Sys2Proof.Machine

/-! ### An invalid access in MEM -/

/-- The kind of access an LW or SW makes (R38). -/
def accessKind (i : Instr) : AccessKind := if i.isLw then .read else .write

/-- What an LW or SW becomes in MEM when its access is invalid (R202): an LW has read 0, an SW has skipped its write. -/
def Record.degraded (r : Record) : Record := if r.instr.isLw then { r with result := some 0 } else r

theorem degraded_load {r : Record} (h : r.instr.isLw = true) : r.degraded = { r with result := some 0 } := if_pos h

theorem degraded_store {r : Record} (h : r.instr.isLw = false) : r.degraded = r := if_neg (by simp [h])

@[simp] theorem Record.degraded_id (r : Record) : r.degraded.id = r.id := by
  unfold Record.degraded; split <;> rfl

@[simp] theorem Record.degraded_instr (r : Record) : r.degraded.instr = r.instr := by
  unfold Record.degraded; split <;> rfl

/-- Of the LW and SW only the LW has a destination. -/
theorem isLw_of_rd? {i : Instr} {rd : Reg} (halu : i.isAlu = false) (hrd : i.rd? = some rd) : i.isLw = true := by
  cases i with
  | add | sub | addi => cases halu
  | lw => rfl
  | sw => cases hrd

section InvalidAccess

variable {s t : State} {m : Record} {k : Int}

/-- The MEM sub-step of an invalid access logs it and moves the degraded record on (R54, R55, R202). -/
theorem stageSubStep_MEM_invalid (e : s.S.MEM = some m) (halu : m.instr.isAlu = false) (hk : m.idx = some k)
    (hinvalid : ¬(0 ≤ k ∧ k < (s.cfg.memWords : Int))) :
    stageSubStep .MEM s = .next (((s.enter .MEM).logFault (accessKind m.instr) k m.id).memToWb m.degraded) := by
  rw [stageSubStep_occupied (st := .MEM) e]
  cases hi : m.instr with
  | add | sub | addi => rw [hi] at halu; cases halu
  | lw rd rs1 imm =>
    rw [degraded_load (by simp [hi, Instr.isLw])]
    exact exec_MEM_lw_invalid (s := s.enter .MEM) rfl e hk hinvalid
  | sw rs2 rs1 imm =>
    rw [degraded_store (by simp [hi, Instr.isLw])]
    exact exec_MEM_sw_invalid (s := s.enter .MEM) rfl e hk hinvalid

/-- A STEP with an invalid access: the record it leaves in WB, the memory, the log entry and the outputs. -/
theorem clock_invalid (h : clock s = .next t) (e : s.S.MEM = some m) (halu : m.instr.isAlu = false) (hk : m.idx = some k)
    (hinvalid : ¬(0 ≤ k ∧ k < (s.cfg.memWords : Int))) :
    t.S.WB = some m.degraded ∧ t.DM = s.DM ∧ t.F = s.F ++ [⟨s.cyc + 1, accessKind m.instr, k, m.id⟩] ∧
      t.out = ⟨.none, s.S.WB.map Record.id, some (accessKind m.instr, wrap s.cfg.xlen k)⟩ := by
  obtain ⟨s1, s2, s3, hwb, hmem, hex, rfl⟩ := clock_eq_next.mp h
  have fwb := stageSubStep_frame hwb
  have fex := stageSubStep_frame hex
  have hcfg : s1.cfg = s.cfg := fwb.cfg
  have hDM : s1.DM = s.DM := fwb.DM nofun
  have hF : s1.F = s.F := fwb.F nofun
  have hcyc : s1.cyc = s.cyc := fwb.cyc
  have hout : s1.out = ⟨.none, s.S.WB.map Record.id, none⟩ := by simpa [Outputs.idle] using stageSubStep_WB_out hwb
  have hMEM : s1.S.MEM = some m := by rw [stageSubStep_WB_S hwb]; exact e
  rw [stageSubStep_MEM_invalid hMEM halu hk (by rwa [hcfg])] at hmem
  cases hmem
  rw [advance_WB, advance_DM, advance_F, advance_out, stageSubStep_EX_WB hex, fex.DM nofun, fex.F nofun,
    stageSubStep_EX_out hex]
  simp [hcfg, hDM, hF, hcyc, hout]

/-- The STEP after an invalid load leaves 0 in the load's `rd` (R202): a destination other than `ZERO` gets the 0 that was
read, and `ZERO` reads 0 anyway. -/
theorem reg_of_degraded_load (hs : s.Inv) (hhost : s.host = []) (hstep : step s = .next t)
    (e : s.S.WB = some m.degraded) (halu : m.instr.isAlu = false) {rd : Reg} (hrd : m.instr.rd? = some rd) :
    t.reg rd = 0 := by
  obtain ⟨hwrite, -, hzero⟩ := stepWritesOnlyTheRetiringRegister s t hhost hstep rd
  by_cases hz : rd = s.cfg.zero
  · exact hzero hz
  · have hrd' : m.degraded.instr.rd? = some rd := by rw [Record.degraded_instr, hrd]
    have hlt : rd.val < s.RF.length := (inv_iff.mp hs).1.rd_lt_of_stage (st := .WB) e hrd'
    have hread : m.degraded.result = some 0 := by rw [degraded_load (isLw_of_rd? halu hrd)]
    exact hwrite m.degraded 0 e hrd' hz hlt hread

end InvalidAccess

/-! ### The error shown on the outputs -/

theorem submit_illegal {w : BitVec 32} {s : State} {x : DecodeError} (hd : decode s.cfg.nreg s.cfg.immW w = .error x) :
    submit w s = s.respond .malformed :=
  submit_of_not_decoded (by simp [hd])

/-- A STEP answers no SUBMIT, so its outputs show the kind of the access it logged (R201, R205). -/
theorem error_of_fault (i : Instr) (retired : Option Nat) (v : Word) :
    Outputs.error ⟨.none, retired, some (accessKind i, v)⟩ =
      some (if i.isLw then .invalidRead else .invalidWrite) := by
  cases hi : i.isLw <;> simp [accessKind, Outputs.error, hi]

/-! ### The statements -/

/-- Settles O31: the codes by computation; a SUBMIT by its refusals, a STEP by the access it logs. -/
theorem errorKindsAndCodes : Obligations.ErrorKindsAndCodes := by
  refine ⟨rfl, rfl, rfl, rfl, rfl, rfl, rfl, rfl, rfl, fun w s t x hd h => ?_, fun w s t i hd hq h => ?_,
    fun s t m k hhost hstep e halu hk hinvalid => ?_⟩
  · cases h
    rw [submit_illegal hd]
    rfl
  · cases h
    rw [submit_full hd hq]
    rfl
  · rw [step_idle hhost] at hstep
    obtain ⟨-, -, -, hout⟩ := clock_invalid hstep e halu hk hinvalid
    rw [hout]
    exact error_of_fault ..

/-- Settles O32: the first STEP logs the access and brings the degraded record to WB, the second retires it. -/
theorem invalidAccessDegrades : Obligations.InvalidAccessDegrades := by
  intro s m k hinv hhost e halu hk hinvalid
  obtain ⟨t, hst, hs, htinv, hthost⟩ := step_of_inv hinv hhost
  obtain ⟨u, htu, ht, -⟩ := step_of_inv htinv hthost
  obtain ⟨hWB, hDM, hF, -⟩ := clock_invalid hs e halu hk hinvalid
  have hL : u.L = t.L ++ [m.degraded] := by rw [(clock_log ht).1, hWB]; rfl
  exact ⟨t, u, hst, htu, hDM, clock_cyc hs, hF, ⟨m.degraded, hL, m.degraded_id, m.degraded_instr⟩,
    fun rd => reg_of_degraded_load htinv hthost htu hWB halu⟩

/-- Settles O9: of SUBMIT's three cases a full queue excludes the append; with no bound the queue is never full. -/
theorem queueFullRefusesAndKeepsState : Obligations.QueueFullRefusesAndKeepsState := by
  refine ⟨fun w s hq => ⟨submit w s, rfl, ?_⟩, fun w s t hq h => ?_⟩
  · rcases submit_cases w s with hw | hw | ⟨i, -, hfree, -⟩
    · rw [hw]; exact ⟨rfl, rfl, rfl, rfl, rfl, rfl, rfl, rfl, .inr rfl⟩
    · rw [hw]; exact ⟨rfl, rfl, rfl, rfl, rfl, rfl, rfl, rfl, .inl rfl⟩
    · rw [queueFull_iff.mpr hq] at hfree; cases hfree
  · cases h
    cases hd : decode s.cfg.nreg s.cfg.immW w with
    | error x => rw [submit_illegal hd]; exact nofun
    | ok i => rw [submit_accepted hd (by simp [hq])]; exact nofun

end Sys2Proof.Machine
end

section
/-! Proofs of the statements about RESET (70_reset_and_hazards.md R230, R231): what it writes, that nothing else clears a
log or a counter, and that it reads the parameters only. -/

namespace Sys2Proof.Machine

/-! ### What RESET writes -/

/-- The records of a program stand in order, numbered from the first (R37). -/
theorem getElem?_numbered (n : Nat) (p : List Instr) (j : Nat) :
    (numbered n p)[j]? = p[j]?.map (Record.fresh (n + j)) := by
  induction p generalizing n j with
  | nil => simp [numbered]
  | cons i p ih =>
    cases j with
    | zero => rfl
    | succ j => simp [numbered, ih, Nat.add_assoc, Nat.add_comm 1]

theorem initial_RF_at_zero {c : Config} (h : c.zero.val < c.resetRegs.length) :
    (State.initial c).RF[c.zero.val]? = some 0 := List.getElem?_set_self h

theorem initial_RF_of_ne {c : Config} {r : Reg} (h : r ≠ c.zero) :
    (State.initial c).RF[r.val]? = c.resetRegs[r.val]? :=
  List.getElem?_set_ne fun e => h (Fin.ext e.symm)

/-- The memory of RESET lists no word, and an unlisted one reads as `RESET_MEM`. -/
theorem initial_dm_eq_resetWord (c : Config) (k : Nat) : (State.initial c).dm k = c.resetWord k := rfl

theorem initial_Q_getElem? {c : Config} {j : Nat} {i : Instr} (h : c.defaultProg[j]? = some i) :
    (State.initial c).Q[j]? = some (Record.fresh j i) := by
  simp [State.initial, getElem?_numbered, h]

/-! ### The other commands clear nothing -/

theorem clock_nextId {s t : State} (h : clock s = .next t) : t.nextId = s.nextId := by
  obtain ⟨s1, s2, s3, hwb, hmem, hex, rfl⟩ := clock_eq_next.mp h
  have hid := (stageSubStep_frame hex).nextId.trans
    ((stageSubStep_frame hmem).nextId.trans (stageSubStep_frame hwb).nextId)
  simpa using hid

/-- The logs of `s` are beginnings of those of `t`, and no counter has gone down. -/
structure Grows (s t : State) : Prop where
  L : s.L <+: t.L
  F : s.F <+: t.F
  cyc : s.cyc ≤ t.cyc
  nextId : s.nextId ≤ t.nextId

theorem submit_grows (w : BitVec 32) (s : State) : Grows s (submit w s) := by
  rcases submit_cases w s with h | h | ⟨i, -, -, h⟩ <;> rw [h]
  · exact ⟨List.prefix_rfl, List.prefix_rfl, le_rfl, le_rfl⟩
  · exact ⟨List.prefix_rfl, List.prefix_rfl, le_rfl, le_rfl⟩
  · exact ⟨List.prefix_rfl, List.prefix_rfl, le_rfl, Nat.le_succ _⟩

/-- A STEP appends to the logs what it retires and what it logs (R105, R38). -/
theorem clock_grows {s t : State} (h : clock s = .next t) : Grows s t := by
  obtain ⟨hL, -, hF⟩ := clock_log h
  refine ⟨hL ▸ List.prefix_append .., ?_, by rw [clock_cyc h]; exact Nat.le_succ _, (clock_nextId h).ge⟩
  rcases hF with ⟨hF, -⟩ | ⟨kind, k, id, -, hF, -⟩ <;> rw [hF]
  exact List.prefix_append ..

theorem command_grows {c : Command} {s t : State} (hc : c ≠ .reset) (h : command c s = .next t) : Grows s t := by
  cases c with
  | none => cases h; exact ⟨List.prefix_rfl, List.prefix_rfl, le_rfl, le_rfl⟩
  | submit w => cases h; exact submit_grows w s
  | step => exact clock_grows h
  | reset => exact absurd rfl hc

/-! ### The statements -/

/-- Settles O5: the reset state is that of the configuration; every other command only adds. -/
theorem resetWritesEveryElement : Obligations.ResetWritesEveryElement := by
  refine ⟨fun s => ⟨reset s, rfl, initial_RF_length s.cfg, initial_RF_at_zero, fun r => initial_RF_of_ne,
    fun k _ => initial_dm_eq_resetWord s.cfg k, rfl, rfl, rfl, rfl, rfl, length_numbered 0 s.cfg.defaultProg,
    fun j i => initial_Q_getElem?, rfl, rfl, rfl, rfl, rfl, rfl, rfl, rfl, rfl⟩, fun c s t hc h => ?_⟩
  obtain ⟨hL, hF, hcyc, hnextId⟩ := command_grows hc h
  exact ⟨hL, hF, hcyc, hnextId⟩

theorem reset_reset (s : State) : reset (reset s) = reset s := rfl

theorem reset_congr {s u : State} (hcfg : s.cfg = u.cfg) (hhost : s.host = u.host) : reset s = reset u := by
  rw [reset, reset, hcfg, hhost]

/-- Settles O7: `reset` reads the parameters and the host's list, and keeps both. -/
theorem resetIdempotentAndHistoryIndependent : Obligations.ResetIdempotentAndHistoryIndependent :=
  ⟨fun s => congrArg Host.Outcome.next (reset_reset s),
    fun _ _ hcfg hhost => congrArg Host.Outcome.next (reset_congr hcfg hhost)⟩

end Sys2Proof.Machine
end

section
/-! What the EX sub-step computes, said once for the five instructions as a function of the values of their sources, and
from which register values the sequential reading computes the same (70_reset_and_hazards.md R239). -/

namespace Sys2Proof

/-- What EX computes from the values `x` of the sources: the result of an ADD, SUB or ADDI, the address of an LW or SW. -/
def Instr.exValue (xlen : Nat) (i : Instr) (x : Reg → Word) : Word :=
  match i with
  | .add _ a b => Machine.aluAdd xlen (x a) (x b)
  | .sub _ a b => Machine.aluSub xlen (x a) (x b)
  | .addi _ a imm => Machine.aluAdd xlen (x a) (Machine.sext xlen imm)
  | .lw _ a imm => Machine.effectiveAddress xlen (x a) imm
  | .sw _ a imm => Machine.effectiveAddress xlen (x a) imm

/-- `r` is a source in EX: the data register of an SW is read in MEM only (R174). -/
def Instr.ReadsInEX (i : Instr) (r : Reg) : Prop := r = i.rs1 ∨ (i.isAlu = true ∧ i.rs2? = some r)

/-- EX depends on the sources alone. -/
theorem exValue_congr {xlen : Nat} {i : Instr} {x y : Reg → Word} (h : ∀ r, i.ReadsInEX r → x r = y r) :
    i.exValue xlen x = i.exValue xlen y := by
  have hrs1 : x i.rs1 = y i.rs1 := h _ (.inl rfl)
  cases i with
  | add rd a b => exact congrArg₂ (Machine.aluAdd xlen) hrs1 (h b (.inr ⟨rfl, rfl⟩))
  | sub rd a b => exact congrArg₂ (Machine.aluSub xlen) hrs1 (h b (.inr ⟨rfl, rfl⟩))
  | addi rd a imm => exact congrArg (Machine.aluAdd xlen · _) hrs1
  | lw rd a imm => exact congrArg (Machine.effectiveAddress xlen · imm) hrs1
  | sw rs2 a imm => exact congrArg (Machine.effectiveAddress xlen · imm) hrs1

namespace Machine

/-- The record with what EX brings it (R107). -/
def Record.withExValue (r : Record) (v : Word) : Record :=
  if r.instr.isAlu then { r with result := some v } else { r with ea := some v, idx := some (wordIndex v) }

theorem withExValue_alu {r : Record} (h : r.instr.isAlu = true) (v : Word) :
    r.withExValue v = { r with result := some v } := if_pos h

@[simp] theorem withExValue_id (r : Record) (v : Word) : (r.withExValue v).id = r.id := by
  unfold Record.withExValue; split <;> rfl

/-- EX of any instruction: the value computed from what the forwarding unit gives for the sources, and the move to MEM. -/
theorem exec_EX {s : State} {e : Record} (hsub : s.sub = .EX) (he : s.S.EX = some e) :
    exec e.instr s =
      .next (s.exToMem (e.withExValue (e.instr.exValue s.cfg.xlen fun a => resolve s a .EX 0))) := by
  obtain ⟨id, i, stall, result, ea, idx⟩ := e
  rw [← enter_eq_self hsub, exec_at_EX _ he, enter_eq_self hsub]
  cases i <;> rfl

theorem stageSubStep_EX_occupied {s : State} {e : Record} (he : s.S.EX = some e) :
    stageSubStep .EX s = .next ((s.enter .EX).exToMem
      (e.withExValue (e.instr.exValue s.cfg.xlen fun a => resolve s a .EX 0))) := by
  rw [stageSubStep_occupied (st := .EX) he, exec_EX rfl (by exact he)]
  simp only [State.enter_cfg, resolve_enter]

/-- A producer without a result is computed again, from its own sources one level deeper (R115). -/
theorem resolveWithin_alu {s : State} {r : Reg} {c st : Stage} {p : Record} (n : Nat) (hr : r ≠ s.cfg.zero)
    (hp : producer s r c = some (st, p)) (hv : p.result = none) (halu : p.instr.isAlu = true) :
    resolveWithin (n + 1) s r c = p.instr.exValue s.cfg.xlen fun a => resolveWithin n s a st := by
  rw [resolveWithin, if_neg hr]
  simp only [hp, hv]
  cases hi : p.instr with
  | add | sub | addi => rfl
  | lw | sw => simp [hi, Instr.isAlu] at halu

end Machine

end Sys2Proof
end

section
/-! Proof of the statement about an instruction that names its own `rd` (70_reset_and_hazards.md R237): under LITERAL the
forwarding unit applies the instruction to its own register once for each level of the recursion, so that the table's rows
are iterates of one function. -/

namespace Sys2Proof.Machine

/-! ### Iterates of a wrapped function -/

/-- Words may be wrapped at the end only, when `g` gives the same word for a number and for its wrap. -/
theorem iterate_wrap {n : Nat} {f g : Int → Int} (hf : ∀ x, f x = wrap n (g x))
    (hg : ∀ x, wrap n (g (wrap n x)) = wrap n (g x)) (m : Nat) (v : Int) : f^[m + 1] v = wrap n (g^[m + 1] v) := by
  have hsemi : Function.Semiconj (wrap n) g f := fun x => by rw [hf, hg]
  rw [Function.iterate_succ_apply, Function.iterate_succ_apply, hf, hsemi.iterate_right m (g v)]

/-- `f` adds `k` and wraps. -/
theorem iterate_add_wrap {n : Nat} {f : Int → Int} {k : Int} (hf : ∀ x, f x = wrap n (x + k)) (m : Nat) (v : Int) :
    f^[m + 1] v = wrap n (v + (m + 1) * k) := by
  rw [iterate_wrap hf (fun x => wrap_wrap_add ..), add_right_iterate]
  simp

/-! ### The instruction as a function of its own register -/

/-- The instruction as a function of its own register `r`, every other source being `w`. -/
def ownStep (xlen : Nat) (i : Instr) (r : Reg) (w x : Word) : Word := i.exValue xlen fun a => if a = r then x else w

section Rows

variable {r q : Reg} (n : Nat) (k : Imm) (v w : Word) (m : Nat)

theorem ownStep_addi : (ownStep n (.addi r r k) r w)^[m + 1] v = wrap n (v + (m + 1) * k) :=
  iterate_add_wrap (fun x => by simp [ownStep, Instr.exValue, aluAdd, sext]) m v

theorem ownStep_add_left (h : q ≠ r) : (ownStep n (.add r r q) r w)^[m + 1] v = wrap n (v + (m + 1) * w) :=
  iterate_add_wrap (fun x => by simp [ownStep, Instr.exValue, aluAdd, h]) m v

theorem ownStep_add_right (h : q ≠ r) : (ownStep n (.add r q r) r w)^[m + 1] v = wrap n (v + (m + 1) * w) :=
  iterate_add_wrap (fun x => by simp [ownStep, Instr.exValue, aluAdd, h, add_comm]) m v

theorem ownStep_add_both : (ownStep n (.add r r r) r w)^[m + 1] v = wrap n (2 ^ (m + 1) * v) := by
  have hf (x : Int) : ownStep n (.add r r r) r w x = wrap n (2 * x) := by
    simp [ownStep, Instr.exValue, aluAdd, two_mul]
  rw [iterate_wrap hf (fun x => by simp [two_mul]), mul_left_iterate]

theorem ownStep_sub_left (h : q ≠ r) : (ownStep n (.sub r r q) r w)^[m + 1] v = wrap n (v - (m + 1) * w) := by
  have hf (x : Int) : ownStep n (.sub r r q) r w x = wrap n (x + -w) := by
    simp [ownStep, Instr.exValue, aluSub, h, sub_eq_add_neg]
  rw [iterate_add_wrap hf, mul_neg, sub_eq_add_neg]

/-- Subtracting from `w` twice gives the value back. -/
theorem ownStep_sub_right (h : q ≠ r) :
    (ownStep n (.sub r q r) r w)^[m + 1] v = wrap n (if m % 2 = 1 then v else w - v) := by
  have hf (x : Int) : ownStep n (.sub r q r) r w x = wrap n (w - x) := by
    simp [ownStep, Instr.exValue, aluSub, h]
  have hinv : Function.Involutive (w - · : Int → Int) := sub_sub_cancel w
  rw [iterate_wrap hf fun x => wrap_sub_wrap ..]
  split
  · rw [hinv.iterate_even (by rw [Nat.even_iff]; omega), id]
  · rw [hinv.iterate_odd (by rw [Nat.odd_iff]; omega)]

theorem ownStep_sub_both : (ownStep n (.sub r r r) r w)^[m + 1] v = 0 := by
  rw [Function.iterate_succ_apply']
  simp [ownStep, Instr.exValue, aluSub, wrap]

end Rows

/-! ### What EX resolves and computes -/

section Own

variable {s : State} {e : Record} {r q : Reg}

/-- A register that neither the instruction in EX offers itself nor the record in WB writes is read from the register
file. -/
theorem producer_none_of_no_writer (he : s.S.EX = some e) (hMEM : s.S.MEM = none)
    (hEX : ¬(s.cfg.fwdScope = .literal ∧ e.instr.isAlu = true ∧ e.instr.rd? = some q))
    (hWB : ∀ p, s.S.WB = some p → p.instr.rd? ≠ some q) : producer s q .EX = none := by
  refine producer_none (fun p hp => ?_) (not_offers_of_empty (st := .MEM) hMEM) fun p hp => ?_
  · obtain ⟨hp, hmatch⟩ := (offers_EX_iff (.inl rfl)).mp hp
    cases he.symm.trans hp
    exact hEX hmatch
  · obtain ⟨hp, hrd⟩ := offers_EX_WB_iff.mp hp
    exact hWB p hp hrd

/-- With `w` in every source but `r`, EX computes `ownStep` of the value of `r`. -/
theorem exValue_eq_ownStep {i : Instr} {x : Reg → Word} (xlen : Nat) (w : Word)
    (hreads : ∀ a, i.ReadsInEX a → a = r ∨ (a ≠ r ∧ x a = w)) : i.exValue xlen x = ownStep xlen i r w (x r) := by
  refine exValue_congr fun a ha => ?_
  rcases hreads a ha with rfl | ⟨hne, hx⟩
  · simp
  · simp [hne, hx]

/-- Under LITERAL the instruction finds itself at every level, and at the depth bound the committed value of `r`. -/
theorem resolveWithin_own (hlit : s.cfg.fwdScope = .literal) (he : s.S.EX = some e) (hnone : e.result = none)
    (hr : r ≠ s.cfg.zero) (halu : e.instr.isAlu = true) (hrd : e.instr.rd? = some r)
    (hreads : ∀ a, e.instr.ReadsInEX a → a = r ∨ a = q) (hqr : q ≠ r) (hq : producer s q .EX = none) (n : Nat) :
    resolveWithin n s r .EX = (ownStep s.cfg.xlen e.instr r (s.reg q))^[n] (s.reg r) := by
  have hself : producer s r .EX = some (.EX, e) := producer_of_EX ((offers_EX_iff (.inl rfl)).mpr ⟨he, hlit, halu, hrd⟩)
  induction n with
  | zero => simp [resolveWithin, hr]
  | succ n ih =>
    rw [resolveWithin_alu n hr hself hnone halu, Function.iterate_succ_apply', ← ih]
    refine exValue_eq_ownStep _ _ fun a ha => (hreads a ha).imp_right ?_
    rintro rfl
    exact ⟨hqr, resolveWithin_committed n hq⟩

/-- The setting of the table: `e` in EX reads its own `r` and at most one other register `q`, which nothing in flight
writes. The forwarding unit applies the instruction `m` times before EX does: the depth bound under LITERAL, and not at
all under OLDER_ONLY where no older record writes `r`. -/
structure OwnInEX (s : State) (e : Record) (r q : Reg) (m : Nat) : Prop where
  sub : s.sub = .EX
  EX : s.S.EX = some e
  result : e.result = none
  MEM : s.S.MEM = none
  notZero : r ≠ s.cfg.zero
  other : q ≠ r
  WB : ∀ p, s.S.WB = some p → p.instr.rd? ≠ some q
  levels : (s.cfg.fwdScope = .literal ∧ m = s.cfg.maxDepth) ∨
    (s.cfg.fwdScope = .olderOnly ∧ (∀ p, s.S.WB = some p → p.instr.rd? ≠ some r) ∧ m = 0)

/-- EX applies the instruction once more. -/
theorem exec_own {m : Nat} (h : OwnInEX s e r q m) (halu : e.instr.isAlu = true) (hrd : e.instr.rd? = some r)
    (hreads : ∀ a, e.instr.ReadsInEX a → a = r ∨ a = q) :
    exec e.instr s = .next (s.exToMem
      { e with result := some ((ownStep s.cfg.xlen e.instr r (s.reg q))^[m + 1] (s.reg r)) }) := by
  obtain ⟨hsub, he, hnone, hMEM, hr, hqr, hWB, hm⟩ := h
  have hq : producer s q .EX = none :=
    producer_none_of_no_writer he hMEM (by simpa [hrd] using fun _ _ => hqr.symm) hWB
  have hvalue : resolve s r .EX 0 = (ownStep s.cfg.xlen e.instr r (s.reg q))^[m] (s.reg r) := by
    rcases hm with ⟨hlit, rfl⟩ | ⟨holder, hWBr, rfl⟩
    · exact resolveWithin_own hlit he hnone hr halu hrd hreads hqr hq _
    · exact resolve_committed 0 (producer_none_of_no_writer he hMEM (by simp [holder]) hWBr)
  have hcompute : (e.instr.exValue s.cfg.xlen fun a => resolve s a .EX 0) =
      ownStep s.cfg.xlen e.instr r (s.reg q) (resolve s r .EX 0) := by
    refine exValue_eq_ownStep _ _ fun a ha => (hreads a ha).imp_right ?_
    rintro rfl
    exact ⟨hqr, resolve_committed 0 hq⟩
  rw [exec_EX hsub he, withExValue_alu halu, hcompute, hvalue, Function.iterate_succ_apply']

/-- The seven rows, with `m + 1` applications of the instruction to its own register. -/
theorem own_rows {m : Nat} (h : OwnInEX s e r q m) (k : Imm) {res : Word → Prop}
    (hres : ∀ x, exec e.instr s = .next (s.exToMem { e with result := some x }) → res x) :
    (e.instr = .addi r r k → res (wrap s.cfg.xlen (s.reg r + (m + 1) * k))) ∧
    (e.instr = .add r r q → res (wrap s.cfg.xlen (s.reg r + (m + 1) * s.reg q))) ∧
    (e.instr = .add r q r → res (wrap s.cfg.xlen (s.reg r + (m + 1) * s.reg q))) ∧
    (e.instr = .add r r r → res (wrap s.cfg.xlen (2 ^ (m + 1) * s.reg r))) ∧
    (e.instr = .sub r r q → res (wrap s.cfg.xlen (s.reg r - (m + 1) * s.reg q))) ∧
    (e.instr = .sub r q r → res (wrap s.cfg.xlen (if m % 2 = 1 then s.reg r else s.reg q - s.reg r))) ∧
    (e.instr = .sub r r r → res 0) := by
  have hrow {i : Instr} {x : Word} (halu : i.isAlu = true) (hrd : i.rd? = some r)
      (hreads : ∀ a, a = i.rs1 ∨ i.rs2? = some a → a = r ∨ a = q)
      (hx : (ownStep s.cfg.xlen i r (s.reg q))^[m + 1] (s.reg r) = x) (hi : e.instr = i) : res x := by
    subst hi hx
    exact hres _ (exec_own h halu hrd fun a ha => hreads a (ha.imp_right And.right))
  have hqr := h.other
  refine ⟨hrow rfl rfl ?_ (ownStep_addi ..), hrow rfl rfl ?_ (ownStep_add_left _ _ _ _ hqr),
    hrow rfl rfl ?_ (ownStep_add_right _ _ _ _ hqr), hrow rfl rfl ?_ (ownStep_add_both ..),
    hrow rfl rfl ?_ (ownStep_sub_left _ _ _ _ hqr), hrow rfl rfl ?_ (ownStep_sub_right _ _ _ _ hqr),
    hrow rfl rfl ?_ (ownStep_sub_both ..)⟩ <;> simp [Instr.rs1, Instr.rs2?]

end Own

/-! ### The statement -/

/-- Settles O40: the rows of the table are the iterates of `ownStep`, `D + 1` of them under LITERAL and one under
OLDER_ONLY. -/
theorem selfDependencyTable : Obligations.SelfDependencyTable := by
  rintro s e r q k D v w word hsub he hnone hMEM hr hqr rfl - rfl rfl rfl hWB res hres
  refine ⟨fun hlit => ?_, fun holder hWBr => ?_⟩
  · exact own_rows ⟨hsub, he, hnone, hMEM, hr, hqr, hWB, .inl ⟨hlit, rfl⟩⟩ k fun x => (hres x).mpr
  · have hrows := own_rows ⟨hsub, he, hnone, hMEM, hr, hqr, hWB, .inr ⟨holder, hWBr, rfl⟩⟩ k fun x => (hres x).mpr
    simpa using hrows

end Sys2Proof.Machine
end

section
/-! Proofs of the statements about the two anomalies and their absence (70_reset_and_hazards.md R238, R240): without the
patterns of R237 and R238 the forwarding unit gives a consumer in EX the registers as they are once WB has retired, and an
SW in MEM the committed value of its data register, whatever the depth bound. -/

namespace Sys2Proof.Machine

/-! ### The registers once WB has retired -/

/-- `a` once record `w`, with its result, has retired (R105). -/
def Arch.retire (c : Config) (a : Arch) (w : Option Record) : Arch :=
  match w with
  | none => a
  | some p =>
    match p.instr.rd?, p.result with
    | some rd, some v => { a with RF := regSet c.zero a.RF rd v }
    | _, _ => a

theorem retire_none (c : Config) (a : Arch) : a.retire c none = a := rfl

theorem retire_value {p : Record} {rd : Reg} {v : Word} (c : Config) (a : Arch) (hrd : p.instr.rd? = some rd)
    (hv : p.result = some v) : a.retire c (some p) = { a with RF := regSet c.zero a.RF rd v } := by
  simp only [Arch.retire, hrd, hv]

theorem retire_plain {p : Record} (c : Config) (a : Arch) (hrd : p.instr.rd? = none) : a.retire c (some p) = a := by
  simp only [Arch.retire, hrd]

/-- The value of `r` once the occupant of WB has retired. -/
def State.settledReg (s : State) (r : Reg) : Word := regGet s.cfg.zero (s.arch.retire s.cfg s.S.WB).RF r

theorem settledReg_zero (s : State) : s.settledReg s.cfg.zero = 0 := regGet_zero ..

/-- WB's occupant does not change a register that it does not write. -/
theorem settledReg_of_not_written {s : State} {r : Reg} (h : ∀ p, s.S.WB = some p → p.instr.rd? ≠ some r) :
    s.settledReg r = s.reg r := by
  unfold State.settledReg
  cases hWB : s.S.WB with
  | none => rfl
  | some p =>
    cases hrd : p.instr.rd? with
    | none => rw [retire_plain _ _ hrd]; rfl
    | some rd =>
      cases hv : p.result with
      | none => simp only [Arch.retire, hrd, hv]; rfl
      | some v =>
        rw [retire_value _ _ hrd hv]
        exact regGet_regSet_ne s.RF v fun e => h p hWB (e ▸ hrd)

/-- WB's occupant brings the register it writes its result. -/
theorem settledReg_of_written {s : State} (h : s.Sound) {p : Record} {r : Reg} {v : Word} (hWB : s.S.WB = some p)
    (hrd : p.instr.rd? = some r) (hv : p.result = some v) (hr : r ≠ s.cfg.zero) : s.settledReg r = v := by
  rw [State.settledReg, hWB, retire_value _ _ hrd hv]
  have hlt : r.val < s.arch.RF.length := h.rd_lt_of_stage (st := .WB) hWB hrd
  simp [regGet_regSet r v hlt, hr]

/-! ### The patterns -/

/-- An instruction outside the pattern of R237 does not read its own `rd`. -/
theorem not_readsInEX_of_selfDep {z rd : Reg} {i : Instr} (h : selfDep z i = false) (halu : i.isAlu = true)
    (hrd : i.rd? = some rd) (hz : rd ≠ z) : ¬i.ReadsInEX rd := by
  cases i with
  | add d a b | sub d a b =>
    cases hrd
    simp only [selfDep, Bool.and_eq_false_iff, decide_eq_false_iff_not, Bool.or_eq_false_iff, not_not] at h
    obtain ⟨ha, hb⟩ := h.resolve_left hz
    rintro (e | ⟨-, e⟩)
    · exact ha e
    · exact hb (Option.some.inj e).symm
  | addi d a imm =>
    cases hrd
    simp only [selfDep, Bool.and_eq_false_iff, decide_eq_false_iff_not, not_not] at h
    rintro (e | ⟨-, e⟩)
    · exact h.resolve_left hz e
    · cases e
  | lw | sw => cases halu

theorem storeDataPair_eq_false {z rs2 rs1 : Reg} {imm : Imm} {j : Instr} (h : storeDataPair z (.sw rs2 rs1 imm) j = false)
    (hz : rs2 ≠ z) : ¬(j.isAlu = true ∧ j.rd? = some rs2) := by
  simpa [storeDataPair, hz] using h

/-- No anomaly of the forwarding unit can show in the next STEP: OLDER_ONLY, or neither pattern in EX and MEM. -/
abbrev State.AnomalyFree (s : State) : Prop :=
  s.cfg.fwdScope = .olderOnly ∨
    ((∀ e, s.S.EX = some e → selfDep s.cfg.zero e.instr = false) ∧
      ∀ m e, s.S.MEM = some m → s.S.EX = some e → storeDataPair s.cfg.zero m.instr e.instr = false)

/-! ### What the forwarding unit gives without them -/

section Resolve

variable {s : State} {e m : Record} {r rs2 rs1 : Reg} {imm : Imm}

/-- In EX, with MEM empty, a register that the occupant does not offer itself is the one of the retired WB (R118, R121). -/
theorem resolve_EX_of_not_offered (h : s.Sound) (he : s.S.EX = some e) (hMEM : s.S.MEM = none)
    (hown : r = s.cfg.zero ∨ ¬(s.cfg.fwdScope = .literal ∧ e.instr.isAlu = true ∧ e.instr.rd? = some r)) :
    resolve s r .EX 0 = s.settledReg r := by
  by_cases hr : r = s.cfg.zero
  · rw [hr, resolve_zero, settledReg_zero]
  have hEX (p : Record) : ¬Offers s r .EX .EX p := by
    rw [offers_EX_iff (.inl rfl), he]
    rintro ⟨⟨⟩, hmatch⟩
    exact hown.resolve_left hr hmatch
  by_cases hWB : ∃ p, s.S.WB = some p ∧ p.instr.rd? = some r
  · obtain ⟨p, hp, hrd⟩ := hWB
    obtain ⟨-, -, -, -, hcomplete⟩ := h.staged
    obtain ⟨v, hv⟩ := Option.isSome_iff_exists.mp (result_isSome_of_complete (hcomplete p hp) hrd)
    rw [settledReg_of_written h hp hrd hv hr]
    exact resolve_result hr (maxDepth_pos h)
      (producer_of_WB (offers_EX_WB_iff.mpr ⟨hp, hrd⟩) hEX (not_offers_of_empty (st := .MEM) hMEM)) hv
  · have hno : ∀ p, s.S.WB = some p → p.instr.rd? ≠ some r := fun p hp hrd => hWB ⟨p, hp, hrd⟩
    rw [settledReg_of_not_written hno]
    exact resolve_committed 0 (producer_none hEX (not_offers_of_empty (st := .MEM) hMEM) fun p hp =>
      hno p (offers_EX_WB_iff.mp hp).1 (offers_EX_WB_iff.mp hp).2)

/-- Outside the pattern of R237 every source is such a register. -/
theorem resolve_EX_of_source (h : s.Sound) (he : s.S.EX = some e) (hMEM : s.S.MEM = none)
    (hself : s.cfg.fwdScope = .olderOnly ∨ selfDep s.cfg.zero e.instr = false) (hr : e.instr.ReadsInEX r) :
    resolve s r .EX 0 = s.settledReg r := by
  refine resolve_EX_of_not_offered h he hMEM (or_iff_not_imp_left.mpr fun hz => ?_)
  rintro ⟨hlit, halu, hrd⟩
  rcases hself with holder | hself
  · cases holder.symm.trans hlit
  · exact not_readsInEX_of_selfDep hself halu hrd hz hr

/-- Outside the pattern of R238 an SW in MEM stores the committed value (R119). -/
theorem resolve_MEM_of_store (hm : s.S.MEM = some m) (hi : m.instr = .sw rs2 rs1 imm) (hWB : s.S.WB = none)
    (hpair : s.cfg.fwdScope = .olderOnly ∨ rs2 = s.cfg.zero ∨
      ∀ e, s.S.EX = some e → ¬(e.instr.isAlu = true ∧ e.instr.rd? = some rs2)) :
    resolve s rs2 .MEM 0 = s.reg rs2 := by
  by_cases hr : rs2 = s.cfg.zero
  · rw [hr, resolve_zero, reg_zero]
  · refine resolve_committed 0 (producer_none (fun p hp => ?_) (not_offers_of_sw (st := .MEM) hm hi)
      (not_offers_of_empty (st := .WB) hWB))
    obtain ⟨he, hlit, hmatch⟩ := (offers_EX_iff (.inr rfl)).mp hp
    rcases hpair with holder | hzero | hpair
    · cases hlit.symm.trans holder
    · exact hr hzero
    · exact hpair p he hmatch

end Resolve

/-! ### The sub-steps of a STEP without anomalies -/

section SubSteps

variable {s s1 s2 : State}

/-- After the WB sub-step an SW in MEM stores the committed value. -/
theorem State.AnomalyFree.store_resolves (h : s.AnomalyFree) (hwb : stageSubStep .WB s.clearOut = .next s1) {m : Record}
    {rs2 rs1 : Reg} {imm : Imm} (hm : s1.S.MEM = some m) (hi : m.instr = .sw rs2 rs1 imm) :
    resolve s1 rs2 .MEM 0 = s1.reg rs2 := by
  have hS := stageSubStep_WB_S hwb
  have hcfg : s1.cfg = s.cfg := (stageSubStep_frame hwb).cfg
  refine resolve_MEM_of_store hm hi (by rw [hS]) ?_
  rw [hcfg]
  refine h.imp_right fun ⟨_, hpair⟩ => or_iff_not_imp_left.mpr fun hz e he => ?_
  rw [hS] at hm he
  exact storeDataPair_eq_false (hi ▸ hpair m e hm he) hz

/-- After the MEM sub-step EX gets for its sources the registers of the retired WB. -/
theorem State.AnomalyFree.source_resolves (h : s.AnomalyFree) (hs2 : s2.Sound) (hwb : stageSubStep .WB s.clearOut = .next s1)
    (hmem : stageSubStep .MEM s1 = .next s2) {e : Record} (he : s2.S.EX = some e) {r : Reg} (hr : e.instr.ReadsInEX r) :
    resolve s2 r .EX 0 = s2.settledReg r := by
  have hcfg : s2.cfg = s.cfg := (stageSubStep_frame hmem).cfg.trans (stageSubStep_frame hwb).cfg
  refine resolve_EX_of_source hs2 he (stageSubStep_MEM_empties hmem) ?_ hr
  rw [hcfg]
  refine h.imp_right fun ⟨hself, _⟩ => hself e ?_
  rwa [stageSubStep_MEM_EX hmem, stageSubStep_WB_S hwb] at he

/-- The state between the sub-steps of a STEP from a state of the invariant. -/
theorem sound_between (h : s.Inv) (hwb : stageSubStep .WB s.clearOut = .next s1) (hmem : stageSubStep .MEM s1 = .next s2) :
    s1.Sound ∧ s2.Sound := by
  have hs1 := (inv_iff.mp h).1.clearOut.subStep_WB hwb
  exact ⟨hs1, hs1.subStep_MEM (by rw [stageSubStep_WB_S hwb]) hmem⟩

end SubSteps

/-! ### The store-data anomaly -/

/-- A STEP moves the occupant of EX to MEM with what EX computes after the MEM sub-step. -/
theorem clock_EX_value {s s1 s2 t : State} {e : Record} (h : clock s = .next t)
    (hwb : stageSubStep .WB s.clearOut = .next s1) (hmem : stageSubStep .MEM s1 = .next s2) (he : s.S.EX = some e) :
    t.S.MEM = some (e.withExValue (e.instr.exValue s2.cfg.xlen fun a => resolve s2 a .EX 0)) := by
  have he2 : s2.S.EX = some e := by rw [stageSubStep_MEM_EX hmem, stageSubStep_WB_S hwb]; exact he
  have hclock : clock s = .next (advance s.S.EX ((s2.enter .EX).exToMem
      (e.withExValue (e.instr.exValue s2.cfg.xlen fun a => resolve s2 a .EX 0)))) :=
    clock_eq_next.mpr ⟨s1, s2, _, hwb, hmem, stageSubStep_EX_occupied he2, rfl⟩
  cases h.symm.trans hclock
  simp

section StoreData

variable {s s1 s2 : State} {m e : Record} {rs2 rs1 : Reg} {imm : Imm}

/-- In the pattern of R238 the SW is given what EX computes from the committed registers. -/
theorem resolve_MEM_of_pair (hs1 : s1.Sound) (hm : s1.S.MEM = some m) (hi : m.instr = .sw rs2 rs1 imm) (hWB : s1.S.WB = none)
    (hz : rs2 ≠ s1.cfg.zero) (he : s1.S.EX = some e) (hlit : s1.cfg.fwdScope = .literal) (halu : e.instr.isAlu = true)
    (hrd : e.instr.rd? = some rs2) (hself : selfDep s1.cfg.zero e.instr = false) :
    resolve s1 rs2 .MEM 0 = e.instr.exValue s1.cfg.xlen s1.reg := by
  obtain ⟨-, -, hblank, -⟩ := hs1.staged
  have hproducer : producer s1 rs2 .MEM = some (.EX, e) :=
    producer_of_EX ((offers_EX_iff (.inr rfl)).mpr ⟨he, hlit, halu, hrd⟩)
  rw [resolve_below_bound rs2 .MEM (maxDepth_pos hs1),
    resolveWithin_alu _ hz hproducer (result_of_blank (hblank e he).1) halu]
  refine exValue_congr fun a ha => resolveWithin_committed _ ?_
  refine producer_none (fun p hp => ?_) (not_offers_of_sw (st := .MEM) hm hi) (not_offers_of_empty (st := .WB) hWB)
  obtain ⟨hp, -, -, hrda⟩ := (offers_EX_iff (.inl rfl)).mp hp
  cases he.symm.trans hp
  cases hrd.symm.trans hrda
  exact not_readsInEX_of_selfDep hself halu hrd hz ha

/-- Behind an SW EX computes from the committed registers as well, unless its instruction reads its own `rd`. -/
theorem resolve_EX_behind_store (hs2 : s2.Sound) (hmem : stageSubStep .MEM s1 = .next s2) (hm : s1.S.MEM = some m)
    (hi : m.instr = .sw rs2 rs1 imm) (he : s2.S.EX = some e) (hself : selfDep s2.cfg.zero e.instr = false) {a : Reg}
    (ha : e.instr.ReadsInEX a) : resolve s2 a .EX 0 = s1.reg a := by
  obtain ⟨w, hw, -, hwi⟩ := stageSubStep_MEM_moves hmem hm
  rw [resolve_EX_of_source hs2 he (stageSubStep_MEM_empties hmem) (.inr hself) ha, ← stageSubStep_MEM_reg hmem]
  refine settledReg_of_not_written fun p hp => ?_
  cases hw.symm.trans hp
  simp [hwi, hi, Instr.rd?]

end StoreData

/-- Settles O41: in the pattern the SW and the instruction behind it compute the same value from the same registers;
otherwise the SW stores the committed value, and after WB no register changes. -/
theorem storeDataAnomaly : Obligations.StoreDataAnomaly := by
  intro s m rs2 rs1 imm k hinv hhost hm hi hz hidx hk
  obtain ⟨t, hst, hclock, -⟩ := step_of_inv hinv hhost
  obtain ⟨s1, s2, hwb, hmem, hcfg, hRF, -⟩ := clock_next hclock
  obtain ⟨hs1, hs2⟩ := sound_between hinv hwb hmem
  have hS := stageSubStep_WB_S hwb
  have hcfg1 : s1.cfg = s.cfg := (stageSubStep_frame hwb).cfg
  have hcfg2 : s2.cfg = s1.cfg := (stageSubStep_frame hmem).cfg
  have hWB1 : s1.S.WB = none := by rw [hS]
  have hMEM1 : s1.S.MEM = some m := by rw [hS]; exact hm
  have hEX1 : s1.S.EX = s.S.EX := by rw [hS]; rfl
  have hstored : t.dm k = resolve s1 rs2 .MEM 0 :=
    (stepWritesOnlyTheStoredWord s t hhost hst k).1 m rs2 rs1 imm s1 hm hi hidx hk hwb
  refine ⟨t, hst, fun e he hlit halu hrd hself => ?_, fun hother => ?_⟩
  · rw [← hcfg1] at hlit hself hz
    have he2 : s2.S.EX = some e := by rw [stageSubStep_MEM_EX hmem, hEX1]; exact he
    have hvalue : e.instr.exValue s2.cfg.xlen (fun a => resolve s2 a .EX 0) = t.dm k := by
      rw [hstored, resolve_MEM_of_pair hs1 hMEM1 hi hWB1 hz (hEX1.trans he) hlit halu hrd hself, hcfg2]
      exact exValue_congr fun a => resolve_EX_behind_store hs2 hmem hMEM1 hi he2 (hcfg2 ▸ hself)
    exact ⟨_, clock_EX_value hclock hwb hmem he, withExValue_id .., by rw [hvalue, withExValue_alu halu]⟩
  · rw [hstored, resolve_MEM_of_store hMEM1 hi hWB1 (by rw [hcfg1, hEX1]; exact hother.imp_right .inr)]
    exact (reg_of_RF (hcfg.trans hcfg1.symm) hRF rs2).symm

/-! ### The depth bound -/

/-- `s` with another depth bound. -/
def State.withDepth (s : State) (d : Nat) : State := { s with cfg := { s.cfg with maxDepth := d } }

section Depth

variable {s t : State} {d : Nat}

@[simp] theorem withDepth_S : (s.withDepth d).S = s.S := rfl

theorem State.Sound.withDepth (h : s.Sound) (hd : 1 ≤ d) : (s.withDepth d).Sound :=
  { h with
    cfg := by
      obtain ⟨hxlen, himm, h2, h32, hzero, hmem, hbound, -, hrest⟩ := h.cfg
      exact ⟨hxlen, himm, h2, h32, hzero, hmem, hbound, hd, hrest⟩
    accounted := ⟨h.accounted.inOrder, h.accounted.named, h.accounted.sized⟩ }

theorem settledReg_withDepth (s : State) (d : Nat) (r : Reg) : (s.withDepth d).settledReg r = s.settledReg r := rfl

theorem memReadAt_withDepth (s : State) (d : Nat) (k : Int) (id : Nat) :
    memReadAt (s.withDepth d) k id = ((memReadAt s k id).1, (memReadAt s k id).2.withDepth d) := by
  cases hk : validIndex s.cfg k with
  | true => rw [memReadAt_valid id hk, memReadAt_valid (s := s.withDepth d) id hk]; rfl
  | false => rw [memReadAt_invalid id hk, memReadAt_invalid (s := s.withDepth d) id hk]; rfl

theorem memWriteAt_withDepth (s : State) (d : Nat) (k : Int) (v : Word) (id : Nat) :
    memWriteAt (s.withDepth d) k v id = (memWriteAt s k v id).withDepth d := by
  cases hk : validIndex s.cfg k with
  | true => rw [memWriteAt_valid v id hk, memWriteAt_valid (s := s.withDepth d) v id hk]; rfl
  | false => rw [memWriteAt_invalid v id hk, memWriteAt_invalid (s := s.withDepth d) v id hk]; rfl

/-- WB forwards nothing. -/
theorem stageSubStep_WB_withDepth (h : stageSubStep .WB s = .next t) :
    stageSubStep .WB (s.withDepth d) = .next (t.withDepth d) := by
  rcases stageSubStep_WB_next h with ⟨e, rfl⟩ | ⟨r, e, rfl, hz⟩ | ⟨r, rd, v, e, hrd, hz, hv, rfl⟩
  · exact stageSubStep_empty (st := .WB) e
  · rw [stageSubStep_occupied (st := .WB) (s := s.withDepth d) e]
    cases hrd : r.instr.rd? with
    | none => exact exec_WB_plain hrd rfl e
    | some rd => exact exec_WB_zero hrd rfl e (hz rd hrd)
  · exact stageSubStep_WB_commit (s := s.withDepth d) e hrd hz hv

/-- MEM forwards to an SW only. -/
theorem stageSubStep_MEM_withDepth (h : stageSubStep .MEM s = .next t)
    (hstore : ∀ m rs2 rs1 imm, s.S.MEM = some m → m.instr = .sw rs2 rs1 imm →
      resolve (s.withDepth d) rs2 .MEM 0 = resolve s rs2 .MEM 0) :
    stageSubStep .MEM (s.withDepth d) = .next (t.withDepth d) := by
  rcases stageSubStep_MEM_next h with ⟨e, rfl⟩ | ⟨r, e, halu, rfl⟩ | ⟨r, k, e, hlw, hk, rfl⟩ |
    ⟨r, rs2, rs1, imm, k, e, hi, hk, rfl⟩
  · exact stageSubStep_empty (st := .MEM) e
  · rw [stageSubStep_occupied (st := .MEM) (s := s.withDepth d) e]
    exact exec_MEM_alu halu rfl e
  · rw [stageSubStep_MEM_load (s := s.withDepth d) e hlw hk]
    exact congrArg (fun x : Word × State => Host.Outcome.next (x.2.memToWb { r with result := some x.1 }))
      (memReadAt_withDepth (s.enter .MEM) d k r.id)
  · rw [stageSubStep_MEM_store (s := s.withDepth d) e hi hk, resolve_enter, hstore r rs2 rs1 imm e hi, resolve_enter]
    exact congrArg (fun u : State => Host.Outcome.next (u.memToWb r)) (memWriteAt_withDepth (s.enter .MEM) d k _ r.id)

/-- EX forwards to its sources only. -/
theorem stageSubStep_EX_withDepth (h : stageSubStep .EX s = .next t)
    (hsource : ∀ e r, s.S.EX = some e → e.instr.ReadsInEX r →
      resolve (s.withDepth d) r .EX 0 = resolve s r .EX 0) :
    stageSubStep .EX (s.withDepth d) = .next (t.withDepth d) := by
  cases e : s.S.EX with
  | none =>
    rw [stageSubStep_empty (st := .EX) e] at h
    cases h
    exact stageSubStep_empty (st := .EX) e
  | some r =>
    rw [stageSubStep_EX_occupied e] at h
    cases h
    rw [stageSubStep_EX_occupied (s := s.withDepth d) e, exValue_congr fun a => hsource r a e]
    rfl

theorem idToEx_withDepth (b : Bool) : idToEx b (s.withDepth d) = (idToEx b s).withDepth d := by
  cases e : s.S.ID <;> cases b <;> simp [idToEx, State.withDepth, e]

theorem ifToId_withDepth : ifToId (s.withDepth d) = (ifToId s).withDepth d := by
  cases e : s.S.IF <;> cases hfree : s.S.idFree <;> simp [ifToId, State.withDepth, e, hfree]

theorem fetch_withDepth : fetch (s.withDepth d) = (fetch s).withDepth d := by
  cases e : s.S.IF <;> cases eQ : s.Q <;> simp [fetch, State.withDepth, e, eQ]

theorem advance_withDepth (x : Option Record) : advance x (s.withDepth d) = (advance x s).withDepth d := by
  have hid (b : Bool) : (idToEx b (s.withDepth d)).enter .IF = ((idToEx b s).enter .IF).withDepth d := by
    rw [idToEx_withDepth]; rfl
  rw [advance, advance, withDepth_S, hid, ifToId_withDepth, fetch_withDepth]
  rfl

end Depth

/-- Settles O42: with both bounds MEM and EX are given the same values, those of the committed registers and of the
retired WB; no other sub-step resolves anything. -/
theorem depthBoundIrrelevant : Obligations.DepthBoundIrrelevant := by
  intro s t d hinv hhost hd hfree hstep
  rw [step_idle hhost] at hstep
  obtain ⟨s1, s2, s3, hwb, hmem, hex, rfl⟩ := clock_eq_next.mp hstep
  obtain ⟨hs1, hs2⟩ := sound_between hinv hwb hmem
  have hwb' : stageSubStep .WB (s.withDepth d).clearOut = .next (s1.withDepth d) := stageSubStep_WB_withDepth hwb
  have hmem' : stageSubStep .MEM (s1.withDepth d) = .next (s2.withDepth d) := by
    refine stageSubStep_MEM_withDepth hmem fun m rs2 rs1 imm hm hi => ?_
    rw [State.AnomalyFree.store_resolves hfree hwb hm hi]
    exact State.AnomalyFree.store_resolves (s := s.withDepth d) hfree hwb' hm hi
  have hex' : stageSubStep .EX (s2.withDepth d) = .next (s3.withDepth d) := by
    refine stageSubStep_EX_withDepth hex fun e r he hr => ?_
    rw [State.AnomalyFree.source_resolves hfree hs2 hwb hmem he hr, ← settledReg_withDepth s2 d]
    exact State.AnomalyFree.source_resolves (s := s.withDepth d) hfree (hs2.withDepth hd) hwb' hmem' he hr
  have hclock : clock (s.withDepth d) = .next ((advance s.S.EX s3).withDepth d) :=
    clock_eq_next.mpr ⟨_, _, _, hwb', hmem', hex', (advance_withDepth s.S.EX).symm⟩
  exact (step_idle (s := s.withDepth d) hhost).trans hclock

end Sys2Proof.Machine
end

section
/-! The timing of a program (70_reset_and_hazards.md R242): the records of the pipeline and the queue as one line that moves
up by one slot in each STEP, or opens a gap behind EX when it stalls; and from this how many STEPs are left until the core
is quiescent. -/

namespace Sys2Proof.Machine

/-! ### Slots and the steps they take -/

/-- What a record keeps from SUBMIT to retirement: its id and its instruction. -/
def Record.tag (r : Record) : Nat × Instr := (r.id, r.instr)

/-- A place in the pipeline or in the queue, empty or with the tag of its record. -/
abbrev Slot := Option (Nat × Instr)

/-- `y` right behind `x` stalls (R122). -/
def behind (x y : Slot) : Bool :=
  match x, y with
  | some i, some j => loadUse i.2 j.2
  | _, _ => false

@[simp] theorem behind_none_left (y : Slot) : behind none y = false := rfl

@[simp] theorem behind_none_right (x : Slot) : behind x none = false := by
  cases x <;> rfl

/-- The hazard unit compares the instructions of two slots. -/
theorem detect_eq_behind (id x : Option Record) : detect id x = behind (x.map Record.tag) (id.map Record.tag) := by
  cases x <;> cases id <;> rfl

/-- The number of slots up to the last that is occupied: the STEPs the line takes without a stall. -/
def occupiedSpan : List Slot → Nat
  | [] => 0
  | x :: l => if x = none ∧ occupiedSpan l = 0 then 0 else occupiedSpan l + 1

/-- The number of slots whose occupant stalls behind its neighbour. -/
def loadUses : List Slot → Nat
  | [] => 0
  | [_] => 0
  | x :: y :: l => (if behind x y then 1 else 0) + loadUses (y :: l)

theorem occupiedSpan_cons_some (x : Nat × Instr) (l : List Slot) : occupiedSpan (some x :: l) = occupiedSpan l + 1 := by
  simp [occupiedSpan]

theorem occupiedSpan_cons_of_ne_zero {l : List Slot} (x : Slot) (h : occupiedSpan l ≠ 0) :
    occupiedSpan (x :: l) = occupiedSpan l + 1 := by
  simp [occupiedSpan, h]

theorem occupiedSpan_eq_zero_iff {l : List Slot} : occupiedSpan l = 0 ↔ ∀ x ∈ l, x = none := by
  induction l with
  | nil => simp [occupiedSpan]
  | cons x l ih =>
    rw [List.forall_mem_cons, ← ih, occupiedSpan]
    split <;> simp_all

theorem occupiedSpan_tail {x : Slot} {l : List Slot} (h : occupiedSpan (x :: l) ≠ 0) :
    occupiedSpan l + 1 = occupiedSpan (x :: l) := by
  rw [occupiedSpan] at h ⊢
  split <;> simp_all

theorem occupiedSpan_append_none (l : List Slot) : occupiedSpan (l ++ [none]) = occupiedSpan l := by
  induction l with
  | nil => rfl
  | cons x l ih => rw [List.cons_append, occupiedSpan, occupiedSpan, ih]

@[simp] theorem loadUses_cons_none (l : List Slot) : loadUses (none :: l) = loadUses l := by
  cases l <;> simp [loadUses]

theorem loadUses_append_none (l : List Slot) : loadUses (l ++ [none]) = loadUses l := by
  induction l with
  | nil => rfl
  | cons x l ih =>
    cases l with
    | nil => simp [loadUses]
    | cons y l => simpa [loadUses] using ih

theorem loadUses_of_empty {l : List Slot} (h : ∀ x ∈ l, x = none) : loadUses l = 0 := by
  induction l with
  | nil => rfl
  | cons x l ih =>
    rw [List.forall_mem_cons] at h
    rw [h.1, loadUses_cons_none, ih h.2]

/-- The STEPs a line takes until it is empty: its first two slots, WB and MEM, are past all stalls. -/
def stepsLeft (l : List Slot) : Nat := occupiedSpan l + loadUses (l.drop 2)

theorem stepsLeft_eq_zero_iff {l : List Slot} : stepsLeft l = 0 ↔ occupiedSpan l = 0 := by
  refine ⟨fun h => (Nat.add_eq_zero_iff.mp h).1, fun h => ?_⟩
  have hempty := occupiedSpan_eq_zero_iff.mp h
  rw [stepsLeft, h, loadUses_of_empty fun x hx => hempty x (List.mem_of_mem_drop hx)]

section Line

variable {w m x d : Slot} {l : List Slot}

theorem stepsLeft_append_none (l : List Slot) : stepsLeft (m :: x :: l ++ [none]) = stepsLeft (m :: x :: l) := by
  simp only [stepsLeft, occupiedSpan_append_none]
  exact congrArg _ (loadUses_append_none l)

/-- Without a hazard in EX and ID the line moves up and has one STEP less to go. -/
theorem stepsLeft_move (hb : behind x d = false) (h : occupiedSpan (w :: m :: x :: d :: l) ≠ 0) :
    stepsLeft (m :: x :: d :: l) + 1 = stepsLeft (w :: m :: x :: d :: l) := by
  simp only [stepsLeft, List.drop_succ_cons, List.drop_zero, loadUses, hb, ← occupiedSpan_tail h]
  simp only [Bool.false_eq_true, if_false]
  omega

/-- A stall opens a gap behind EX: the line keeps its span, and has one stall less to go. -/
theorem stepsLeft_stall (hb : behind x d = true) :
    stepsLeft (m :: x :: none :: d :: l) + 1 = stepsLeft (w :: m :: x :: d :: l) := by
  obtain ⟨i, rfl⟩ : ∃ i, d = some i := by
    cases d with
    | none => simp at hb
    | some i => exact ⟨i, rfl⟩
  have hspan (a b c : Slot) : occupiedSpan (a :: b :: c :: some i :: l) = occupiedSpan (some i :: l) + 3 := by
    have h : occupiedSpan (some i :: l) ≠ 0 := by simp [occupiedSpan_cons_some]
    have h1 := occupiedSpan_cons_of_ne_zero c h
    have h2 := occupiedSpan_cons_of_ne_zero b (l := c :: some i :: l) (by omega)
    have h3 := occupiedSpan_cons_of_ne_zero a (l := b :: c :: some i :: l) (by omega)
    omega
  simp only [stepsLeft, hspan, List.drop_succ_cons, List.drop_zero, loadUses_cons_none]
  simp only [loadUses, hb, if_true]
  omega

end Line

/-! ### The line of a state -/

/-- The slots of WB, MEM, EX, ID and IF, then those of the queue. -/
def State.line (s : State) : List Slot :=
  s.S.WB.map Record.tag :: s.S.MEM.map Record.tag :: s.S.EX.map Record.tag :: s.S.ID.map Record.tag ::
    s.S.IF.map Record.tag :: s.Q.map fun r => some r.tag

theorem quiescent_iff {s : State} : s.Quiescent ↔ occupiedSpan s.line = 0 := by
  rw [occupiedSpan_eq_zero_iff]
  rcases hS : s.S with ⟨IF, ID, EX, MEM, WB⟩
  simp only [State.Quiescent, State.line, hS, Stages.empty, Stages.mk.injEq, List.forall_mem_cons, Option.map_eq_none_iff,
    List.forall_mem_map, reduceCtorEq]
  constructor
  · rintro ⟨hQ, rfl, rfl, rfl, rfl, rfl⟩
    simp [hQ]
  · rintro ⟨rfl, rfl, rfl, rfl, rfl, hQ⟩
    exact ⟨List.eq_nil_iff_forall_not_mem.mpr hQ, rfl, rfl, rfl, rfl, rfl⟩

/-! ### What a STEP does to the line -/

section Step

variable {s t : State}

/-- Without a hazard IF is free for the head of the queue (R109 to R111). -/
theorem advance_move_fetch {x : Option Record} (hd : detect s.S.ID x = false) :
    (advance x s).S.IF = s.Q.head?.map (fun r => Record.fresh r.id r.instr) ∧ (advance x s).Q = s.Q.tail := by
  have hID : (idToEx false s).S.ID = none := by
    cases eID : s.S.ID with
    | none => rw [idToEx_empty _ eID]; exact eID
    | some i => rw [idToEx_move eID]
  have hIF : (ifToId ((idToEx false s).enter .IF)).S.IF = none := by
    cases eIF : s.S.IF with
    | none => rw [ifToId_empty (by simpa using eIF)]; simpa using eIF
    | some f =>
      rw [ifToId_move (s := (idToEx false s).enter .IF) (by simpa using eIF) (idFree_of_not_stalled (.inl hID))]
  rw [advance, hd, count_S, count_Q]
  cases eQ : s.Q with
  | nil =>
    have hQ : (ifToId ((idToEx false s).enter .IF)).Q = [] := by simpa using eQ
    rw [fetch_dry hQ]
    exact ⟨hIF, hQ⟩
  | cons r q =>
    rw [fetch_take (r := r) (q := q) (by simpa using eQ) hIF]
    exact ⟨rfl, rfl⟩

/-- Under a hazard nothing is fetched, unless IF is empty with records waiting. -/
theorem advance_stall_fetch {x : Option Record} {i : Record} (eID : s.S.ID = some i) (hd : detect s.S.ID x = true)
    (hready : s.S.IF = none → s.Q = []) : (advance x s).S.IF = s.S.IF ∧ (advance x s).Q = s.Q := by
  cases eIF : s.S.IF with
  | some f => exact (advance_stall eID hd).2.2 f eIF
  | none =>
    have hQ := hready eIF
    rw [advance, hd, ifToId_empty (by simpa using eIF), fetch_dry (by simpa using hQ)]
    simp [eIF]

theorem clock_MEM_tag (h : clock s = .next t) : t.S.MEM.map Record.tag = s.S.EX.map Record.tag := by
  cases e : s.S.EX with
  | none => rw [clock_MEM_of_EX_empty h e, Option.map_none]
  | some r =>
    obtain ⟨p, hp, hid, hinstr, -⟩ := clock_moves_EX h e
    simp [hp, Record.tag, hid, hinstr]

theorem clock_WB_tag (h : clock s = .next t) : t.S.WB.map Record.tag = s.S.MEM.map Record.tag := by
  cases e : s.S.MEM with
  | none => rw [clock_WB_of_MEM_empty h e, Option.map_none]
  | some r =>
    obtain ⟨p, hp, hid, hinstr⟩ := clock_moves_MEM h e
    simp [hp, Record.tag, hid, hinstr]

/-- Records that differ in their flag alone have one tag. -/
theorem map_tag_stall (o : Option Record) (b : Bool) :
    (o.map fun i => { i with stall := b }).map Record.tag = o.map Record.tag := by
  cases o <;> rfl

/-- A STEP without a hazard moves the line up by one slot; the last slot stays empty when nothing waits. -/
theorem clock_line_move (h : clock s = .next t) (hd : detect s.S.ID s.S.EX = false) :
    t.line = s.line.tail ++ if s.Q = [] then [none] else [] := by
  obtain ⟨hEX, hID⟩ := clock_move h hd
  have hfetch : t.S.IF = s.Q.head?.map (fun r => Record.fresh r.id r.instr) ∧ t.Q = s.Q.tail := by
    obtain ⟨s3, rfl, -, hID3, -, hQ3⟩ := clock_advance h
    rw [← hQ3]
    exact advance_move_fetch (by rwa [hID3])
  rw [State.line, clock_WB_tag h, clock_MEM_tag h, hEX, hID, map_tag_stall, hfetch.1, hfetch.2, State.line]
  cases s.Q with
  | nil => rfl
  | cons r q => rw [if_neg (List.cons_ne_nil r q), List.append_nil]; rfl

/-- IF is occupied when a stall finds records waiting, so that it blocks them. -/
def State.FetchReady (s : State) : Prop := detect s.S.ID s.S.EX = true → s.S.IF = none → s.Q = []

theorem clock_stall_fetch (h : clock s = .next t) (hd : detect s.S.ID s.S.EX = true) (hready : s.FetchReady) :
    t.S.IF = s.S.IF ∧ t.Q = s.Q := by
  obtain ⟨i, l, eID, -⟩ := detect_true hd
  obtain ⟨s3, rfl, hIF, hID, -, hQ⟩ := clock_advance h
  rw [← hIF, ← hQ]
  refine advance_stall_fetch (hID.trans eID) (by rwa [hID]) ?_
  rw [hIF, hQ]
  exact hready hd

/-- A STEP under a hazard opens a gap in EX. -/
theorem clock_line_stall (h : clock s = .next t) (hd : detect s.S.ID s.S.EX = true) (hready : s.FetchReady) :
    t.line = s.S.MEM.map Record.tag :: s.S.EX.map Record.tag :: none :: s.line.drop 3 := by
  obtain ⟨i, l, eID, -⟩ := detect_true hd
  obtain ⟨hID, hEX, -⟩ := clock_stall h eID hd
  obtain ⟨hIF, hQ⟩ := clock_stall_fetch h hd hready
  rw [State.line, clock_WB_tag h, clock_MEM_tag h, hEX, hID, hIF, hQ, State.line, eID]
  rfl

/-- After a STEP IF is occupied as long as records wait. -/
theorem clock_fetchReady (h : clock s = .next t) (hready : s.FetchReady) : t.FetchReady := by
  intro _ hIF
  cases hd : detect s.S.ID s.S.EX with
  | true =>
    obtain ⟨hIF', hQ⟩ := clock_stall_fetch h hd hready
    rw [hQ]
    exact hready hd (hIF'.symm.trans hIF)
  | false =>
    obtain ⟨s3, rfl, -, hID3, -, -⟩ := clock_advance h
    obtain ⟨hIF', hQ⟩ := advance_move_fetch (s := s3) (x := s.S.EX) (by rwa [hID3])
    rw [hIF', Option.map_eq_none_iff, List.head?_eq_none_iff] at hIF
    rw [hQ, hIF]
    rfl

/-- A STEP of a core that is not quiescent leaves one STEP less to go. -/
theorem clock_stepsLeft (h : clock s = .next t) (hready : s.FetchReady) (hbusy : ¬s.Quiescent) :
    stepsLeft t.line + 1 = stepsLeft s.line := by
  rw [quiescent_iff] at hbusy
  cases hd : detect s.S.ID s.S.EX with
  | true =>
    rw [clock_line_stall h hd hready]
    rw [detect_eq_behind] at hd
    exact stepsLeft_stall hd
  | false =>
    have hmove := clock_line_move h hd
    rw [detect_eq_behind] at hd
    refine Eq.trans ?_ (stepsLeft_move hd hbusy)
    rw [hmove]
    split
    · exact congrArg (· + 1) (stepsLeft_append_none _)
    · rw [List.append_nil]
      rfl

end Step

/-! ### The run to quiescence -/

theorem run_succ_last (n : Nat) (s : State) : run (n + 1) s = andThen (run n s) step := by
  have hone : iterate step 1 = step := by
    funext u
    rw [iterate_succ]
    cases step u <;> rfl
  rw [run, iterate_add, hone]
  rfl

/-- `u` stands `n` STEPs after `s` in a run to quiescence. -/
structure Draining (s : State) (n : Nat) (u : State) : Prop where
  inv : u.Inv
  host : u.host = []
  ready : u.FetchReady
  left : stepsLeft u.line + n = stepsLeft s.line
  nextId : u.nextId = s.nextId

theorem Draining.quiescent_iff {s u : State} {n : Nat} (h : Draining s n u) : u.Quiescent ↔ n = stepsLeft s.line := by
  have hleft := h.left
  rw [Machine.quiescent_iff, ← stepsLeft_eq_zero_iff]
  omega

theorem Draining.next {s u : State} {n : Nat} (h : Draining s n u) (hn : n < stepsLeft s.line) :
    ∃ v, step u = .next v ∧ Draining s (n + 1) v := by
  obtain ⟨v, hstep, hclock, hinv, hhost⟩ := step_of_inv h.inv h.host
  have hbusy : ¬u.Quiescent := fun hquiet => Nat.ne_of_lt hn (h.quiescent_iff.mp hquiet)
  have hstepsLeft := clock_stepsLeft hclock h.ready hbusy
  exact ⟨v, hstep, hinv, hhost, clock_fetchReady hclock h.ready, by have := h.left; omega,
    (clock_nextId hclock).trans h.nextId⟩

/-- Every STEP up to `stepsLeft` goes on. -/
theorem run_draining {s : State} (hinv : s.Inv) (hhost : s.host = []) (hready : s.FetchReady) (n : Nat)
    (hn : n ≤ stepsLeft s.line) : ∃ u, run n s = .next u ∧ Draining s n u := by
  induction n with
  | zero => exact ⟨s, rfl, hinv, hhost, hready, rfl, rfl⟩
  | succ n ih =>
    obtain ⟨u, hrun, hu⟩ := ih (Nat.le_of_succ_le hn)
    obtain ⟨v, hstep, hv⟩ := hu.next hn
    exact ⟨v, by rw [run_succ_last, hrun, andThen_next, hstep], hv⟩

/-- In the STEP that makes the core quiescent the last accepted record retires. -/
theorem last_retires {u t : State} (hinv : t.Inv) (h : clock u = .next t) (hquiet : t.Quiescent)
    (hlast : stepsLeft u.line = 1) : t.out.retired = some (t.nextId - 1) := by
  obtain ⟨w, hw⟩ : ∃ w, u.S.WB = some w := by
    have hspan : occupiedSpan u.line ≠ 0 := fun h0 => by
      rw [stepsLeft_eq_zero_iff.mpr h0] at hlast; cases hlast
    have htail : occupiedSpan u.line.tail = 0 := by
      have hcons : occupiedSpan u.line.tail + 1 = occupiedSpan u.line := occupiedSpan_tail hspan
      have : occupiedSpan u.line ≤ stepsLeft u.line := Nat.le_add_right ..
      omega
    rw [← Option.ne_none_iff_exists']
    intro hnone
    refine hspan (occupiedSpan_eq_zero_iff.mpr (List.forall_mem_cons.mpr ⟨?_, occupiedSpan_eq_zero_iff.mp htail⟩))
    rw [hnone]
    rfl
  obtain ⟨hL, hretired, -⟩ := clock_log h
  have hids : t.L.map Record.id = List.range t.nextId := by
    have hinOrder := (inv_iff.mp hinv).1.accounted.inOrder
    simpa [State.accepted, hquiet.1, hquiet.2, Stages.empty] using hinOrder
  rw [hretired, hw, Option.map_some]
  rw [hL, hw] at hids
  cases hn : t.nextId with
  | zero => simp [hn] at hids
  | succ n =>
    rw [hn, List.range_succ, List.map_append] at hids
    obtain ⟨-, hid⟩ := List.append_inj' hids rfl
    simpa using hid

/-! ### From reset -/

theorem occupiedSpan_map_some (p : List (Nat × Instr)) : occupiedSpan (p.map some) = p.length := by
  induction p with
  | nil => rfl
  | cons i p ih => rw [List.map_cons, occupiedSpan_cons_some, ih, List.length_cons]

/-- The stalls of the line are those of the program (R242). -/
theorem loadUses_map_some (p : List (Nat × Instr)) : loadUses (p.map some) = stalls (p.map Prod.snd) := by
  induction p with
  | nil => rfl
  | cons i p ih =>
    cases p with
    | nil => rfl
    | cons j p => exact congrArg _ ih

/-- With empty stages a program takes one STEP for each instruction, five for the stages, and its stalls. -/
theorem stepsLeft_of_empty {s : State} (hS : s.S = Stages.empty) (hQ : s.Q ≠ []) :
    stepsLeft s.line = s.Q.length + 5 + stalls (s.Q.map Record.instr) := by
  have hline : s.line = none :: none :: none :: none :: none :: (s.Q.map Record.tag).map some := by
    simp [State.line, hS, Stages.empty]
  have hspan := occupiedSpan_map_some (s.Q.map Record.tag)
  have hpos : 0 < s.Q.length := List.length_pos_iff.mpr hQ
  rw [List.length_map] at hspan
  have h5 (x : Slot) {l : List Slot} {k : Nat} (h : occupiedSpan l = s.Q.length + k) :
      occupiedSpan (x :: l) = s.Q.length + (k + 1) := by
    rw [occupiedSpan_cons_of_ne_zero x (by omega), h]; rfl
  rw [hline, stepsLeft, h5 none (h5 none (h5 none (h5 none (h5 none (k := 0) hspan))))]
  simp only [List.drop_succ_cons, List.drop_zero, loadUses_cons_none]
  rw [loadUses_map_some, List.map_map]
  rfl

theorem fetchReady_of_empty {s : State} (hS : s.S = Stages.empty) : s.FetchReady := by
  intro hd
  simp [hS, Stages.empty] at hd

theorem map_instr_numbered (n : Nat) (p : List Instr) : (numbered n p).map Record.instr = p := by
  induction p generalizing n with
  | nil => rfl
  | cons i p ih => simp [numbered, Record.fresh, ih]

theorem initial_stepsLeft {c : Config} (h : c.defaultProg ≠ []) :
    stepsLeft (State.initial c).line = c.defaultProg.length + 5 + stalls c.defaultProg := by
  have hlen : (State.initial c).Q.length = c.defaultProg.length := length_numbered 0 c.defaultProg
  have hQ : (State.initial c).Q ≠ [] := by
    rwa [← List.length_pos_iff, hlen, List.length_pos_iff]
  rw [stepsLeft_of_empty rfl hQ, hlen]
  exact congrArg (fun p => _ + stalls p) (map_instr_numbered 0 c.defaultProg)

/-- Settles O52: the run from reset is quiescent when no STEP is left, and not before. -/
theorem drainTime : Obligations.DrainTime := by
  refine ⟨fun c hc hprog => ?_, rfl⟩
  have hleft := initial_stepsLeft hprog
  have hrun := run_draining (initial_inv hc) rfl (fetchReady_of_empty rfl)
  rw [← hleft]
  constructor
  · obtain ⟨k, hk⟩ : ∃ k, stepsLeft (State.initial c).line = k + 1 := ⟨_, by rw [hleft, Nat.add_right_comm]⟩
    obtain ⟨u, hu, hdrain⟩ := hrun k (by omega)
    obtain ⟨t, hstep, ht⟩ := hdrain.next (by omega)
    have hquiet : t.Quiescent := ht.quiescent_iff.mpr hk.symm
    have hlast : stepsLeft u.line = 1 := by have := hdrain.left; omega
    refine ⟨t, by rw [hk, run_succ_last, hu, andThen_next, hstep], hquiet, ?_⟩
    rw [step_idle hdrain.host] at hstep
    rw [last_retires ht.inv hstep hquiet hlast, ht.nextId]
    rfl
  · intro m hm
    obtain ⟨u, hu, hdrain⟩ := hrun m hm.le
    exact ⟨u, hu, fun hquiet => Nat.ne_of_lt hm (hdrain.quiescent_iff.mp hquiet)⟩

end Sys2Proof.Machine
end

section
/-! The sequential equivalence (70_reset_and_hazards.md R239) and the life of one instruction (R241): what the records in
flight and in the queue will still do to registers, memory and fault log, run one at a time, does not change in a STEP
without anomalies; and when the core is quiescent nothing is left to do. -/

namespace Sys2Proof.Machine

/-! ### The sequential reading of what is left -/

/-- Instructions with their ids, one at a time. -/
def seqTags (c : Config) (a : Arch) (p : List (Nat × Instr)) : Arch := p.foldl (fun a x => seqExec c a x.1 x.2) a

theorem seqRun_eq_seqTags (c : Config) (a : Arch) (p : List Record) : seqRun c a p = seqTags c a (p.map Record.tag) := by
  induction p generalizing a with
  | nil => rfl
  | cons r p ih => exact ih _

/-- What the occupant of MEM, as far as EX has brought it, still does: an access at its index, and `rd`. -/
def Arch.finish (c : Config) (a : Arch) (m : Option Record) : Arch :=
  match m with
  | none => a
  | some p =>
    match p.instr, p.idx with
    | .lw rd _ _, some k => a.load c p.id rd k
    | .sw rs2 _ _, some k => a.store c p.id k (regGet c.zero a.RF rs2)
    | _, _ => a.retire c (some p)

/-- The records behind MEM, oldest first. -/
def State.front (s : State) : List (Nat × Instr) :=
  (s.S.EX.toList ++ s.S.ID.toList ++ s.S.IF.toList ++ s.Q).map Record.tag

/-- Registers, memory and fault log when everything in the core has run in program order. -/
def State.settled (s : State) : Arch :=
  seqTags s.cfg ((s.arch.retire s.cfg s.S.WB).finish s.cfg s.S.MEM) s.front

theorem settled_of_quiescent {s : State} (h : s.Quiescent) : s.settled = s.arch := by
  obtain ⟨hQ, hS⟩ := h
  simp [State.settled, State.front, hQ, hS, Stages.empty, seqTags, Arch.finish, retire_none]

theorem settled_of_empty {s : State} (h : s.S = Stages.empty) : s.settled = seqRun s.cfg s.arch s.Q := by
  rw [seqRun_eq_seqTags]
  simp [State.settled, State.front, h, Stages.empty, Arch.finish, retire_none]

theorem finish_alu {p : Record} (c : Config) (a : Arch) (h : p.instr.isAlu = true) :
    a.finish c (some p) = a.retire c (some p) := by
  cases hi : p.instr with
  | add | sub | addi => simp only [Arch.finish, hi]
  | lw | sw => simp [hi, Instr.isAlu] at h

theorem finish_load {p : Record} {rd rs1 : Reg} {imm : Imm} {k : Int} (c : Config) (a : Arch)
    (hi : p.instr = .lw rd rs1 imm) (hk : p.idx = some k) : a.finish c (some p) = a.load c p.id rd k := by
  simp only [Arch.finish, hi, hk]

theorem finish_store {p : Record} {rs2 rs1 : Reg} {imm : Imm} {k : Int} (c : Config) (a : Arch)
    (hi : p.instr = .sw rs2 rs1 imm) (hk : p.idx = some k) :
    a.finish c (some p) = a.store c p.id k (regGet c.zero a.RF rs2) := by
  simp only [Arch.finish, hi, hk]

/-! ### The sub-steps -/

section SubSteps

variable {s t : State}

theorem stageSubStep_WB_arch (h : stageSubStep .WB s = .next t) : t.arch = s.arch.retire s.cfg s.S.WB := by
  rcases stageSubStep_WB_next h with ⟨e, rfl⟩ | ⟨r, e, rfl, hz⟩ | ⟨r, rd, v, e, hrd, -, hv, rfl⟩ <;> rw [e]
  · rfl
  · cases hrd : r.instr.rd? with
    | none => rw [retire_plain _ _ hrd]; rfl
    | some rd =>
      cases hv : r.result with
      | none => simp only [Arch.retire, hrd, hv]; rfl
      | some v => rw [retire_value _ _ hrd hv, hz rd hrd, regSet_zero]; rfl
  · rw [retire_value _ _ hrd hv]
    rfl

/-- A read and its register write are the sequential load (R54). -/
theorem memReadAt_load (s : State) (rd : Reg) (k : Int) (id : Nat) :
    { (memReadAt s k id).2.arch with RF := regSet s.cfg.zero (memReadAt s k id).2.RF rd (memReadAt s k id).1 } =
      s.arch.load s.cfg id rd k := by
  cases hk : validIndex s.cfg k with
  | true => rw [memReadAt_valid id hk, Arch.load, if_pos hk]; rfl
  | false =>
    rw [memReadAt_invalid id hk, Arch.load, if_neg (by simp [hk])]
    simp [State.arch, FaultEntry.timeless]

/-- A write is the sequential store (R55). -/
theorem memWriteAt_store (s : State) (k : Int) (v : Word) (id : Nat) :
    (memWriteAt s k v id).arch = s.arch.store s.cfg id k v := by
  cases hk : validIndex s.cfg k with
  | true => rw [memWriteAt_valid v id hk, Arch.store, if_pos hk]; rfl
  | false =>
    rw [memWriteAt_invalid v id hk, Arch.store, if_neg (by simp [hk])]
    simp [State.arch, FaultEntry.timeless]

/-- The MEM sub-step and the retirement after it are what the occupant still had to do. -/
theorem stageSubStep_MEM_arch (h : stageSubStep .MEM s = .next t) (hWB : s.S.WB = none)
    (hstore : ∀ m rs2 rs1 imm, s.S.MEM = some m → m.instr = .sw rs2 rs1 imm → resolve s rs2 .MEM 0 = s.reg rs2) :
    t.arch.retire t.cfg t.S.WB = s.arch.finish s.cfg s.S.MEM := by
  have hcfg : t.cfg = s.cfg := (stageSubStep_frame h).cfg
  rw [hcfg]
  rcases stageSubStep_MEM_next h with ⟨e, rfl⟩ | ⟨r, e, halu, rfl⟩ | ⟨r, k, e, hlw, hk, rfl⟩ |
    ⟨r, rs2, rs1, imm, k, e, hi, hk, rfl⟩ <;> rw [e]
  · rw [State.enter_S, hWB]; rfl
  · rw [finish_alu _ _ halu]; rfl
  · obtain ⟨rd, rs1, imm, hi⟩ := isLw_iff.mp hlw
    rw [finish_load _ _ hi hk, ← State.enter_cfg s .MEM]
    refine Eq.trans (retire_value (rd := rd) _ _ ?_ rfl) (memReadAt_load (s.enter .MEM) rd k r.id)
    · exact congrArg Instr.rd? hi
  · rw [finish_store _ _ hi hk]
    refine Eq.trans (retire_plain _ _ (congrArg Instr.rd? hi)) ?_
    refine (memWriteAt_store (s.enter .MEM) k _ r.id).trans ?_
    rw [resolve_enter, hstore r rs2 rs1 imm e hi]
    rfl

/-- What EX computes from the registers of the retired WB is what the instruction alone computes (R239). -/
theorem finish_withExValue (c : Config) (a : Arch) (e : Record) :
    a.finish c (some (e.withExValue (e.instr.exValue c.xlen (regGet c.zero a.RF)))) = seqExec c a e.id e.instr := by
  obtain ⟨id, i, stall, result, ea, idx⟩ := e
  cases i <;> rfl

/-- A STEP's last sub-steps only move records up. -/
theorem idToEx_front (b : Bool) (hEX : s.S.EX = none) : (idToEx b s).front = s.front := by
  cases e : s.S.ID with
  | none => rw [idToEx_empty b e]
  | some r => cases b <;> simp [State.front, idToEx_stall e, idToEx_move e, hEX, e, Record.tag]

theorem ifToId_front (hID : ∀ i, s.S.ID = some i → i.stall = true) : (ifToId s).front = s.front := by
  cases eID : s.S.ID with
  | some i => rw [ifToId_block (idFree_of_stalled eID (hID i eID))]
  | none =>
    cases eIF : s.S.IF with
    | none => rw [ifToId_empty eIF]
    | some f => simp [State.front, ifToId_move eIF (idFree_of_not_stalled (.inl eID)), eIF, eID]

theorem fetch_front : (fetch s).front = s.front := by
  cases eIF : s.S.IF with
  | some f => rw [fetch_block eIF]
  | none =>
    cases eQ : s.Q with
    | nil => rw [fetch_dry eQ]
    | cons r q => simp [State.front, fetch_take eQ eIF, eIF, eQ, Record.tag, Record.fresh]

theorem advance_front (x : Option Record) (hEX : s.S.EX = none) : (advance x s).front = s.front :=
  calc (advance x s).front = (fetch (ifToId ((idToEx (detect s.S.ID x) s).enter .IF))).front := rfl
    _ = (ifToId ((idToEx (detect s.S.ID x) s).enter .IF)).front := fetch_front
    _ = ((idToEx (detect s.S.ID x) s).enter .IF).front := ifToId_front fun _ => idToEx_ID_stalled
    _ = s.front := idToEx_front _ hEX

/-- The records behind EX. -/
def State.decoding (s : State) : List (Nat × Instr) := (s.S.ID.toList ++ s.S.IF.toList ++ s.Q).map Record.tag

theorem front_eq (s : State) : s.front = (s.S.EX.map Record.tag).toList ++ s.decoding := by
  rw [State.front, State.decoding]
  cases s.S.EX <;> simp

/-- A STEP takes the occupant of EX out of the front. -/
theorem clock_front (h : clock s = .next t) : t.front = s.decoding := by
  obtain ⟨s3, rfl, hIF, hID, hEX, hQ⟩ := clock_advance h
  rw [advance_front _ hEX, front_eq, hEX, State.decoding, hIF, hID, hQ]
  rfl

end SubSteps

/-! ### A STEP without anomalies -/

/-- The instructions that have not yet been through MEM, oldest first. -/
def State.uncommitted (s : State) : List Instr := ((s.S.MEM.map Record.tag).toList ++ s.front).map Prod.snd

/-- No anomaly can show until the core is quiescent: OLDER_ONLY, or a rest of the program without the patterns (R239). -/
def State.Clean (s : State) : Prop := s.cfg.fwdScope = .olderOnly ∨ anomalyFree s.cfg.zero s.uncommitted = true

theorem anomalyFree_cons_iff {z : Reg} {i : Instr} {p : List Instr} : anomalyFree z (i :: p) = true ↔
    selfDep z i = false ∧ (∀ j ∈ p.head?, storeDataPair z i j = false) ∧ anomalyFree z p = true := by
  cases p with
  | nil => simp [anomalyFree]
  | cons j p => simp [anomalyFree, and_assoc]

section Clean

variable {s t : State}

theorem State.Clean.anomalyFree (h : s.Clean) : s.AnomalyFree := by
  refine h.imp_right fun h => ?_
  have hfront (e : Record) (he : s.S.EX = some e) : s.front.map Prod.snd = e.instr :: s.decoding.map Prod.snd := by
    rw [front_eq, he]; rfl
  cases hm : s.S.MEM with
  | none =>
    simp only [State.uncommitted, hm, Option.map_none, Option.toList_none, List.nil_append] at h
    refine ⟨fun e he => ?_, fun _ _ hnone _ => by cases hnone⟩
    rw [hfront e he] at h
    exact (anomalyFree_cons_iff.mp h).1
  | some m =>
    simp only [State.uncommitted, hm, Option.map_some, Option.toList_some, List.singleton_append, List.map_cons] at h
    obtain ⟨-, hpair, hrest⟩ := anomalyFree_cons_iff.mp h
    refine ⟨fun e he => ?_, ?_⟩
    · rw [hfront e he] at hrest
      exact (anomalyFree_cons_iff.mp hrest).1
    · rintro _ e ⟨⟩ he
      exact hpair e.instr (by rw [hfront e he]; rfl)

/-- A STEP leaves in MEM and behind it what stood behind MEM. -/
theorem clock_uncommitted (h : clock s = .next t) : t.uncommitted = s.front.map Prod.snd := by
  rw [State.uncommitted, clock_MEM_tag h, clock_front h, ← front_eq]

theorem State.Clean.clock (h : s.Clean) (hstep : clock s = .next t) : t.Clean := by
  have hcfg : t.cfg = s.cfg := command_cfg (c := .step) hstep
  rw [State.Clean, hcfg, clock_uncommitted hstep]
  refine h.imp_right fun h => ?_
  cases hm : s.S.MEM with
  | none => simpa [State.uncommitted, hm] using h
  | some m =>
    simp only [State.uncommitted, hm, Option.map_some, Option.toList_some, List.singleton_append, List.map_cons] at h
    exact (anomalyFree_cons_iff.mp h).2.2

/-- With MEM empty the EX sub-step leaves what is left to do as it was: EX's occupant is now one that MEM has to finish. -/
theorem stageSubStep_EX_settled (h : stageSubStep .EX s = .next t) (hMEM : s.S.MEM = none)
    (hsource : ∀ e r, s.S.EX = some e → e.instr.ReadsInEX r → resolve s r .EX 0 = s.settledReg r) :
    t.settled = s.settled := by
  cases he : s.S.EX with
  | none =>
    rw [stageSubStep_empty (st := .EX) he] at h
    cases h
    rfl
  | some e =>
    rw [stageSubStep_EX_occupied he, exValue_congr fun r => hsource e r he] at h
    cases h
    have hfinish := finish_withExValue s.cfg (s.arch.retire s.cfg s.S.WB) e
    calc State.settled _ = seqTags s.cfg ((s.arch.retire s.cfg s.S.WB).finish s.cfg
            (some (e.withExValue (e.instr.exValue s.cfg.xlen s.settledReg)))) s.decoding := rfl
      _ = seqTags s.cfg (seqExec s.cfg (s.arch.retire s.cfg s.S.WB) e.id e.instr) s.decoding :=
        congrArg (seqTags s.cfg · _) hfinish
      _ = s.settled := by
        rw [State.settled, hMEM, front_eq, he]
        rfl

/-- What is left to do comes out the same before and after a STEP. -/
theorem clock_settled (hinv : s.Inv) (hclean : s.Clean) (h : clock s = .next t) : t.settled = s.settled := by
  obtain ⟨s1, s2, s3, hwb, hmem, hex, rfl⟩ := clock_eq_next.mp h
  obtain ⟨hs1, hs2⟩ := sound_between hinv hwb hmem
  have fwb := stageSubStep_frame hwb
  have fmem := stageSubStep_frame hmem
  have hcfg1 : s1.cfg = s.cfg := fwb.cfg
  have hS1 := stageSubStep_WB_S hwb
  have hMEM2 := stageSubStep_MEM_empties hmem
  have hfront1 : s1.front = s.front := by rw [State.front, hS1, fwb.Q]; rfl
  have hfront2 : s2.front = s1.front := by
    rw [State.front, stageSubStep_MEM_EX hmem, fmem.ID, fmem.IF, fmem.Q]; rfl
  have harch1 : s1.arch = s.arch.retire s.cfg s.S.WB := stageSubStep_WB_arch (s := s.clearOut) hwb
  have harch2 : s2.arch.retire s2.cfg s2.S.WB = s1.arch.finish s1.cfg s1.S.MEM :=
    stageSubStep_MEM_arch hmem (by rw [hS1]) fun m rs2 rs1 imm hm hi => hclean.anomalyFree.store_resolves hwb hm hi
  calc (advance s.S.EX s3).settled = s3.settled := by
        rw [State.settled, State.settled, advance_front _ (stageSubStep_EX_empties hex), advance_MEM, advance_WB,
          advance_cfg]
        simp only [State.arch, advance_RF, advance_DM, advance_F]
    _ = s2.settled := stageSubStep_EX_settled hex hMEM2 fun e r he hr =>
        hclean.anomalyFree.source_resolves hs2 hwb hmem he hr
    _ = seqTags s1.cfg (s1.arch.finish s1.cfg s1.S.MEM) s1.front := by
        have hcfg2 : s2.cfg = s1.cfg := fmem.cfg
        rw [State.settled, harch2, hMEM2, hfront2, hcfg2]
        rfl
    _ = s.settled := by
        rw [State.settled, harch1, hcfg1, hfront1, hS1]
        rfl

/-- A run of STEPs keeps it. -/
theorem run_settled (n : Nat) (hinv : s.Inv) (hhost : s.host = []) (hclean : s.Clean) (h : run n s = .next t) :
    t.settled = s.settled := by
  induction n generalizing s with
  | zero => cases h; rfl
  | succ n ih =>
    rw [run_succ, step_idle hhost] at h
    obtain ⟨u, hu, hrun⟩ := andThen_eq_next.mp h
    rw [ih (clock_inv hinv hu) ((clock_host hu).trans hhost) (hclean.clock hu) hrun, clock_settled hinv hclean hu]

theorem clean_of_empty (hS : s.S = Stages.empty)
    (h : s.cfg.fwdScope = .olderOnly ∨ Machine.anomalyFree s.cfg.zero (s.Q.map Record.instr) = true) : s.Clean := by
  have hrest : s.uncommitted = s.Q.map Record.instr := by
    simp [State.uncommitted, State.front, hS, Stages.empty, Record.tag]
  rwa [State.Clean, hrest]

end Clean

/-- Settles O53: the run to quiescence of `run_draining`; at its end nothing is left to do, at its beginning the queue. -/
theorem sequentialEquivalence : Obligations.SequentialEquivalence := by
  intro s hinv hhost hS hfree
  have hrun := run_draining hinv hhost (fetchReady_of_empty hS)
  obtain ⟨t, ht, hdrain⟩ := hrun _ le_rfl
  have hquiet : t.Quiescent := hdrain.quiescent_iff.mpr rfl
  refine ⟨_, t, ht, hquiet, fun m u hm hu hquiet' => ?_, ?_⟩
  · obtain ⟨u', hu', hdrain'⟩ := hrun m hm.le
    cases hu.symm.trans hu'
    exact Nat.ne_of_lt hm (hdrain'.quiescent_iff.mp hquiet')
  · rw [← settled_of_quiescent hquiet, run_settled _ hinv hhost (clean_of_empty hS hfree) ht, settled_of_empty hS]

end Sys2Proof.Machine
end

section
/-! The life of one instruction in an otherwise empty core (70_reset_and_hazards.md R241): one stage in each STEP, and at its
retirement the sequential effect of R239. -/

namespace Sys2Proof.Machine

/-! ### One record in the pipeline -/

/-- The stage holders with `r` in stage `st` and nothing else. -/
def Stages.only (st : Stage) (r : Record) : Stages :=
  match st with
  | .IF => ⟨some r, none, none, none, none⟩
  | .ID => ⟨none, some r, none, none, none⟩
  | .EX => ⟨none, none, some r, none, none⟩
  | .MEM => ⟨none, none, none, some r, none⟩
  | .WB => ⟨none, none, none, none, some r⟩

/-- The line with `x` in stage `st` and nothing else, no record waiting. -/
def onlyLine (st : Stage) (x : Nat × Instr) : List Slot :=
  match st with
  | .IF => [none, none, none, none, some x]
  | .ID => [none, none, none, some x, none]
  | .EX => [none, none, some x, none, none]
  | .MEM => [none, some x, none, none, none]
  | .WB => [some x, none, none, none, none]

/-- The next older stage. -/
def Stage.following : Stage → Stage
  | .IF => .ID
  | .ID => .EX
  | .EX => .MEM
  | .MEM => .WB
  | .WB => .WB

theorem rank_following {st : Stage} (h : st ≠ .WB) : st.following.rank = st.rank + 1 := by
  cases st with
  | WB => exact absurd rfl h
  | IF | ID | EX | MEM => rfl

/-- Moving up by one slot is moving to the next stage. -/
theorem tail_onlyLine {st : Stage} (x : Nat × Instr) (h : st ≠ .WB) :
    (onlyLine st x).tail ++ [none] = onlyLine st.following x := by
  cases st with
  | WB => exact absurd rfl h
  | IF | ID | EX | MEM => rfl

/-- Slot by slot the line says which stages are empty. -/
theorem stages_of_onlyLine {u : State} {st : Stage} {x : Nat × Instr} (h : u.line = onlyLine st x) :
    u.Q = [] ∧ ∃ r, u.S = Stages.only st r ∧ r.id = x.1 ∧ r.instr = x.2 := by
  rcases hS : u.S with ⟨IF, ID, EX, MEM, WB⟩
  cases st <;>
    simp only [State.line, hS, onlyLine, List.cons.injEq, Option.map_eq_none_iff, Option.map_eq_some_iff,
      List.map_eq_nil_iff] at h <;>
    simp only [Stages.only, Stages.mk.injEq] <;>
    grind [Record.tag]

/-- One record alone is never in a hazard. -/
theorem detect_only (st : Stage) (r : Record) : detect (Stages.only st r).ID (Stages.only st r).EX = false := by
  cases st <;> rfl

theorem only_WB_eq_none {st : Stage} (h : st ≠ .WB) (r : Record) : (Stages.only st r).WB = none := by
  cases st with
  | WB => exact absurd rfl h
  | IF | ID | EX | MEM => rfl

/-! ### On its way from `s`, where it waits in the queue -/

/-- In the run from `s` the record `x` stands in stage `st`, alone, in state `u`. -/
structure Passing (s : State) (x : Nat × Instr) (st : Stage) (u : State) : Prop where
  run : run (st.rank + 1) s = .next u
  inv : u.Inv
  host : u.host = []
  line : u.line = onlyLine st x
  L : u.L = s.L

section Passing

variable {s u : State} {x : Nat × Instr} {st : Stage}

/-- A STEP in which one record stands alone. -/
theorem clock_onlyLine {v : State} (h : clock u = .next v) (hline : u.line = onlyLine st x) :
    v.line = (onlyLine st x).tail ++ [none] := by
  obtain ⟨hQ, r, hS, -, -⟩ := stages_of_onlyLine hline
  have hmove := clock_line_move h (by rw [hS]; exact detect_only st r)
  rwa [hQ, if_pos rfl, hline] at hmove

theorem Passing.next (h : Passing s x st u) (hst : st ≠ .WB) : ∃ v, step u = .next v ∧ Passing s x st.following v := by
  obtain ⟨v, hstep, hclock, hinv, hhost⟩ := step_of_inv h.inv h.host
  obtain ⟨-, r, hS, -, -⟩ := stages_of_onlyLine h.line
  have hL : v.L = s.L := by rw [(clock_log hclock).1, hS, only_WB_eq_none hst, h.L]; exact List.append_nil _
  refine ⟨v, hstep, ⟨?_, hinv, hhost, ?_, hL⟩⟩
  · rw [rank_following hst, run_succ_last, h.run, andThen_next, hstep]
  · rw [clock_onlyLine hclock h.line, tail_onlyLine x hst]

/-- The first STEP fetches the one record that waits. -/
theorem passing_fetched {r : Record} (hinv : s.Inv) (hhost : s.host = []) (hS : s.S = Stages.empty) (hQ : s.Q = [r]) :
    ∃ u, step s = .next u ∧ Passing s r.tag .IF u := by
  obtain ⟨u, hstep, hclock, huinv, huhost⟩ := step_of_inv hinv hhost
  have hmove := clock_line_move hclock (by rw [hS]; rfl)
  refine ⟨u, hstep, ⟨?_, huinv, huhost, ?_, ?_⟩⟩
  · rw [run_succ_last]
    exact hstep
  · rw [hmove, State.line, hQ, hS]
    rfl
  · rw [(clock_log hclock).1, hS]
    exact List.append_nil _

/-- From WB the record retires, and nothing is left (R105). -/
theorem Passing.retires (h : Passing s x .WB u) : ∃ v r, step u = .next v ∧ Machine.run 6 s = .next v ∧ v.Quiescent ∧
    v.out.retired = some x.1 ∧ v.L = s.L ++ [r] ∧ r.id = x.1 ∧ r.instr = x.2 := by
  obtain ⟨v, hstep, hclock, -⟩ := step_of_inv h.inv h.host
  obtain ⟨-, r, hS, hid, hinstr⟩ := stages_of_onlyLine h.line
  obtain ⟨hL, hretired, -⟩ := clock_log hclock
  have hrun : Machine.run 6 s = .next v := by
    rw [run_succ_last, show Machine.run 5 s = .next u from h.run, andThen_next, hstep]
  refine ⟨v, r, hstep, hrun, ?_, ?_, ?_, hid, hinstr⟩
  · rw [quiescent_iff, clock_onlyLine hclock h.line]
    rfl
  · rw [hretired, hS, ← hid]
    rfl
  · rw [hL, h.L, hS]
    rfl

end Passing

/-- What one instruction that waits in front of an empty pipeline leaves when it is through. -/
theorem arch_of_single {s t : State} {id n : Nat} {i : Instr} (hinv : s.Inv) (hhost : s.host = [])
    (hS : s.S = Stages.empty) (hQ : s.Q = [Record.fresh id i]) (h : run n s = .next t) (hquiet : t.Quiescent)
    (hfree : s.cfg.fwdScope = .olderOnly ∨ selfDep s.cfg.zero i = false) : t.arch = seqExec s.cfg s.arch id i := by
  have hclean : s.Clean := clean_of_empty hS (by simpa [hQ, Record.fresh, anomalyFree] using hfree)
  rw [← settled_of_quiescent hquiet, run_settled n hinv hhost hclean h, settled_of_empty hS, hQ]
  rfl

/-- Settles O51: the record is fetched, passes the five stages and retires, alone all the way. -/
theorem oneInstructionFromSubmitToRetirement : Obligations.OneInstructionFromSubmitToRetirement := by
  intro s w i hinv hhost ⟨hQ, hS⟩ hd hq
  have hsubmit := submit_accepted hd hq
  obtain ⟨s0, hs0⟩ : ∃ s0, submit w s = s0 := ⟨_, rfl⟩
  have hinv0 : s0.Inv := hs0 ▸ submit_inv w hinv
  have hhost0 : s0.host = [] := by rw [← hs0, hsubmit]; exact hhost
  have hS0 : s0.S = Stages.empty := by rw [← hs0, hsubmit]; exact hS
  have hQ0 : s0.Q = [Record.fresh s.nextId i] := by rw [← hs0, hsubmit]; simp [hQ]
  have hL0 : s0.L = s.L := by rw [← hs0, hsubmit]; rfl
  have hcfg0 : s0.cfg = s.cfg := by rw [← hs0, hsubmit]; rfl
  have harch0 : s0.arch = s.arch := by rw [← hs0, hsubmit]; rfl
  obtain ⟨s1, h1, hIF⟩ := passing_fetched hinv0 hhost0 hS0 hQ0
  obtain ⟨s2, h2, hID⟩ := hIF.next nofun
  obtain ⟨s3, h3, hEX⟩ := hID.next nofun
  obtain ⟨s4, h4, hMEM⟩ := hEX.next nofun
  obtain ⟨s5, h5, hWB⟩ := hMEM.next nofun
  obtain ⟨s6, r, h6, hrun, hquiet, hretired, hL, hr⟩ := hWB.retires
  refine ⟨s0, s1, s2, s3, s4, s5, s6, congrArg Host.Outcome.next hs0, h1, h2, h3, h4, h5, h6,
    (stages_of_onlyLine hIF.line).2, (stages_of_onlyLine hID.line).2, (stages_of_onlyLine hEX.line).2,
    (stages_of_onlyLine hMEM.line).2, (stages_of_onlyLine hWB.line).2, hquiet, hWB.L.trans hL0, hretired,
    ⟨r, hL0 ▸ hL, hr⟩, fun hfree => ?_⟩
  rw [← hcfg0] at hfree
  rw [← hcfg0, ← harch0]
  exact arch_of_single hinv0 hhost0 hS0 hQ0 hrun hquiet hfree

end Sys2Proof.Machine
end
